-- ==== Sys2Proof/Word.lean ====
section
/-! DEFINITION. The word types of the PSC: the widths of the command port (00_scope.md R6, R9). -/

namespace Sys2Proof

/-- A 32-bit word of the register window: a command word, or half of a 64-bit register (20_memory.md R81, R83). -/
abbrev Word := BitVec 32

/-- A 64-bit register of the command port: OPD, RESULT, SAMPLE_INDEX (00_scope.md R6). -/
abbrev Word64 := BitVec 64

/-- The encoding of a binary64 value: sign in bit 63, exponent in bits 62:52, fraction in bits 51:0
(20_memory.md R84). The value and its encoding are one thing here, so `f64` and `bits64` of 00_scope.md R9 are the
identity. -/
abbrev F64 := BitVec 64

/-- The IDX field of a command word: a key code or a pipe pseudo-note-code, in 10-bit two's complement
(30_encoding.md R111). -/
abbrev CodeField := BitVec 10

end Sys2Proof
end

