-- ==== Sys2Proof/Syntax.lean ====
section
/-! DEFINITION. The twenty commands of the PSC as syntax, one constructor for each row of opcode_table.json (30_encoding.md R121),
with the fields of the command word (R111) as operands. -/

namespace Sys2Proof

/-- A command. `idx` is IDX, `sel` SEL, `sub` SUB, `creg` CREG, `all` ALL and `b` B of 30_encoding.md R111. -/
inductive Instr where
  /-- no operation (44_control.md R280) -/
  | nop
  /-- return to the reset state (44_control.md R281) -/
  | reset
  /-- construct the organ (43_mixer.md R240) -/
  | build
  /-- clear the non-fatal error bits (44_control.md R282) -/
  | clrst
  /-- write a configuration register (44_control.md R283) -/
  | cfgw (creg : BitVec 8)
  /-- read a configuration register (44_control.md R284) -/
  | cfgr (creg : BitVec 8)
  /-- press or release a key (43_mixer.md R250) -/
  | setkey (idx : CodeField) (b : Bool)
  /-- one sample step (43_mixer.md R255) -/
  | next
  /-- read a key's pressed state (44_control.md R285) -/
  | keyq (idx : CodeField)
  /-- envelope activate (41_envelope.md R182) -/
  | pact (idx : CodeField) (all b : Bool)
  /-- envelope target volume (41_envelope.md R183) -/
  | pvol (idx : CodeField) (all : Bool)
  /-- set attackDuration (41_envelope.md R184) -/
  | patk (idx : CodeField) (all : Bool)
  /-- set decayDuration (41_envelope.md R185) -/
  | pdec (idx : CodeField) (all : Bool)
  /-- set sustainLevel (41_envelope.md R186) -/
  | psus (idx : CodeField) (all : Bool)
  /-- set releaseDuration (41_envelope.md R188) -/
  | prel (idx : CodeField) (all : Bool)
  /-- set a filter slot's type (42_filter.md R220) -/
  | pftype (idx : CodeField) (sel : BitVec 4) (all b : Bool)
  /-- set a vibrato slot's rate (42_filter.md R221) -/
  | pvrate (idx : CodeField) (sel : BitVec 4) (all : Bool)
  /-- set a vibrato slot's intensity (42_filter.md R222) -/
  | pvint (idx : CodeField) (sel : BitVec 4) (all : Bool)
  /-- read filter slot state (44_control.md R289) -/
  | pfq (idx : CodeField) (sel sub : BitVec 4)
  /-- read pipe state (44_control.md R287) -/
  | pqry (idx : CodeField) (sel : BitVec 4)
deriving DecidableEq, Repr

end Sys2Proof
end

