-- ==== Sys2Proof/WellFormed.lean ====
section
/-! DEFINITION. The commands that a command word can stand for: the two fields with undefined values hold defined ones
(30_encoding.md R124). -/

namespace Sys2Proof

/-- A CREG number 10_state.md R40 lists. -/
def cregDefined (creg : BitVec 8) : Bool := decide (creg.toNat < 0x30)

/-- A PFQ selector 44_control.md R289 lists. -/
def subDefined (sub : BitVec 4) : Bool := decide (sub.toNat ≤ 5)

/-- Every field with undefined values holds a defined one (30_encoding.md R124). -/
def Instr.wellFormed : Instr → Bool
  | .cfgw creg => cregDefined creg
  | .cfgr creg => cregDefined creg
  | .pfq _ _ sub => subDefined sub
  | .nop | .reset | .build | .clrst | .next => true
  | .setkey _ _ | .keyq _ => true
  | .pact _ _ _ | .pvol _ _ | .patk _ _ | .pdec _ _ | .psus _ _ | .prel _ _ => true
  | .pftype _ _ _ _ | .pvrate _ _ _ | .pvint _ _ _ => true
  | .pqry _ _ => true

end Sys2Proof
end

