-- ==== Sys2Proof/Decode.lean ====
section
/-! DEFINITION. Decoding and encoding of the command word (30_encoding.md R110 to R125). -/

namespace Sys2Proof

/-- The twenty opcodes (30_encoding.md R121). -/
inductive Opcode where
  | nop | reset | build | clrst | cfgw | cfgr | setkey | next | keyq
  | pact | pvol | patk | pdec | psus | prel
  | pftype | pvrate | pvint | pfq | pqry
deriving DecidableEq, Repr

/-- The OP value of an opcode (30_encoding.md R121). -/
def Opcode.number : Opcode → BitVec 6
  | .nop => 0x00
  | .reset => 0x01
  | .build => 0x02
  | .clrst => 0x03
  | .cfgw => 0x04
  | .cfgr => 0x05
  | .setkey => 0x08
  | .next => 0x09
  | .keyq => 0x0A
  | .pact => 0x10
  | .pvol => 0x11
  | .patk => 0x12
  | .pdec => 0x13
  | .psus => 0x14
  | .prel => 0x15
  | .pftype => 0x18
  | .pvrate => 0x19
  | .pvint => 0x1A
  | .pfq => 0x1E
  | .pqry => 0x1F

/-- The opcode an OP value stands for; none for the undefined values (30_encoding.md R121, R124). -/
def Opcode.ofNumber (op : BitVec 6) : Option Opcode :=
  match op.toNat with
  | 0x00 => some .nop
  | 0x01 => some .reset
  | 0x02 => some .build
  | 0x03 => some .clrst
  | 0x04 => some .cfgw
  | 0x05 => some .cfgr
  | 0x08 => some .setkey
  | 0x09 => some .next
  | 0x0A => some .keyq
  | 0x10 => some .pact
  | 0x11 => some .pvol
  | 0x12 => some .patk
  | 0x13 => some .pdec
  | 0x14 => some .psus
  | 0x15 => some .prel
  | 0x18 => some .pftype
  | 0x19 => some .pvrate
  | 0x1A => some .pvint
  | 0x1E => some .pfq
  | 0x1F => some .pqry
  | _ => none

/-- MASK[op]: the opcode bits and the must-be-zero bits (30_encoding.md R123). -/
def Opcode.mask : Opcode → Word
  | .nop | .reset | .build | .clrst | .next => 0xFFFFFFFF
  | .cfgw | .cfgr => 0xFF00FFFF
  | .setkey => 0xFC00FFFE
  | .keyq => 0xFC00FFFF
  | .pact => 0xFC00FFFC
  | .pvol | .patk | .pdec | .psus | .prel => 0xFC00FFFD
  | .pqry => 0xFC000FFF
  | .pftype => 0xFC000FFC
  | .pvrate | .pvint => 0xFC000FFD
  | .pfq => 0xFC0000FF

/-- MATCH[op] is `op << 26` (30_encoding.md R123). -/
def Opcode.matchWord (op : Opcode) : Word := op.number ++ (0 : BitVec 26)

/-! Fields (30_encoding.md R111, R113) -/

def opField (w : Word) : BitVec 6 := w.extractLsb' 26 6
def idxField (w : Word) : CodeField := w.extractLsb' 16 10
def cregField (w : Word) : BitVec 8 := w.extractLsb' 16 8
def selField (w : Word) : BitVec 4 := w.extractLsb' 12 4
def subField (w : Word) : BitVec 4 := w.extractLsb' 8 4
def allField (w : Word) : Bool := w.getLsbD 1
def bField (w : Word) : Bool := w.getLsbD 0

/-- Why a word is illegal (30_encoding.md R124). The block records only ILLEGAL (60_exceptions.md R321). -/
inductive DecodeError where
  /-- OP is undefined -/
  | undefinedOpcode
  /-- a must-be-zero bit is 1 -/
  | mustBeZero
  /-- CFGW or CFGR names a CREG number 0x30 to 0xFF -/
  | undefinedCreg
  /-- PFQ has SUB 6 to 15 -/
  | undefinedSub
deriving DecidableEq, Repr

/-- The command with an opcode and the fields of a word. -/
def Opcode.assemble (op : Opcode) (w : Word) : Instr :=
  match op with
  | .nop => .nop
  | .reset => .reset
  | .build => .build
  | .clrst => .clrst
  | .cfgw => .cfgw (cregField w)
  | .cfgr => .cfgr (cregField w)
  | .setkey => .setkey (idxField w) (bField w)
  | .next => .next
  | .keyq => .keyq (idxField w)
  | .pact => .pact (idxField w) (allField w) (bField w)
  | .pvol => .pvol (idxField w) (allField w)
  | .patk => .patk (idxField w) (allField w)
  | .pdec => .pdec (idxField w) (allField w)
  | .psus => .psus (idxField w) (allField w)
  | .prel => .prel (idxField w) (allField w)
  | .pftype => .pftype (idxField w) (selField w) (allField w) (bField w)
  | .pvrate => .pvrate (idxField w) (selField w) (allField w)
  | .pvint => .pvint (idxField w) (selField w) (allField w)
  | .pfq => .pfq (idxField w) (selField w) (subField w)
  | .pqry => .pqry (idxField w) (selField w)

/-- The checks of Decode on the fields with undefined values (30_encoding.md R122). -/
def checkFields (i : Instr) : Except DecodeError Instr :=
  match i with
  | .cfgw creg => if cregDefined creg then .ok i else .error .undefinedCreg
  | .cfgr creg => if cregDefined creg then .ok i else .error .undefinedCreg
  | .pfq _ _ sub => if subDefined sub then .ok i else .error .undefinedSub
  | _ => .ok i

/-- Decode (30_encoding.md R122): total on every word, and reading no state. -/
def decode (w : Word) : Except DecodeError Instr :=
  match Opcode.ofNumber (opField w) with
  | none => .error .undefinedOpcode
  | some op => if w &&& op.mask = op.matchWord then checkFields (op.assemble w) else .error .mustBeZero

/-- The instruction the decoder reads from the low `nbits` bits of `w`. A command is one word (30_encoding.md R110), so it
has no later word and no byte order of its own (20_memory.md R85). -/
def decodeTableWord (nbits w : Nat) : Option Instr :=
  match decode (BitVec.ofNat 32 (w % 2 ^ nbits)) with
  | .ok i => some i
  | .error _ => none

/-! The encoder, format by format (30_encoding.md R112) -/

def bitOf (b : Bool) : BitVec 1 := BitVec.ofBool b

/-- `oooooo 0000000000 0000 0000 000000 0 0` -/
def formatN (op : Opcode) : Word := op.number ++ (0 : BitVec 26)

/-- `oooooo 00 cccccccc 0000 0000 000000 0 0` -/
def formatC (op : Opcode) (creg : BitVec 8) : Word := op.number ++ (0 : BitVec 2) ++ creg ++ (0 : BitVec 16)

/-- `oooooo iiiiiiiiii 0000 0000 000000 0 b` -/
def formatK (op : Opcode) (idx : CodeField) (b : Bool) : Word := op.number ++ idx ++ (0 : BitVec 15) ++ bitOf b

/-- `oooooo iiiiiiiiii ssss 0000 000000 a b` -/
def formatP (op : Opcode) (idx : CodeField) (sel : BitVec 4) (all b : Bool) : Word :=
  op.number ++ idx ++ sel ++ (0 : BitVec 4) ++ (0 : BitVec 6) ++ bitOf all ++ bitOf b

/-- `oooooo iiiiiiiiii ssss uuuu 000000 a b` -/
def formatF (op : Opcode) (idx : CodeField) (sel sub : BitVec 4) (all b : Bool) : Word :=
  op.number ++ idx ++ sel ++ sub ++ (0 : BitVec 6) ++ bitOf all ++ bitOf b

/-- The opcode of a command. -/
def Instr.opcode : Instr → Opcode
  | .nop => .nop
  | .reset => .reset
  | .build => .build
  | .clrst => .clrst
  | .cfgw _ => .cfgw
  | .cfgr _ => .cfgr
  | .setkey _ _ => .setkey
  | .next => .next
  | .keyq _ => .keyq
  | .pact _ _ _ => .pact
  | .pvol _ _ => .pvol
  | .patk _ _ => .patk
  | .pdec _ _ => .pdec
  | .psus _ _ => .psus
  | .prel _ _ => .prel
  | .pftype _ _ _ _ => .pftype
  | .pvrate _ _ _ => .pvrate
  | .pvint _ _ _ => .pvint
  | .pfq _ _ _ => .pfq
  | .pqry _ _ => .pqry

/-- The word of a command (30_encoding.md R112, R121). -/
def encode : Instr → Word
  | .nop => formatN .nop
  | .reset => formatN .reset
  | .build => formatN .build
  | .clrst => formatN .clrst
  | .cfgw creg => formatC .cfgw creg
  | .cfgr creg => formatC .cfgr creg
  | .setkey idx b => formatK .setkey idx b
  | .next => formatN .next
  | .keyq idx => formatK .keyq idx false
  | .pact idx all b => formatP .pact idx 0 all b
  | .pvol idx all => formatP .pvol idx 0 all false
  | .patk idx all => formatP .patk idx 0 all false
  | .pdec idx all => formatP .pdec idx 0 all false
  | .psus idx all => formatP .psus idx 0 all false
  | .prel idx all => formatP .prel idx 0 all false
  | .pftype idx sel all b => formatF .pftype idx sel 0 all b
  | .pvrate idx sel all => formatF .pvrate idx sel 0 all false
  | .pvint idx sel all => formatF .pvint idx sel 0 all false
  | .pfq idx sel sub => formatF .pfq idx sel sub false false
  | .pqry idx sel => formatP .pqry idx sel false false

end Sys2Proof
end

