-- ==== Sys2Proof/Config.lean ====
section
/-! DEFINITION. What an implementation of the PSC fixes and the spec leaves open (00_scope.md R8, 93_implementation_defined.md
U2, U3), and the free values of the numeric cases that lie outside the domains the spec states. Every constant here is
without a body: nothing can be proved of its value. The properties the spec does give SIN and PITCH are put on them in
Machine/Platform.lean. -/

namespace Sys2Proof.Config

/-- The sine unit as manufactured, before the properties S1 to S3 of 00_scope.md R13 are put on it
(log entry 5). -/
opaque rawSin : F64 → F64

/-- The pipe tuning function as manufactured, before the finiteness of 00_scope.md R14 is put on it
(log entry 6). -/
opaque rawPitch : Int → F64

/-- The binary64 operations that can give a NaN. -/
inductive NaNSource where
  | addition
  | multiplication
  | division
  | remainder
deriving DecidableEq, Repr

/-- The bits of a NaN result, which no rule of the spec states and no run reaches (10_state.md R52, 60_exceptions.md
R338; log entry 7). -/
opaque nanBits : NaNSource → F64 → F64 → F64

/-- `ceil` of a value that is not finite, which 00_scope.md R12 does not state and no run reaches (log entry 8). -/
opaque ceilOfNonFinite : F64 → Int

end Sys2Proof.Config
end

