-- ==== Sys2Proof/Machine/Float64.lean ====
section
/-! DEFINITION. The numeric primitives of 00_scope.md R12: IEEE-754 binary64 with rounding to nearest, ties to even,
subnormals kept.

Every finite binary64 value is an integer multiple of 2^-1074. So a finite value is read as an exact integer count of
that unit, the exact result is computed on integers, and ONE operation (`roundMag`) narrows it. -/

namespace Sys2Proof.F64

/-- +0.0 -/
def zero : F64 := 0x0000000000000000#64
/-- 1.0 -/
def one : F64 := 0x3FF0000000000000#64
/-- -1.0 -/
def minusOne : F64 := 0xBFF0000000000000#64
/-- 8.0, the drawbar normalisation divisor (00_scope.md R6). -/
def eight : F64 := 0x4020000000000000#64
/-- 60.0, DURATION_MAX (00_scope.md R6). -/
def sixty : F64 := 0x404E000000000000#64
/-- TWO_PI (00_scope.md R6). -/
def twoPi : F64 := 0x401921FB54442D18#64

/-- The sign bit. -/
def sign (x : F64) : Bool := x.msb

/-- The encoding without its sign bit. -/
def mag (x : F64) : Nat := x.toNat % 2 ^ 63

/-- The magnitude bits of an infinity. -/
def infMag : Nat := 0x7FF0000000000000

def isNaN (x : F64) : Bool := decide (infMag < mag x)
def isInf (x : F64) : Bool := decide (mag x = infMag)
def isFinite (x : F64) : Bool := decide (mag x < infMag)

/-- A value from its sign and its magnitude bits. -/
def ofMag (negative : Bool) (m : Nat) : F64 := BitVec.ofNat 64 (if negative then 2 ^ 63 + m else m)

/-- `|x|` clears the sign bit (00_scope.md R12). -/
def abs (x : F64) : F64 := ofMag false (mag x)

/-- `-x` turns the sign bit over. -/
def neg (x : F64) : F64 := ofMag (!sign x) (mag x)

/-- The magnitude of a finite value, counted in units of 2^-1074, from its magnitude bits. -/
def unitsOfMag (m : Nat) : Nat :=
  if m / 2 ^ 52 = 0 then m else (2 ^ 52 + m % 2 ^ 52) * 2 ^ (m / 2 ^ 52 - 1)

/-- The magnitude of a finite value, counted in units of 2^-1074. -/
def units (x : F64) : Nat := unitsOfMag (mag x)

/-- A finite value, counted in units of 2^-1074. -/
def value (x : F64) : Int := if sign x then -(units x : Int) else units x

/-- The integer nearest to `p / d`, the even one of two that are equally near. -/
def nearestEven (p d : Nat) : Nat :=
  if 2 * (p % d) < d then p / d
  else if d < 2 * (p % d) then p / d + 1
  else p / d + p / d % 2

/-- The magnitude bits of the binary64 value nearest to `p / d` units of 2^-1074, ties to even; an infinity where
that overflows. With `e` the exponent step of the binade, the value lies on the grid of `2^e` units, and the encoding
is the rounded count of grid steps plus `e` exponent steps. -/
def roundMag (p d : Nat) : Nat :=
  let e := Nat.log2 (p / d) - 52
  min (e * 2 ^ 52 + nearestEven p (d * 2 ^ e)) infMag

/-- One unit of value 1.0 in units of 2^-1074. -/
def oneUnits : Nat := 2 ^ 1074

/-- A NaN result: some quiet NaN, its sign and payload free (log entry 7). -/
def someNaN (source : Config.NaNSource) (a b : F64) : F64 :=
  Config.nanBits source a b ||| 0x7FF8000000000000#64

/-- The binary64 sum, rounded once (00_scope.md R12). A sum that is exactly zero is +0.0, but -0.0 where both addends are
negative zeros. -/
def add (a b : F64) : F64 :=
  if isNaN a || isNaN b then someNaN .addition a b
  else if isInf a then
    if isInf b && (sign a != sign b) then someNaN .addition a b else a
  else if isInf b then b
  else
    let exact := value a + value b
    if exact = 0 then ofMag (sign a && sign b) 0
    else ofMag (decide (exact < 0)) (roundMag exact.natAbs 1)

/-- The binary64 difference, rounded once. -/
def sub (a b : F64) : F64 := add a (neg b)

/-- The binary64 product, rounded once. -/
def mul (a b : F64) : F64 :=
  if isNaN a || isNaN b then someNaN .multiplication a b
  else if isInf a || isInf b then
    if units a = 0 || units b = 0 then someNaN .multiplication a b
    else ofMag (sign a != sign b) infMag
  else ofMag (sign a != sign b) (roundMag (units a * units b) oneUnits)

/-- The binary64 quotient, rounded once; a finite value divided by a zero gives the IEEE default, an infinity
(60_exceptions.md R338). -/
def div (a b : F64) : F64 :=
  if isNaN a || isNaN b then someNaN .division a b
  else if isInf a then
    if isInf b then someNaN .division a b else ofMag (sign a != sign b) infMag
  else if isInf b then ofMag (sign a != sign b) 0
  else if units b = 0 then
    if units a = 0 then someNaN .division a b else ofMag (sign a != sign b) infMag
  else ofMag (sign a != sign b) (roundMag (units a * oneUnits) (units b))

/-- The place of a value on the line of all values: the magnitude bits with the sign, so that both zeros are one
place and an infinity lies beyond every finite value. -/
def rank (x : F64) : Int := if sign x then -(mag x : Int) else mag x

/-- IEEE `a <= b`. -/
def le (a b : F64) : Bool := !isNaN a && !isNaN b && decide (rank a ≤ rank b)

/-- IEEE `a < b`. -/
def lt (a b : F64) : Bool := !isNaN a && !isNaN b && decide (rank a < rank b)

/-- IEEE `a = b`. -/
def eq (a b : F64) : Bool := !isNaN a && !isNaN b && decide (rank a = rank b)

/-- `clamp(x, lo, hi)` (00_scope.md R12). -/
def clamp (x lo hi : F64) : F64 := if le x lo then lo else if le hi x then hi else x

/-- `sat01(x)` (00_scope.md R12). -/
def sat01 (x : F64) : F64 := clamp x zero one

/-- `min(a, b)` (00_scope.md R12). -/
def min (a b : F64) : F64 := if le a b then a else b

/-- `fmod(x, y)` (00_scope.md R12): the exact remainder, for finite `x >= 0` and `y > 0`. Outside that domain, which
no run reaches, the result is a free NaN (log entry 8). -/
def fmod (x y : F64) : F64 :=
  if isFinite x && isFinite y && le zero x && lt zero y then ofMag false (roundMag (units x % units y) 1)
  else someNaN .remainder x y

/-- `ceil(x)`, the least integer at or above a finite `x` (00_scope.md R12). -/
def ceil (x : F64) : Int :=
  if isFinite x then -((-value x) / (oneUnits : Int)) else Config.ceilOfNonFinite x

/-- The binary64 value nearest to an integer. -/
def ofInt (n : Int) : F64 := ofMag (decide (n < 0)) (roundMag (n.natAbs * oneUnits) 1)

end Sys2Proof.F64
end

