-- ==== Sys2Proof/Machine/Platform.lean ====
section
/-! DEFINITION. The two functions fixed at manufacture, SIN and PITCH (00_scope.md R8), with the properties the spec lets a
model assume of them and no others. The synthesis operations take them as an argument. -/

namespace Sys2Proof.Machine

/-- The model-level parameters that are functions (00_scope.md R8). -/
structure Platform where
  /-- SIN (00_scope.md R13) -/
  sin : F64 → F64
  /-- PITCH (00_scope.md R14) -/
  pitch : Int → F64

/-- SIN with S1, S2 and S3 of 00_scope.md R13 put on a raw function; S4 holds since it is a function. A raw function that has
the three properties is left as it is, so every SIN the spec admits is met (DEDUCED, log entry 5). -/
def admissibleSine (raw : F64 → F64) (x : F64) : F64 :=
  if x = F64.zero then F64.zero
  else if F64.isFinite x && !F64.le (F64.abs (raw x)) F64.one then F64.zero
  else raw x

/-- PITCH with the finiteness of 00_scope.md R14 put on a raw function, on -512..511 only. A raw function that is finite
there is left as it is (DEDUCED, log entry 6). -/
def admissiblePitch (raw : Int → F64) (c : Int) : F64 :=
  if -512 ≤ c ∧ c ≤ 511 ∧ F64.isFinite (raw c) = false then F64.zero else raw c

/-- The platform of the machine: SIN and PITCH as manufactured, of which only the properties of R13 and R14 are known. -/
def platform : Platform where
  sin := admissibleSine Config.rawSin
  pitch := admissiblePitch Config.rawPitch

end Sys2Proof.Machine
end

