-- ==== Sys2Proof/Machine/Registers.lean ====
section
/-! DEFINITION. The configuration register file CREG (10_state.md R40, R41): its registers, their numbers, stored ranges and
reset values, and the operations that read and write them. -/

namespace Sys2Proof.Machine

/-- The configuration registers of type f64, CREG 0x00 to 0x09 (10_state.md R40). -/
inductive F64Reg where
  | sampleRate
  | epsilon
  | negligible
  | maxFrequency
  | smoothAlpha
  | audibleThreshold
  | organAttack
  | organDecay
  | organSustain
  | organRelease
deriving DecidableEq, Repr

/-- The configuration registers of type int, CREG 0x0A to 0x2F (10_state.md R40). -/
inductive IntReg where
  | ndraw
  | nratio
  | pipeLo
  | pipeHi
  | envDecayPoll
  | filterSlots
  | drawbar (i : Fin 16)
  | offset (i : Fin 16)
deriving DecidableEq, Repr

/-- A configuration register. -/
inductive Creg where
  | f64 (r : F64Reg)
  | int (r : IntReg)
deriving DecidableEq, Repr

/-- The register a CREG number names; none for the undefined numbers 0x30 to 0xFF (10_state.md R40, 30_encoding.md R124). -/
def Creg.ofNumber (n : BitVec 8) : Option Creg :=
  match n.toNat with
  | 0x00 => some (.f64 .sampleRate)
  | 0x01 => some (.f64 .epsilon)
  | 0x02 => some (.f64 .negligible)
  | 0x03 => some (.f64 .maxFrequency)
  | 0x04 => some (.f64 .smoothAlpha)
  | 0x05 => some (.f64 .audibleThreshold)
  | 0x06 => some (.f64 .organAttack)
  | 0x07 => some (.f64 .organDecay)
  | 0x08 => some (.f64 .organSustain)
  | 0x09 => some (.f64 .organRelease)
  | 0x0A => some (.int .ndraw)
  | 0x0B => some (.int .nratio)
  | 0x0C => some (.int .pipeLo)
  | 0x0D => some (.int .pipeHi)
  | 0x0E => some (.int .envDecayPoll)
  | 0x0F => some (.int .filterSlots)
  | k =>
    if k / 16 = 1 then some (.int (.drawbar (Fin.ofNat 16 k)))
    else if k / 16 = 2 then some (.int (.offset (Fin.ofNat 16 k)))
    else none

/-- The CREG number of a register (10_state.md R40). -/
def Creg.number : Creg → BitVec 8
  | .f64 .sampleRate => 0x00
  | .f64 .epsilon => 0x01
  | .f64 .negligible => 0x02
  | .f64 .maxFrequency => 0x03
  | .f64 .smoothAlpha => 0x04
  | .f64 .audibleThreshold => 0x05
  | .f64 .organAttack => 0x06
  | .f64 .organDecay => 0x07
  | .f64 .organSustain => 0x08
  | .f64 .organRelease => 0x09
  | .int .ndraw => 0x0A
  | .int .nratio => 0x0B
  | .int .pipeLo => 0x0C
  | .int .pipeHi => 0x0D
  | .int .envDecayPoll => 0x0E
  | .int .filterSlots => 0x0F
  | .int (.drawbar i) => BitVec.ofNat 8 (0x10 + i.val)
  | .int (.offset i) => BitVec.ofNat 8 (0x20 + i.val)

/-- The least stored value of an f64 register (10_state.md R40). -/
def F64Reg.lo : F64Reg → F64
  | .sampleRate => F64.one
  | _ => F64.zero

/-- The greatest stored value of an f64 register (10_state.md R40). -/
def F64Reg.hi : F64Reg → F64
  | .sampleRate => 0x41F0000000000000#64    -- 4294967296.0
  | .maxFrequency => 0x4340000000000000#64  -- 9007199254740992.0
  | .organAttack | .organDecay | .organRelease => F64.sixty
  | .epsilon | .negligible | .smoothAlpha | .audibleThreshold | .organSustain => F64.one

/-- The least stored value of an int register (10_state.md R40). -/
def IntReg.lo : IntReg → Int
  | .pipeLo | .pipeHi => -512
  | .offset _ => -1024
  | .ndraw | .nratio | .envDecayPoll | .filterSlots | .drawbar _ => 0

/-- The greatest stored value of an int register (10_state.md R40). -/
def IntReg.hi : IntReg → Int
  | .ndraw | .nratio | .filterSlots => 16
  | .pipeLo | .pipeHi => 511
  | .envDecayPoll => 1
  | .drawbar _ => 8
  | .offset _ => 1024

/-- What CFGW stores for an operand of an f64 register (10_state.md R41, 44_control.md R283). -/
def F64Reg.stored (r : F64Reg) (v : F64) : F64 := F64.clamp v r.lo r.hi

/-- What CFGW stores for an operand of an int register: any nonzero ENV_DECAY_POLL is 1, every other register is clamped
(10_state.md R41, 44_control.md R283). -/
def IntReg.stored (r : IntReg) (n : Int) : Int :=
  if r = .envDecayPoll then (if n = 0 then 0 else 1)
  else if n ≤ r.lo then r.lo else if r.hi ≤ n then r.hi else n

/-- The configuration register file (10_state.md R40). -/
structure CregFile where
  sampleRate : F64
  epsilon : F64
  negligible : F64
  maxFrequency : F64
  smoothAlpha : F64
  audibleThreshold : F64
  organAttack : F64
  organDecay : F64
  organSustain : F64
  organRelease : F64
  ndraw : Int
  nratio : Int
  pipeLo : Int
  pipeHi : Int
  envDecayPoll : Int
  filterSlots : Int
  drawbar : Vector Int 16
  offset : Vector Int 16
deriving DecidableEq, Repr

/-- The reset values of the configuration registers (10_state.md R40). -/
def CregFile.reset : CregFile where
  sampleRate := 0x40E5888000000000#64       -- 44100.0
  epsilon := 0x3F00000000000000#64          -- 2^-15
  negligible := 0x3EB0000000000000#64       -- 2^-20
  maxFrequency := 0x40D3880000000000#64     -- 20000.0
  smoothAlpha := 0x3F70000000000000#64      -- 2^-8
  audibleThreshold := 0x3FC0000000000000#64 -- 0.125
  organAttack := F64.zero
  organDecay := F64.zero
  organSustain := F64.one
  organRelease := F64.zero
  ndraw := 9
  nratio := 9
  pipeLo := -12
  pipeHi := 163
  envDecayPoll := 0
  filterSlots := 1
  drawbar := #v[0, 0, 8, 0, 0, 0, 0, 0, 0, 0, 0, 0, 0, 0, 0, 0]
  offset := #v[-12, 7, 0, 12, 19, 24, 28, 31, 36, 0, 0, 0, 0, 0, 0, 0]

/-- The value an f64 register holds. -/
def CregFile.getF64 (f : CregFile) : F64Reg → F64
  | .sampleRate => f.sampleRate
  | .epsilon => f.epsilon
  | .negligible => f.negligible
  | .maxFrequency => f.maxFrequency
  | .smoothAlpha => f.smoothAlpha
  | .audibleThreshold => f.audibleThreshold
  | .organAttack => f.organAttack
  | .organDecay => f.organDecay
  | .organSustain => f.organSustain
  | .organRelease => f.organRelease

/-- Writes an f64 register. -/
def CregFile.setF64 (f : CregFile) (r : F64Reg) (v : F64) : CregFile :=
  match r with
  | .sampleRate => { f with sampleRate := v }
  | .epsilon => { f with epsilon := v }
  | .negligible => { f with negligible := v }
  | .maxFrequency => { f with maxFrequency := v }
  | .smoothAlpha => { f with smoothAlpha := v }
  | .audibleThreshold => { f with audibleThreshold := v }
  | .organAttack => { f with organAttack := v }
  | .organDecay => { f with organDecay := v }
  | .organSustain => { f with organSustain := v }
  | .organRelease => { f with organRelease := v }

/-- The value an int register holds. -/
def CregFile.getInt (f : CregFile) : IntReg → Int
  | .ndraw => f.ndraw
  | .nratio => f.nratio
  | .pipeLo => f.pipeLo
  | .pipeHi => f.pipeHi
  | .envDecayPoll => f.envDecayPoll
  | .filterSlots => f.filterSlots
  | .drawbar i => f.drawbar[i]
  | .offset i => f.offset[i]

/-- Writes an int register. -/
def CregFile.setInt (f : CregFile) (r : IntReg) (n : Int) : CregFile :=
  match r with
  | .ndraw => { f with ndraw := n }
  | .nratio => { f with nratio := n }
  | .pipeLo => { f with pipeLo := n }
  | .pipeHi => { f with pipeHi := n }
  | .envDecayPoll => { f with envDecayPoll := n }
  | .filterSlots => { f with filterSlots := n }
  | .drawbar i => { f with drawbar := f.drawbar.set i n }
  | .offset i => { f with offset := f.offset.set i n }

/-- What CFGR gives for a register, as RESULT holds it: binary64 bits or a two's-complement int64 (30_encoding.md R120). -/
def CregFile.read64 (f : CregFile) : Creg → Word64
  | .f64 r => f.getF64 r
  | .int r => BitVec.ofInt 64 (f.getInt r)

end Sys2Proof.Machine
end

