-- ==== Sys2Proof/Machine/State.lean ====
section
/-! DEFINITION. The state of the PSC as plain data: every piece of state 10_state.md names (R31 to R49), and three fields of
the model's own for the host and the platform. -/

namespace Sys2Proof.Machine

/-- The state of an oscillator: a pipe's, or a filter slot's LFO (10_state.md R44). -/
structure Oscillator where
  /-- phase angle, in [0.0, TWO_PI) -/
  theta : F64
  /-- phase increment -/
  dtheta : F64
  /-- target frequency, in [0.0, MAX_FREQUENCY] -/
  freq : F64
  /-- target volume, in [0.0, 1.0] -/
  vol : F64
  /-- the requested state -/
  active : Bool
  /-- wasActiveLastSample -/
  wasActive : Bool
  /-- persistUntilZero -/
  persist : Bool
deriving DecidableEq, Repr

/-- The state of an envelope (10_state.md R46). -/
structure Envelope where
  /-- A, attackDuration, in [0.0, 60.0] seconds -/
  attack : F64
  /-- D, decayDuration, in [0.0, 60.0] seconds -/
  decay : F64
  /-- S, sustainLevel, in [0.0, 1.0] -/
  sustain : F64
  /-- R, releaseDuration, in [0.0, 60.0] seconds -/
  release : F64
  /-- envelopeVolume, in [0.0, 1.0] -/
  vol : F64
  /-- envelopeVelocity, per sample; never a NaN -/
  vel : F64
  /-- decay countdown; 0 means no decay scheduled -/
  count : Nat
  /-- smoothed target volume -/
  smooth : F64
  /-- target volume, in [0.0, 1.0] -/
  target : F64
  /-- the latched value of the last activate the envelope obeyed (41_envelope.md R171) -/
  gate : Bool
deriving DecidableEq, Repr

/-- The two filter types (42_filter.md R210). -/
inductive FilterType where
  | identity
  | vibrato
deriving DecidableEq, Repr

/-- The state of a filter slot (10_state.md R47). -/
structure Slot where
  type : FilterType
  /-- vibrato intensity in Hz, any finite value -/
  intensity : F64
  /-- the slot's always-running oscillator, whose frequency is the vibrato rate -/
  lfo : Oscillator
deriving DecidableEq, Repr

/-- One pipe: its fixed frequency, oscillator, envelope and filter slots, and its entry of the mixer's accumulator
table (10_state.md R43 to R49). -/
structure Pipe where
  /-- PITCH(c), written once by BUILD (10_state.md R48) -/
  freq0 : F64
  osc : Oscillator
  env : Envelope
  /-- the filter slots in registration order (10_state.md R47) -/
  slots : List Slot
  /-- ACC[c], the unsaturated running sum (10_state.md R49) -/
  acc : F64
deriving DecidableEq, Repr

/-- What exists only between a successful BUILD and the next reset: the pipe table and the mixer's tables (10_state.md R42,
R43, R49). Pipe `P[c]` is `pipes[c - pipeLo]`, so the codes with a pipe are `pipeLo` up to `pipeLo` plus the number of
pipes minus one (log entry 10). -/
structure Organ where
  /-- PIPE_LO as BUILD read it -/
  pipeLo : Int
  /-- FILTER_SLOTS as BUILD read it -/
  filterSlots : Nat
  /-- DV[i] for i < NDRAW (10_state.md R42) -/
  dv : List F64
  /-- the compensation scalar (10_state.md R42) -/
  comp : F64
  /-- KEY, one entry for each 10-bit code field (10_state.md R49) -/
  key : Vector Bool 1024
  /-- the pipes in increasing code order -/
  pipes : List Pipe
deriving DecidableEq, Repr

/-- PHASE (10_state.md R33), with the tables that exist only in phase RUN (10_state.md R43): a pipe exists exactly in RUN, and
PHASE value 3 is never held (log entry 9). -/
inductive Phase where
  | config
  | run (organ : Organ)
  | failed
deriving DecidableEq, Repr

/-- The error kinds (60_exceptions.md R321). -/
inductive ErrorKind where
  /-- the command word fails Decode -/
  | illegal
  /-- the command is not admitted in the current phase -/
  | phase
  /-- no such pipe or filter slot -/
  | range
  /-- a binary64 operand is a NaN or an infinity -/
  | nonfinite
  /-- BUILD found a configuration mismatch -/
  | cfg
deriving DecidableEq, Repr

/-- The error fields of STATUS (10_state.md R34). -/
structure ErrorRecord where
  eIllegal : Bool
  ePhase : Bool
  eRange : Bool
  eNonfinite : Bool
  eCfg : Bool
  /-- FIRST_ERR; none is code 0 -/
  firstErr : Option ErrorKind
deriving DecidableEq, Repr

/-- What the environment does to the block: a bus access of a host (20_memory.md R81, R95), or a hardware reset
(70_reset_and_hazards.md R360). An access names its bus address, its width in bytes and, for a write, its data. -/
inductive HostInput where
  | read (addr : Nat) (bytes : Nat)
  | write (addr : Nat) (bytes : Nat) (data : Nat)
  | hardwareReset
deriving DecidableEq, Repr

/-- The state of the block. -/
structure State where
  /-- OPD (10_state.md R38) -/
  opd : Word64
  /-- RESULT (10_state.md R35) -/
  result : Word64
  /-- SAMPLE_INDEX (10_state.md R36) -/
  sampleIndex : Word64
  /-- the error fields of STATUS (10_state.md R34) -/
  errors : ErrorRecord
  /-- the configuration registers (10_state.md R40) -/
  creg : CregFile
  /-- PHASE and, in RUN, the organ (10_state.md R33, R43) -/
  phase : Phase
  /-- the model's own: PSC_BASE divided by 0x40 (20_memory.md R82; log entry 3) -/
  pscBlock : Nat
  /-- the model's own: what the host has sent and the bus has not yet delivered, oldest first (20_memory.md R91;
  log entry 1) -/
  inputs : List HostInput
  /-- the model's own: the data the last admitted read returned to the host (20_memory.md R95; log entry 2) -/
  reply : Option Word
deriving DecidableEq, Repr

/-- The faults of the machine: none. The block takes no trap and never stops accepting commands because of an error
(60_exceptions.md R320, R330); every failing command is a next state with its error recorded in STATUS. -/
inductive Fault where
deriving DecidableEq, Repr

/-- The refusals of the machine. -/
inductive Refusal where
  /-- Raised by an arm of `exec` for an instruction without a meaning. Safe: the machine stops. No arm raises it. -/
  | notModelled (mnemonic : String)
  /-- Raised by the bus for an access that is not 32 bits wide at PSC_BASE + 4k with k < 16: what the block does with one is
  unspecified and a model refuses it (20_memory.md R86, 93_implementation_defined.md U1). Safe: the machine stops. -/
  | accessNotAdmitted
deriving DecidableEq, Repr

/-- No error recorded (10_state.md R34). -/
def ErrorRecord.empty : ErrorRecord where
  eIllegal := false
  ePhase := false
  eRange := false
  eNonfinite := false
  eCfg := false
  firstErr := none

/-- The state after a hardware reset (70_reset_and_hazards.md R360). The last three fields are the model's own, their values
DESIGN CHOICES (log entries 1, 2 and 3). -/
def State.reset : State where
  opd := 0
  result := 0
  sampleIndex := 0
  errors := ErrorRecord.empty
  creg := CregFile.reset
  phase := .config
  pscBlock := 0
  inputs := []
  reply := none

end Sys2Proof.Machine
end

