-- ==== Sys2Proof/Machine/Ops.lean ====
section
/-! DEFINITION. The named operations over the state: error recording (the only thing that happens in place of an
exception, 60_exceptions.md R320), reset, the phase checks, and access to the pipe, key and slot tables. -/

namespace Sys2Proof.Machine

/-- The outcome of a command. -/
abbrev Result := Host.Outcome State Fault Refusal

/-! Errors -/

/-- RecordError (60_exceptions.md R323): the kind's sticky bit is set, and FIRST_ERR is written if it was 0. -/
def ErrorRecord.record (e : ErrorKind) (r : ErrorRecord) : ErrorRecord where
  eIllegal := r.eIllegal || e == .illegal
  ePhase := r.ePhase || e == .phase
  eRange := r.eRange || e == .range
  eNonfinite := r.eNonfinite || e == .nonfinite
  eCfg := r.eCfg || e == .cfg
  firstErr := match r.firstErr with
    | none => some e
    | some first => some first

/-- What CLRST leaves of the error record (44_control.md R282). -/
def ErrorRecord.clearNonFatal (r : ErrorRecord) : ErrorRecord where
  eIllegal := false
  ePhase := false
  eRange := false
  eNonfinite := false
  eCfg := r.eCfg
  firstErr := if r.eCfg then some .cfg else none

/-- RecordError on the state (60_exceptions.md R323). -/
def State.recordError (e : ErrorKind) (s : State) : State := { s with errors := s.errors.record e }

/-- `raise CmdError(E)` (60_exceptions.md R323): the error is recorded and the command ends with nothing else changed (R322). -/
def raise (e : ErrorKind) (s : State) : Result := .next (s.recordError e)

/-! Reset -/

/-- ResetState() (70_reset_and_hazards.md R360), the same for a hardware reset and for RESET. PSC_BASE belongs to the platform,
and what the host has still to deliver and what it was last given back belong to the host: the block's reset leaves them
(log entry 11). -/
def resetState (s : State) : State :=
  { State.reset with pscBlock := s.pscBlock, inputs := s.inputs, reply := s.reply }

/-! Named updates -/

/-- Writes RESULT (10_state.md R35). -/
def State.setResult (v : Word64) (s : State) : State := { s with result := v }

/-- Writes PHASE. -/
def State.setPhase (p : Phase) (s : State) : State := { s with phase := p }

/-- Replaces the organ, staying in phase RUN. -/
def State.setOrgan (o : Organ) (s : State) : State := s.setPhase (.run o)

/-- Writes the configuration register file. -/
def State.setCreg (f : CregFile) (s : State) : State := { s with creg := f }

/-- Writes SAMPLE_INDEX (10_state.md R36). -/
def State.setSampleIndex (n : Word64) (s : State) : State := { s with sampleIndex := n }

/-- Writes the error record. -/
def State.setErrors (r : ErrorRecord) (s : State) : State := { s with errors := r }

/-! Phase admission (60_exceptions.md R325) -/

/-- Runs a command that only phase CONFIG admits. -/
def inConfig (s : State) (body : Result) : Result :=
  match s.phase with
  | .config => body
  | .run _ => raise .phase s
  | .failed => raise .phase s

/-- Runs a command that only phase RUN admits. -/
def inRun (s : State) (body : Organ → Result) : Result :=
  match s.phase with
  | .config => raise .phase s
  | .run o => body o
  | .failed => raise .phase s

/-! The pipe table (10_state.md R43) -/

/-- PIPE_HI as BUILD read it. -/
def Organ.pipeHi (o : Organ) : Int := o.pipeLo + o.pipes.length - 1

/-- `PIPE_LO <= c <= PIPE_HI`. -/
def Organ.hasPipe (o : Organ) (c : Int) : Bool := decide (o.pipeLo ≤ c) && decide (c ≤ o.pipeHi)

/-- The place of pipe `P[c]` in the table. -/
def Organ.place (o : Organ) (c : Int) : Nat := (c - o.pipeLo).toNat

/-- `P[c]`, where there is one. -/
def Organ.pipe? (o : Organ) (c : Int) : Option Pipe := if o.hasPipe c then o.pipes[o.place c]? else none

/-- Rewrites `P[c]`; nothing where there is no such pipe. -/
def Organ.modifyPipe (o : Organ) (c : Int) (f : Pipe → Pipe) : Organ :=
  if o.hasPipe c then { o with pipes := o.pipes.modify (o.place c) f } else o

/-- Rewrites every pipe. -/
def Organ.mapPipes (o : Organ) (f : Pipe → Pipe) : Organ := { o with pipes := o.pipes.map f }

/-- Rewrites one filter slot of a pipe. -/
def Pipe.modifySlot (p : Pipe) (k : Nat) (f : Slot → Slot) : Pipe := { p with slots := p.slots.modify k f }

/-- Rewrites a pipe's envelope. -/
def Pipe.modifyEnv (p : Pipe) (f : Envelope → Envelope) : Pipe := { p with env := f p.env }

/-! The key table (10_state.md R49) -/

/-- `KEY[k]`. -/
def Organ.keyPressed (o : Organ) (k : CodeField) : Bool := o.key[k.toNat]'k.isLt

/-- `KEY[k] <- pressed`. -/
def Organ.setKey (o : Organ) (k : CodeField) (pressed : Bool) : Organ :=
  { o with key := o.key.set k.toNat pressed k.isLt }

end Sys2Proof.Machine
end

