-- ==== Sys2Proof/Machine/Flags.lean ====
section
/-! DEFINITION. The words composed of single bits: STATUS (10_state.md R34), the oscillator mode (10_state.md R45) and the
FLAGS word of the queries (44_control.md R288). No command sets a flag as a side effect of a result (10_state.md R34). -/

namespace Sys2Proof.Machine

/-- A bit placed at a position of a word. -/
def bitAt (position : Nat) (b : Bool) : Nat := if b then 2 ^ position else 0

/-! STATUS -/

/-- The code of an error kind: its FIRST_ERR value (60_exceptions.md R321). -/
def ErrorKind.code : ErrorKind → Nat
  | .illegal => 1
  | .phase => 2
  | .range => 3
  | .nonfinite => 4
  | .cfg => 5

/-- The value of the FIRST_ERR field (10_state.md R34). -/
def ErrorRecord.firstErrCode (r : ErrorRecord) : Nat :=
  match r.firstErr with
  | none => 0
  | some e => e.code

/-- The value of the PHASE field (10_state.md R33). -/
def Phase.code : Phase → Nat
  | .config => 0
  | .run _ => 1
  | .failed => 2

/-- STATUS as the host reads it: PHASE in bits 1:0, the error bits in 12:8, FIRST_ERR in 23:16; every other bit reads 0
(10_state.md R34). -/
def State.status (s : State) : Word :=
  BitVec.ofNat 32 (s.phase.code + bitAt 8 s.errors.eIllegal + bitAt 9 s.errors.ePhase + bitAt 10 s.errors.eRange
    + bitAt 11 s.errors.eNonfinite + bitAt 12 s.errors.eCfg + s.errors.firstErrCode * 2 ^ 16)

/-! FLAGS -/

/-- The three states of an oscillator (10_state.md R45). -/
inductive OscMode where
  | silent
  | active
  | releasingToZero
deriving DecidableEq, Repr

/-- `mode(o)` (10_state.md R45). -/
def Oscillator.mode (o : Oscillator) : OscMode :=
  if o.persist then .releasingToZero else if o.wasActive then .active else .silent

/-- The value of the MODE field (44_control.md R288). -/
def OscMode.code : OscMode → Nat
  | .silent => 0
  | .active => 1
  | .releasingToZero => 2

/-- The FLAGS word of an oscillator and a gate bit (44_control.md R288). -/
def flagsWord (o : Oscillator) (gate : Bool) : Word64 :=
  BitVec.ofNat 64 (o.mode.code + bitAt 2 gate + bitAt 3 o.active + bitAt 4 o.wasActive + bitAt 5 o.persist)

end Sys2Proof.Machine
end

