-- ==== Sys2Proof/Machine/Operands.lean ====
section
/-! DEFINITION. The operand forms of the commands: the fields of the command word and OPD (30_encoding.md R113 to R120), with
the checks of 60_exceptions.md R326 in their order, and the selectors of the queries (44_control.md R287, R289). -/

namespace Sys2Proof.Machine

/-- `IDX = sext_10(w[25:16])` (30_encoding.md R113). -/
def codeOf (idx : CodeField) : Int := idx.toInt

/-- OPD read as int64 (00_scope.md R9). -/
def State.opdInt (s : State) : Int := s.opd.toInt

/-- The pipes a command names: with ALL = 1 every pipe, and IDX is ignored; with ALL = 0 pipe IDX (30_encoding.md R114, R116). -/
inductive PipeOperand where
  | every
  | one (c : Int)
deriving DecidableEq, Repr

/-- The pipe operand of formats P and F. -/
def pipeOperand (idx : CodeField) (all : Bool) : PipeOperand := if all then .every else .one (codeOf idx)

/-- A pipe operand names pipes that exist: the first RANGE check (60_exceptions.md R326). -/
def Organ.admits (o : Organ) : PipeOperand → Bool
  | .every => true
  | .one c => o.hasPipe c

/-- Applies a single-pipe rule to every selected pipe, in increasing code order (30_encoding.md R114). -/
def Organ.apply (o : Organ) (sel : PipeOperand) (f : Pipe → Pipe) : Organ :=
  match sel with
  | .every => o.mapPipes f
  | .one c => o.modifyPipe c f

/-- The RANGE check on the pipe operand (60_exceptions.md R326). -/
def checkPipe (o : Organ) (sel : PipeOperand) (s : State) (body : Result) : Result :=
  if o.admits sel then body else raise .range s

/-- The RANGE check on the slot operand, whatever ALL is (30_encoding.md R117, 60_exceptions.md R326). -/
def checkSlot (o : Organ) (k : BitVec 4) (s : State) (body : Result) : Result :=
  if k.toNat < o.filterSlots then body else raise .range s

/-- The NONFINITE check on OPD read as f64 (60_exceptions.md R326). -/
def checkFinite (s : State) (body : F64 → Result) : Result :=
  if F64.isFinite s.opd then body s.opd else raise .nonfinite s

/-- A format P command without an operand value: PHASE, then RANGE, then the rule on the selected pipes. -/
def pipeCommand (idx : CodeField) (all : Bool) (f : Pipe → Pipe) (s : State) : Result :=
  inRun s fun o =>
    checkPipe o (pipeOperand idx all) s (.next (s.setOrgan (o.apply (pipeOperand idx all) f)))

/-- A format P command that reads OPD as f64: PHASE, RANGE, NONFINITE, then the rule on the selected pipes. -/
def pipeValueCommand (idx : CodeField) (all : Bool) (f : F64 → Pipe → Pipe) (s : State) : Result :=
  inRun s fun o =>
    checkPipe o (pipeOperand idx all) s <|
      checkFinite s fun v => .next (s.setOrgan (o.apply (pipeOperand idx all) (f v)))

/-- A format F command without an operand value: PHASE, RANGE on the pipe, RANGE on the slot, then the rule on that slot of
the selected pipes. -/
def slotCommand (idx : CodeField) (sel : BitVec 4) (all : Bool) (f : Slot → Slot) (s : State) : Result :=
  inRun s fun o =>
    checkPipe o (pipeOperand idx all) s <|
      checkSlot o sel s (.next (s.setOrgan (o.apply (pipeOperand idx all) fun p => p.modifySlot sel.toNat f)))

/-- A format F command that reads OPD as f64: PHASE, RANGE on the pipe, RANGE on the slot, NONFINITE, then the rule on
that slot of the selected pipes. -/
def slotValueCommand (idx : CodeField) (sel : BitVec 4) (all : Bool) (f : F64 → Slot → Slot) (s : State) : Result :=
  inRun s fun o =>
    checkPipe o (pipeOperand idx all) s <|
      checkSlot o sel s <|
        checkFinite s fun v =>
          .next (s.setOrgan (o.apply (pipeOperand idx all) fun p => p.modifySlot sel.toNat (f v)))

/-! Query selectors -/

/-- The fields PQRY reads (44_control.md R287). -/
inductive PipeField where
  | acc | envVol | envVel | smooth | target | theta | dtheta | oscFreq | oscVol | flags | decayCount | pipeFreq
  | attack | decay | sustain | release
deriving DecidableEq, Repr

/-- The field a PQRY selector names; every SEL value is defined (44_control.md R287). -/
def PipeField.ofSel (sel : BitVec 4) : PipeField :=
  match sel.toNat with
  | 0 => .acc
  | 1 => .envVol
  | 2 => .envVel
  | 3 => .smooth
  | 4 => .target
  | 5 => .theta
  | 6 => .dtheta
  | 7 => .oscFreq
  | 8 => .oscVol
  | 9 => .flags
  | 10 => .decayCount
  | 11 => .pipeFreq
  | 12 => .attack
  | 13 => .decay
  | 14 => .sustain
  | _ => .release

/-- The value PQRY gives for a field (44_control.md R287). -/
def Pipe.field (p : Pipe) : PipeField → Word64
  | .acc => p.acc
  | .envVol => p.env.vol
  | .envVel => p.env.vel
  | .smooth => p.env.smooth
  | .target => p.env.target
  | .theta => p.osc.theta
  | .dtheta => p.osc.dtheta
  | .oscFreq => p.osc.freq
  | .oscVol => p.osc.vol
  | .flags => flagsWord p.osc p.env.gate
  | .decayCount => BitVec.ofNat 64 p.env.count
  | .pipeFreq => p.freq0
  | .attack => p.env.attack
  | .decay => p.env.decay
  | .sustain => p.env.sustain
  | .release => p.env.release

/-- The fields PFQ reads (44_control.md R289). -/
inductive SlotField where
  | type | rate | intensity | lfoTheta | lfoDtheta | lfoFlags
deriving DecidableEq, Repr

/-- The field a PFQ selector names; SUB 6 to 15 name none (44_control.md R289, 30_encoding.md R124). -/
def SlotField.ofSub (sub : BitVec 4) : Option SlotField :=
  match sub.toNat with
  | 0 => some .type
  | 1 => some .rate
  | 2 => some .intensity
  | 3 => some .lfoTheta
  | 4 => some .lfoDtheta
  | 5 => some .lfoFlags
  | _ => none

/-- The code of a filter type (42_filter.md R210). -/
def FilterType.code : FilterType → Nat
  | .identity => 0
  | .vibrato => 1

/-- The filter type bit B names (42_filter.md R220). -/
def FilterType.ofBit (b : Bool) : FilterType := if b then .vibrato else .identity

/-- The value PFQ gives for a field (44_control.md R289). -/
def Slot.field (q : Slot) : SlotField → Word64
  | .type => BitVec.ofNat 64 q.type.code
  | .rate => q.lfo.freq
  | .intensity => q.intensity
  | .lfoTheta => q.lfo.theta
  | .lfoDtheta => q.lfo.dtheta
  | .lfoFlags => flagsWord q.lfo false

end Sys2Proof.Machine
end

