-- ==== Sys2Proof/Machine/Oscillator.lean ====
section
/-! DEFINITION. The phase-continuous oscillator (40_oscillator.md R140 to R154). It has no command of its own; the envelope, the
filter slots and BUILD call its operations. -/

namespace Sys2Proof.Machine

/-- OscActivate (40_oscillator.md R141). -/
def oscActivate (b : Bool) (o : Oscillator) : Oscillator := { o with active := b }

/-- DeltaTheta: the product first, then the quotient, each rounded (40_oscillator.md R142). -/
def deltaTheta (f : CregFile) (x : F64) : F64 := F64.div (F64.mul F64.twoPi x) f.sampleRate

/-- OscFrequency: the frequency is clamped to [0, MAX_FREQUENCY] and the phase is kept (40_oscillator.md R142). -/
def oscFrequency (f : CregFile) (x : F64) (o : Oscillator) : Oscillator :=
  let freq := F64.clamp x F64.zero f.maxFrequency
  { o with freq := freq, dtheta := deltaTheta f freq }

/-- OscVolume (40_oscillator.md R143). -/
def oscVolume (v : F64) (o : Oscillator) : Oscillator := { o with vol := F64.sat01 v }

/-- Advance: one rounded sum, then the exact remainder (40_oscillator.md R151). -/
def advance (theta dtheta : F64) : F64 := F64.fmod (F64.add theta dtheta) F64.twoPi

/-- OscNext: the sample and the oscillator after it (40_oscillator.md R144). -/
def oscNext (pf : Platform) (f : CregFile) (o : Oscillator) : F64 × Oscillator :=
  if o.active then
    let theta := if !o.wasActive && !o.persist then F64.zero else o.theta
    (F64.mul o.vol (pf.sin theta),
      { o with persist := false, theta := advance theta o.dtheta, wasActive := true })
  else if o.wasActive || o.persist then
    let sample := F64.mul o.vol (pf.sin o.theta)
    if F64.le f.epsilon (F64.abs sample) then
      (sample, { o with wasActive := false, persist := true, theta := advance o.theta o.dtheta })
    else (F64.zero, { o with wasActive := false, persist := false })
  else (F64.zero, o)

/-- A pipe oscillator at BUILD, before its frequency is set (43_mixer.md R240). -/
def builtPipeOscillator : Oscillator where
  theta := F64.zero
  dtheta := F64.zero
  freq := F64.zero
  vol := F64.zero
  active := false
  wasActive := false
  persist := false

/-- A slot LFO at BUILD (43_mixer.md R240). -/
def builtLfo : Oscillator where
  theta := F64.zero
  dtheta := F64.zero
  freq := F64.zero
  vol := F64.one
  active := true
  wasActive := false
  persist := false

end Sys2Proof.Machine
end

