-- ==== Sys2Proof/Machine/Envelope.lean ====
section
/-! DEFINITION. The ADSR envelope (41_envelope.md R170 to R200): its internal operations, and the commands PACT, PVOL, PATK,
PDEC, PSUS and PREL. -/

namespace Sys2Proof.Machine

/-! Internal operations -/

/-- DecayCheck (41_envelope.md R173); the countdown length is R187. With S = 1.0 the velocity is +0.0, the value of the rule's
formula in binary64 (00_scope.md R12) and of 95_test_vectors.md section 2.3; a parenthesis of R190 says -0.0 there (DEDUCED, log
entry 17). -/
def decayCheck (f : CregFile) (e : Envelope) : Envelope :=
  if F64.le (F64.sub F64.one f.negligible) e.vol && F64.lt f.negligible e.decay && e.count == 0 then
    { e with
      vel := F64.div (F64.sub e.sustain F64.one) (F64.mul e.decay f.sampleRate)
      count := (F64.ceil (F64.mul e.decay f.sampleRate)).toNat }
  else e

/-- EnvActivate(e, true) (41_envelope.md R172). -/
def envActivateOn (f : CregFile) (e : Envelope) : Envelope :=
  if e.gate then decayCheck f e
  else if F64.lt e.attack f.negligible then { e with gate := true, vol := F64.one, vel := F64.zero }
  else { e with gate := true, vel := F64.div F64.one (F64.mul e.attack f.sampleRate) }

/-- EnvActivate(e, false) (41_envelope.md R174). -/
def envActivateOff (f : CregFile) (e : Envelope) : Envelope :=
  if e.gate then
    if F64.lt e.release f.negligible then
      { e with gate := false, count := 0, vol := F64.zero, vel := F64.zero }
    else { e with gate := false, count := 0, vel := F64.div F64.minusOne (F64.mul e.release f.sampleRate) }
  else e

/-- EnvActivate (41_envelope.md R172, R174). -/
def envActivate (f : CregFile) (b : Bool) (e : Envelope) : Envelope :=
  if b then envActivateOn f e else envActivateOff f e

/-- EnvVolume (41_envelope.md R175). -/
def envVolume (v : F64) (e : Envelope) : Envelope := { e with target := F64.sat01 v }

/-- EnvSetA (41_envelope.md R178). -/
def envSetA (x : F64) (e : Envelope) : Envelope := { e with attack := F64.clamp x F64.zero F64.sixty }

/-- EnvSetD (41_envelope.md R178). -/
def envSetD (x : F64) (e : Envelope) : Envelope := { e with decay := F64.clamp x F64.zero F64.sixty }

/-- EnvSetS (41_envelope.md R178). -/
def envSetS (x : F64) (e : Envelope) : Envelope := { e with sustain := F64.sat01 x }

/-- EnvSetR (41_envelope.md R178). -/
def envSetR (x : F64) (e : Envelope) : Envelope := { e with release := F64.clamp x F64.zero F64.sixty }

/-- isActive (41_envelope.md R177). -/
def envIsActive (f : CregFile) (e : Envelope) : Bool := F64.lt f.negligible e.vol

/-- Step 1 of EnvNext: advance the level and saturate it (41_envelope.md R180). -/
def envAdvance (e : Envelope) : Envelope := { e with vol := F64.sat01 (F64.add e.vol e.vel) }

/-- Step 2 of EnvNext: the countdown, which locks the level when it ends (41_envelope.md R180). -/
def envCountdown (e : Envelope) : Envelope :=
  if e.count = 0 then e
  else if e.count = 1 then { e with count := 0, vel := F64.zero }
  else { e with count := e.count - 1 }

/-- Step 3 of EnvNext: one step of the smoothing, three rounded operations (41_envelope.md R191). -/
def envSmooth (f : CregFile) (e : Envelope) : Envelope :=
  { e with smooth := F64.add e.smooth (F64.mul f.smoothAlpha (F64.sub e.target e.smooth)) }

/-- Step 4 of EnvNext: the decay poll mode (41_envelope.md R192). -/
def envPoll (f : CregFile) (e : Envelope) : Envelope :=
  if f.envDecayPoll = 1 ∧ e.gate = true then decayCheck f e else e

/-- Steps 1 to 4 of EnvNext: the envelope's own part of a sample step (41_envelope.md R180). -/
def envStep (f : CregFile) (e : Envelope) : Envelope := envPoll f (envSmooth f (envCountdown (envAdvance e)))

/-- The volume a sample step gives the oscillator (41_envelope.md R181). -/
def envOutputVolume (e : Envelope) : F64 := F64.clamp (F64.mul e.vol e.smooth) F64.zero e.target

/-- Step 5 of EnvNext: the oscillator is driven by the envelope (41_envelope.md R180). -/
def envDrive (f : CregFile) (e : Envelope) (o : Oscillator) : Oscillator :=
  oscVolume (envOutputVolume e) (oscActivate (envIsActive f e) o)

/-- EnvNext: the sample, the envelope and the oscillator after it (41_envelope.md R180). -/
def envNext (pf : Platform) (f : CregFile) (e : Envelope) (o : Oscillator) : F64 × Envelope × Oscillator :=
  let e' := envStep f e
  let r := oscNext pf f (envDrive f e' o)
  (r.1, e', r.2)

/-- An envelope at BUILD (43_mixer.md R240). -/
def builtEnvelope (f : CregFile) : Envelope where
  attack := f.organAttack
  decay := f.organDecay
  sustain := f.organSustain
  release := f.organRelease
  vol := F64.zero
  vel := F64.zero
  count := 0
  smooth := F64.zero
  target := F64.zero
  gate := false

/-! Commands -/

/-- PACT (41_envelope.md R182). -/
def execPact (idx : CodeField) (all b : Bool) (s : State) : Result :=
  pipeCommand idx all (fun p => p.modifyEnv (envActivate s.creg b)) s

/-- PVOL (41_envelope.md R183). -/
def execPvol (idx : CodeField) (all : Bool) (s : State) : Result :=
  pipeValueCommand idx all (fun v p => p.modifyEnv (envVolume v)) s

/-- PATK (41_envelope.md R184). -/
def execPatk (idx : CodeField) (all : Bool) (s : State) : Result :=
  pipeValueCommand idx all (fun x p => p.modifyEnv (envSetA x)) s

/-- PDEC (41_envelope.md R185). -/
def execPdec (idx : CodeField) (all : Bool) (s : State) : Result :=
  pipeValueCommand idx all (fun x p => p.modifyEnv (envSetD x)) s

/-- PSUS (41_envelope.md R186). -/
def execPsus (idx : CodeField) (all : Bool) (s : State) : Result :=
  pipeValueCommand idx all (fun x p => p.modifyEnv (envSetS x)) s

/-- PREL (41_envelope.md R188). -/
def execPrel (idx : CodeField) (all : Bool) (s : State) : Result :=
  pipeValueCommand idx all (fun x p => p.modifyEnv (envSetR x)) s

end Sys2Proof.Machine
end

