-- ==== Sys2Proof/Machine/Filter.lean ====
section
/-! DEFINITION. The filter chain and the vibrato filter (42_filter.md R210 to R222): its internal operations, and the commands
PFTYPE, PVRATE and PVINT. -/

namespace Sys2Proof.Machine

/-! Internal operations -/

/-- FiltModF: the frequency and the slot after it; the LFO runs in both types (42_filter.md R211, R212). -/
def filtModF (pf : Platform) (f : CregFile) (q : Slot) (x : F64) : F64 × Slot :=
  let r := oscNext pf f q.lfo
  let q' := { q with lfo := r.2 }
  match q.type with
  | .identity => (x, q')
  | .vibrato => (F64.add x (F64.mul r.1 q.intensity), q')

/-- FiltModA: both types give the amplitude back (42_filter.md R214). -/
def filtModA (_q : Slot) (a : F64) : F64 := a

/-- ChainModF: the slots in registration order (42_filter.md R215). -/
def chainModF (pf : Platform) (f : CregFile) : List Slot → F64 → F64 × List Slot
  | [], x => (x, [])
  | q :: rest, x =>
    let r := filtModF pf f q x
    let t := chainModF pf f rest r.1
    (t.1, r.2 :: t.2)

/-- ChainModA: the slots in registration order (42_filter.md R215). -/
def chainModA : List Slot → F64 → F64
  | [], a => a
  | q :: rest, a => chainModA rest (filtModA q a)

/-- A filter slot at BUILD (43_mixer.md R240). -/
def builtSlot : Slot where
  type := .identity
  intensity := F64.zero
  lfo := builtLfo

/-! Commands -/

/-- PFTYPE (42_filter.md R220). -/
def execPftype (idx : CodeField) (sel : BitVec 4) (all b : Bool) (s : State) : Result :=
  slotCommand idx sel all (fun q => { q with type := FilterType.ofBit b }) s

/-- PVRATE (42_filter.md R221). -/
def execPvrate (idx : CodeField) (sel : BitVec 4) (all : Bool) (s : State) : Result :=
  slotValueCommand idx sel all (fun x q => { q with lfo := oscFrequency s.creg x q.lfo }) s

/-- PVINT (42_filter.md R222). -/
def execPvint (idx : CodeField) (sel : BitVec 4) (all : Bool) (s : State) : Result :=
  slotValueCommand idx sel all (fun x q => { q with intensity := x }) s

end Sys2Proof.Machine
end

