-- ==== Sys2Proof/Machine/Mixer.lean ====
section
/-! DEFINITION. Pipes, the harmonic mixer and the summation (43_mixer.md R240 to R260): the commands BUILD, SETKEY and
NEXT. -/

namespace Sys2Proof.Machine

/-! BUILD -/

/-- DV: the first NDRAW drawbars, each divided by 8.0 (10_state.md R42). -/
def drawbarVolumes (f : CregFile) : List F64 :=
  (f.drawbar.toList.take f.ndraw.toNat).map fun d => F64.div (F64.ofInt d) F64.eight

/-- CompensationOf (43_mixer.md R242). -/
def compensationOf (dv : List F64) : F64 :=
  let sigma := dv.foldl F64.add F64.zero
  if F64.eq sigma F64.zero then F64.one else F64.min F64.one (F64.div F64.one sigma)

/-- One pipe as BUILD makes it (43_mixer.md R240). -/
def builtPipe (pf : Platform) (f : CregFile) (c : Int) : Pipe where
  freq0 := pf.pitch c
  osc := oscFrequency f (pf.pitch c) builtPipeOscillator
  env := builtEnvelope f
  slots := List.replicate f.filterSlots.toNat builtSlot
  acc := F64.zero

/-- The codes PIPE_LO to PIPE_HI, increasing. -/
def pipeCodes (f : CregFile) : List Int :=
  (List.range (f.pipeHi - f.pipeLo + 1).toNat).map fun (n : Nat) => f.pipeLo + (n : Int)

/-- The organ BUILD makes (43_mixer.md R240). -/
def builtOrgan (pf : Platform) (f : CregFile) : Organ where
  pipeLo := f.pipeLo
  filterSlots := f.filterSlots.toNat
  dv := drawbarVolumes f
  comp := compensationOf (drawbarVolumes f)
  key := Vector.replicate 1024 false
  pipes := (pipeCodes f).map (builtPipe pf f)

/-- The configuration mismatches of BUILD (43_mixer.md R241). -/
def configMismatch (f : CregFile) : Bool := decide (f.ndraw ≠ f.nratio) || decide (f.pipeHi < f.pipeLo)

/-- BUILD in phase CONFIG (43_mixer.md R240). -/
def buildCommand (pf : Platform) (s : State) : State :=
  if configMismatch s.creg then (s.recordError .cfg).setPhase .failed
  else (s.setSampleIndex 0).setOrgan (builtOrgan pf s.creg)

/-- BUILD (43_mixer.md R240). -/
def execBuild (s : State) : Result := inConfig s (.next (buildCommand platform s))

/-! SETKEY -/

/-- One drawbar's effect on the pipe it reaches (43_mixer.md R250). -/
def drawbarEffect (f : CregFile) (pressed : Bool) (dv : F64) (p : Pipe) : Pipe :=
  let acc := if pressed then F64.add p.acc dv else F64.sub p.acc dv
  let v := F64.sat01 acc
  if F64.lt v f.audibleThreshold then { p with acc := acc, env := envActivateOff f p.env }
  else { p with acc := acc, env := envActivateOn f (envVolume v p.env) }

/-- SETKEY's loop over the drawbars in increasing order, each given as its volume and its offset; a target without a
pipe is skipped (43_mixer.md R250, R251). -/
def drawbarLoop (f : CregFile) (pressed : Bool) (k : Int) : List (F64 × Int) → Organ → Organ
  | [], o => o
  | (dv, offset) :: rest, o =>
    drawbarLoop f pressed k rest (o.modifyPipe (k + offset) (drawbarEffect f pressed dv))

/-- The drawbars of the organ, each as its volume DV[i] and its offset OFFSET[i], for i < NDRAW. -/
def Organ.drawbars (o : Organ) (f : CregFile) : List (F64 × Int) := o.dv.zip f.offset.toList

/-- SETKEY on the organ (43_mixer.md R250). -/
def keyTransition (f : CregFile) (k : CodeField) (pressed : Bool) (o : Organ) : Organ :=
  if o.keyPressed k = pressed then o
  else drawbarLoop f pressed (codeOf k) (o.drawbars f) (o.setKey k pressed)

/-- SETKEY (43_mixer.md R250). -/
def execSetkey (idx : CodeField) (b : Bool) (s : State) : Result :=
  inRun s fun o => .next (s.setOrgan (keyTransition s.creg idx b o))

/-! NEXT -/

/-- PipeNext: the sample and the pipe after it (43_mixer.md R256). -/
def pipeNext (pf : Platform) (f : CregFile) (p : Pipe) : F64 × Pipe :=
  let chain := chainModF pf f p.slots p.freq0
  let r := envNext pf f p.env (oscFrequency f chain.1 p.osc)
  (chainModA chain.2 r.1, { p with osc := r.2.2, env := r.2.1, slots := chain.2 })

/-- The sum of the pipes' samples in increasing code order from +0.0, one rounded addition each, times COMP
(43_mixer.md R255). -/
def mixedSample (comp : F64) (samples : List F64) : F64 := F64.mul (samples.foldl F64.add F64.zero) comp

/-- The sample of a sample step (43_mixer.md R255). -/
def Organ.sample (pf : Platform) (f : CregFile) (o : Organ) : F64 :=
  mixedSample o.comp (o.pipes.map fun p => (pipeNext pf f p).1)

/-- The organ after a sample step (43_mixer.md R255). -/
def Organ.afterSample (pf : Platform) (f : CregFile) (o : Organ) : Organ :=
  o.mapPipes fun p => (pipeNext pf f p).2

/-- NEXT in phase RUN (43_mixer.md R255). -/
def nextCommand (pf : Platform) (o : Organ) (s : State) : State :=
  ((s.setOrgan (o.afterSample pf s.creg)).setResult (o.sample pf s.creg)).setSampleIndex (s.sampleIndex + 1)

/-- NEXT (43_mixer.md R255). -/
def execNext (s : State) : Result := inRun s fun o => .next (nextCommand platform o s)

end Sys2Proof.Machine
end

