-- ==== Sys2Proof/Machine/Control.lean ====
section
/-! DEFINITION. The control and configuration commands NOP, RESET, CLRST, CFGW and CFGR (44_control.md R280 to R284). -/

namespace Sys2Proof.Machine

/-- NOP (44_control.md R280). -/
def execNop (s : State) : Result := .next s

/-- RESET (44_control.md R281). -/
def execReset (s : State) : Result := .next (resetState s)

/-- CLRST (44_control.md R282). -/
def execClrst (s : State) : Result := .next (s.setErrors s.errors.clearNonFatal)

/-- CFGW of one register (44_control.md R283). -/
def writeCreg (s : State) : Creg → Result
  | .f64 r => checkFinite s fun v => .next (s.setCreg (s.creg.setF64 r (r.stored v)))
  | .int r => .next (s.setCreg (s.creg.setInt r (r.stored s.opdInt)))

/-- CFGW (44_control.md R283). An undefined CREG number fails Decode; it comes first of the checks (60_exceptions.md R326;
log entry 12). -/
def execCfgw (number : BitVec 8) (s : State) : Result :=
  match Creg.ofNumber number with
  | none => raise .illegal s
  | some r => inConfig s (writeCreg s r)

/-- CFGR (44_control.md R284). An undefined CREG number fails Decode (log entry 12). -/
def execCfgr (number : BitVec 8) (s : State) : Result :=
  match Creg.ofNumber number with
  | none => raise .illegal s
  | some r => .next (s.setResult (s.creg.read64 r))

end Sys2Proof.Machine
end

