-- ==== Sys2Proof/Machine/Query.lean ====
section
/-! DEFINITION. The query commands KEYQ, PQRY and PFQ (44_control.md R285 to R289). They write only RESULT (R286). -/

namespace Sys2Proof.Machine

/-- KEYQ (44_control.md R285). -/
def execKeyq (idx : CodeField) (s : State) : Result :=
  inRun s fun o => .next (s.setResult (if o.keyPressed idx then 1 else 0))

/-- PQRY (44_control.md R287). -/
def execPqry (idx : CodeField) (sel : BitVec 4) (s : State) : Result :=
  inRun s fun o =>
    match o.pipe? (codeOf idx) with
    | none => raise .range s
    | some p => .next (s.setResult (p.field (PipeField.ofSel sel)))

/-- PFQ (44_control.md R289). An undefined SUB fails Decode (log entry 12). A slot below FILTER_SLOTS that the pipe lacks,
which no run reaches, is out of range like one above it (log entry 13). -/
def execPfq (idx : CodeField) (sel sub : BitVec 4) (s : State) : Result :=
  match SlotField.ofSub sub with
  | none => raise .illegal s
  | some field =>
    inRun s fun o =>
      match o.pipe? (codeOf idx) with
      | none => raise .range s
      | some p =>
        checkSlot o sel s <|
          match p.slots[sel.toNat]? with
          | none => raise .range s
          | some q => .next (s.setResult (q.field field))

end Sys2Proof.Machine
end

