-- ==== Sys2Proof/Machine/Dispatch.lean ====
section
/-! DEFINITION. The meaning of every command: one arm for each constructor of Instr. -/

namespace Sys2Proof.Machine

def exec (i : Instr) (s : State) : Host.Outcome State Fault Refusal :=
  match i with
  | .nop => Sys2Proof.Machine.execNop s
  | .reset => Sys2Proof.Machine.execReset s
  | .build => Sys2Proof.Machine.execBuild s
  | .clrst => Sys2Proof.Machine.execClrst s
  | .cfgw creg => Sys2Proof.Machine.execCfgw creg s
  | .cfgr creg => Sys2Proof.Machine.execCfgr creg s
  | .setkey idx b => Sys2Proof.Machine.execSetkey idx b s
  | .next => Sys2Proof.Machine.execNext s
  | .keyq idx => Sys2Proof.Machine.execKeyq idx s
  | .pact idx all b => Sys2Proof.Machine.execPact idx all b s
  | .pvol idx all => Sys2Proof.Machine.execPvol idx all s
  | .patk idx all => Sys2Proof.Machine.execPatk idx all s
  | .pdec idx all => Sys2Proof.Machine.execPdec idx all s
  | .psus idx all => Sys2Proof.Machine.execPsus idx all s
  | .prel idx all => Sys2Proof.Machine.execPrel idx all s
  | .pftype idx sel all b => Sys2Proof.Machine.execPftype idx sel all b s
  | .pvrate idx sel all => Sys2Proof.Machine.execPvrate idx sel all s
  | .pvint idx sel all => Sys2Proof.Machine.execPvint idx sel all s
  | .pfq idx sel sub => Sys2Proof.Machine.execPfq idx sel sub s
  | .pqry idx sel => Sys2Proof.Machine.execPqry idx sel s

end Sys2Proof.Machine
end

