-- ==== Sys2Proof/Machine/Bus.lean ====
section
/-! DEFINITION. The register window (20_memory.md R80 to R95): which accesses are admitted, what a read returns, what a write
does, and the execution of a command word written to CMD (60_exceptions.md R324). -/

namespace Sys2Proof.Machine

/-- ExecuteCommand (60_exceptions.md R324): Decode, which may raise ILLEGAL; then the command, whose meaning makes the other
checks of R326. -/
def executeCommand (w : Word) (s : State) : Result :=
  match decode w with
  | .error _ => raise .illegal s
  | .ok i => exec i s

/-- The ID constant (10_state.md R37). -/
def idWord : Word := 0x50534307

/-- The words of the register window (20_memory.md R83). -/
inductive WindowWord where
  | opdLo | opdHi | cmd | status | resultLo | resultHi | sidxLo | sidxHi | id | reserved
deriving DecidableEq, Repr

/-- The word at offset 4k of the window (20_memory.md R83). -/
def WindowWord.ofIndex (k : Nat) : WindowWord :=
  match k with
  | 0 => .opdLo
  | 1 => .opdHi
  | 2 => .cmd
  | 3 => .status
  | 4 => .resultLo
  | 5 => .resultHi
  | 6 => .sidxLo
  | 7 => .sidxHi
  | 8 => .id
  | _ => .reserved

/-- The low half of a 64-bit register (20_memory.md R84). -/
def lowWord (v : Word64) : Word := v.extractLsb' 0 32

/-- The high half of a 64-bit register (20_memory.md R84). -/
def highWord (v : Word64) : Word := v.extractLsb' 32 32

/-- What a read of a window word returns (20_memory.md R83). -/
def State.windowRead (s : State) : WindowWord → Word
  | .opdLo => lowWord s.opd
  | .opdHi => highWord s.opd
  | .cmd => 0
  | .status => s.status
  | .resultLo => lowWord s.result
  | .resultHi => highWord s.result
  | .sidxLo => lowWord s.sampleIndex
  | .sidxHi => highWord s.sampleIndex
  | .id => idWord
  | .reserved => 0

/-- What a write to a window word does (20_memory.md R83, R84). -/
def State.windowWrite (s : State) (word : WindowWord) (data : Word) : Result :=
  match word with
  | .opdLo => .next { s with opd := highWord s.opd ++ data }
  | .opdHi => .next { s with opd := data ++ lowWord s.opd }
  | .cmd => executeCommand data s
  | .status | .resultLo | .resultHi | .sidxLo | .sidxHi | .id | .reserved => .next s

/-- PSC_BASE, a multiple of 0x40 (20_memory.md R82). -/
def State.pscBase (s : State) : Nat := 0x40 * s.pscBlock

/-- The window word an access reaches: admitted accesses are 4 bytes wide at PSC_BASE + 4k with k < 16 (20_memory.md R81,
R86). -/
def State.admitted (s : State) (addr bytes : Nat) : Option WindowWord :=
  if bytes = 4 ∧ s.pscBase ≤ addr ∧ addr < s.pscBase + 0x40 ∧ (addr - s.pscBase) % 4 = 0 then
    some (WindowWord.ofIndex ((addr - s.pscBase) / 4))
  else none

/-- The block's answer to one input of its environment. -/
def deliver (input : HostInput) (s : State) : Result :=
  match input with
  | .hardwareReset => .next (resetState s)
  | .read addr bytes =>
    match s.admitted addr bytes with
    | none => .refused .accessNotAdmitted
    | some word => .next { s with reply := some (s.windowRead word) }
  | .write addr bytes data =>
    match s.admitted addr bytes with
    | none => .refused .accessNotAdmitted
    | some word => s.windowWrite word (BitVec.ofNat 32 data)

/-- The bus address of CMD (20_memory.md R83). -/
def State.cmdAddress (s : State) : Nat := s.pscBase + 0x08

/-- The host's write of a command word to CMD (10_state.md R39). -/
def State.commandWrite (s : State) (w : Word) : HostInput := .write s.cmdAddress 4 w.toNat

end Sys2Proof.Machine
end

