-- ==== Sys2Proof/Machine/Step.lean ====
section
/-! DEFINITION. One step of the machine: the bus delivers the host's oldest input, and the block answers it completely before
the next (20_memory.md R90, R91). With nothing to deliver the block holds all its state (60_exceptions.md R337). -/

namespace Sys2Proof.Machine

def step (s : State) : Host.Outcome State Fault Refusal :=
  match s.inputs with
  | [] => .next s
  | input :: rest => deliver input { s with inputs := rest }

/-- The state whose next input is the write of the command word to CMD: the only place the block takes a command from
(10_state.md R39; log entry 1). -/
def State.withFetchWord (s : State) (nbits w : Nat) : State :=
  { s with inputs := s.commandWrite (BitVec.ofNat 32 (w % 2 ^ nbits)) :: s.inputs }

end Sys2Proof.Machine
end

