-- ==== Sys2Proof/Machine/Assembly.lean ====
section
/-! DEFINITION. The assembler syntax and the pseudo-instructions (30_encoding.md R130 to R133): a line of text, the line it
stands for, and the host bus writes that line expands to. The host does this; the block sees only the writes. -/

namespace Sys2Proof.Machine

/-! Lines and their expansion -/

/-- A host bus write into the register window, by its offset from PSC_BASE (20_memory.md R83). -/
structure WindowWrite where
  offset : Nat
  data : Word
deriving DecidableEq, Repr

/-- The access a window write is at a platform's PSC_BASE. -/
def WindowWrite.at (w : WindowWrite) (s : State) : HostInput := .write (s.pscBase + w.offset) 4 w.data.toNat

/-- A line of assembly (30_encoding.md R130 to R133). -/
inductive AsmLine where
  /-- a command -/
  | command (i : Instr)
  /-- a command that reads OPD as f64, with a trailing value -/
  | valued (i : Instr) (x : F64)
  /-- a bare command word -/
  | word (w : Word)
  | ldF (x : F64)
  | ldI (n : Int)
  | cfgF64 (r : F64Reg) (x : F64)
  | cfgInt (r : IntReg) (n : Int)
  | noteOn (k : CodeField)
  | noteOff (k : CodeField)
  | event (c : Int)
  | events (cs : List Int)
  | wait (n : Nat)
  | ticks (d samplesPerTick : Nat)
deriving DecidableEq, Repr

/-- The write of a command word to CMD. -/
def cmdWrite (w : Word) : WindowWrite where
  offset := 0x08
  data := w

/-- An int64 operand, where the integer is one (30_encoding.md R131). -/
def int64? (n : Int) : Option Word64 := if -(2 ^ 63) ≤ n ∧ n < 2 ^ 63 then some (BitVec.ofInt 64 n) else none

/-- The two writes that load OPD, low half first (30_encoding.md R131). -/
def opdWrites (v : Word64) : List WindowWrite :=
  [{ offset := 0x00, data := lowWord v }, { offset := 0x04, data := highWord v }]

/-- A code as an IDX field, where it lies in -512..511 (30_encoding.md R111). -/
def codeField (c : Int) : Option CodeField := if -512 ≤ c ∧ c ≤ 511 then some (BitVec.ofInt 10 c) else none

/-- The command EVENT c stands for: the driver's `setKey(|c|, c > 0)` (30_encoding.md R132); none where |c| is no code. -/
def eventCommand (c : Int) : Option Instr := (codeField c.natAbs).map fun k => .setkey k (decide (0 < c))

/-- The writes of a list of events, in list order (30_encoding.md R132). -/
def eventWrites : List Int → Option (List WindowWrite)
  | [] => some []
  | c :: rest =>
    match eventCommand c, eventWrites rest with
    | some i, some ws => some (cmdWrite (encode i) :: ws)
    | _, _ => none

/-- The host bus writes of a line (30_encoding.md R131 to R133); none where an event's code or
an int64 operand cannot be encoded. -/
def AsmLine.expand : AsmLine → Option (List WindowWrite)
  | .command i => some [cmdWrite (encode i)]
  | .valued i x => some (opdWrites x ++ [cmdWrite (encode i)])
  | .word w => some [cmdWrite w]
  | .ldF x => some (opdWrites x)
  | .ldI n => (int64? n).map opdWrites
  | .cfgF64 r x => some (opdWrites x ++ [cmdWrite (encode (.cfgw (Creg.f64 r).number))])
  | .cfgInt r n =>
    (int64? n).map fun v => opdWrites v ++ [cmdWrite (encode (.cfgw (Creg.int r).number))]
  | .noteOn k => some [cmdWrite (encode (.setkey k true))]
  | .noteOff k => some [cmdWrite (encode (.setkey k false))]
  | .event c => eventWrites [c]
  | .events cs => eventWrites cs
  | .wait n => some (List.replicate n (cmdWrite (encode .next)))
  | .ticks d samplesPerTick => some (List.replicate (d * samplesPerTick) (cmdWrite (encode .next)))

/-! Text -/

/-- A piece of a line. -/
abbrev Text := List Char

def isBlank (c : Char) : Bool := c == ' ' || c == '\t'

/-- A piece without its outer blanks. -/
def trimmed (t : Text) : Text := ((t.dropWhile isBlank).reverse.dropWhile isBlank).reverse

/-- The pieces between separators. -/
def splitAtChar (sep : Char) : Text → List Text
  | [] => [[]]
  | c :: rest =>
    match splitAtChar sep rest with
    | [] => [[c]]
    | piece :: pieces => if c == sep then [] :: piece :: pieces else (c :: piece) :: pieces

/-- The value of a digit, in bases up to 16. -/
def digitValue (c : Char) : Option Nat :=
  if '0' ≤ c ∧ c ≤ '9' then some (c.toNat - '0'.toNat)
  else if 'a' ≤ c ∧ c ≤ 'f' then some (c.toNat - 'a'.toNat + 10)
  else if 'A' ≤ c ∧ c ≤ 'F' then some (c.toNat - 'A'.toNat + 10)
  else none

/-- The number a run of digits extends another by. -/
def digitsFrom (base : Nat) : Nat → Text → Option Nat
  | acc, [] => some acc
  | acc, c :: rest =>
    match digitValue c with
    | none => none
    | some d => if d < base then digitsFrom base (acc * base + d) rest else none

/-- A natural number; at least one digit. -/
def natText (base : Nat) (t : Text) : Option Nat := if t.isEmpty then none else digitsFrom base 0 t

/-- A sign, if there is one, and the rest. -/
def signText : Text → Bool × Text
  | '-' :: rest => (true, rest)
  | '+' :: rest => (false, rest)
  | t => (false, t)

/-- A decimal integer, which may be negative (30_encoding.md R130). -/
def intText (t : Text) : Option Int :=
  let (negative, digits) := signText t
  (natText 10 digits).map fun n => if negative then -(n : Int) else n

/-- A hexadecimal number `0x...` (00_scope.md R9). -/
def hexText : Text → Option Nat
  | '0' :: 'x' :: rest => natText 16 rest
  | _ => none

/-- Digits with an optional point: all digits as one number, and how many stand after the point. -/
def pointText (base : Nat) (t : Text) : Option (Nat × Nat) :=
  match splitAtChar '.' t with
  | [whole] => (natText base whole).map fun n => (n, 0)
  | [whole, fraction] => (natText base (whole ++ fraction)).map fun n => (n, fraction.length)
  | _ => none

/-- The binary64 value nearest to `n * base^exponent` (30_encoding.md R131: rounded to binary64 by the assembler). -/
def scaledF64 (negative : Bool) (n base : Nat) (exponent : Int) : F64 :=
  F64.ofMag negative <|
    if 0 ≤ exponent then F64.roundMag (n * base ^ exponent.toNat * F64.oneUnits) 1
    else F64.roundMag (n * F64.oneUnits) (base ^ (-exponent).toNat)

/-- The mantissa and the exponent of a literal, at an exponent mark. -/
def exponentText (mark : Char) (t : Text) : Option (Text × Int) :=
  match splitAtChar mark t with
  | [mantissa] => some (mantissa, 0)
  | [mantissa, exponent] => (intText exponent).map fun e => (mantissa, e)
  | _ => none

/-- A decimal literal. -/
def decimalText (negative : Bool) (t : Text) : Option F64 :=
  match exponentText 'e' t with
  | none => none
  | some (mantissa, e) => (pointText 10 mantissa).map fun (n, k) => scaledF64 negative n 10 (e - k)

/-- A hex-float literal, after its `0x`. -/
def hexFloatText (negative : Bool) (t : Text) : Option F64 :=
  match exponentText 'p' t with
  | none => none
  | some (mantissa, e) => (pointText 16 mantissa).map fun (n, k) => scaledF64 negative n 2 (e - 4 * k)

/-- A binary64 literal: decimal, hex-float, `nan` or `inf` (30_encoding.md R131; the last two as 95_test_vectors.md writes
them). -/
def f64Text (t : Text) : Option F64 :=
  let (negative, rest) := signText t
  if rest = "nan".toList ∨ rest = "NaN".toList then some (0x7FF8000000000000#64)
  else if rest = "inf".toList then some (F64.ofMag negative F64.infMag)
  else
    match rest with
    | '0' :: 'x' :: digits => hexFloatText negative digits
    | _ => decimalText negative rest

/-- `DRAWBAR[i]` or `OFFSET[i]` after its name, with decimal i (30_encoding.md R130). -/
def indexText (t : Text) : Option (Fin 16) :=
  match t with
  | '[' :: rest =>
    if rest.getLast? = some ']' then
      match natText 10 rest.dropLast with
      | none => none
      | some i => if i < 16 then some (Fin.ofNat 16 i) else none
    else none
  | _ => none

/-- What stands after a given beginning. -/
def afterPrefix : Text → Text → Option Text
  | [], t => some t
  | c :: p, d :: t => if c == d then afterPrefix p t else none
  | _ :: _, [] => none

/-- A configuration register by its name (10_state.md R40). -/
def cregNameText (t : Text) : Option Creg :=
  if t = "SAMPLE_RATE".toList then some (.f64 .sampleRate)
  else if t = "EPSILON".toList then some (.f64 .epsilon)
  else if t = "NEGLIGIBLE".toList then some (.f64 .negligible)
  else if t = "MAX_FREQUENCY".toList then some (.f64 .maxFrequency)
  else if t = "SMOOTH_ALPHA".toList then some (.f64 .smoothAlpha)
  else if t = "AUDIBLE_THRESHOLD".toList then some (.f64 .audibleThreshold)
  else if t = "ORGAN_ATTACK".toList then some (.f64 .organAttack)
  else if t = "ORGAN_DECAY".toList then some (.f64 .organDecay)
  else if t = "ORGAN_SUSTAIN".toList then some (.f64 .organSustain)
  else if t = "ORGAN_RELEASE".toList then some (.f64 .organRelease)
  else if t = "NDRAW".toList then some (.int .ndraw)
  else if t = "NRATIO".toList then some (.int .nratio)
  else if t = "PIPE_LO".toList then some (.int .pipeLo)
  else if t = "PIPE_HI".toList then some (.int .pipeHi)
  else if t = "ENV_DECAY_POLL".toList then some (.int .envDecayPoll)
  else if t = "FILTER_SLOTS".toList then some (.int .filterSlots)
  else
    match afterPrefix "DRAWBAR".toList t, afterPrefix "OFFSET".toList t with
    | some rest, _ => (indexText rest).map fun i => .int (.drawbar i)
    | none, some rest => (indexText rest).map fun i => .int (.offset i)
    | none, none => none

/-- A CREG operand: a name or a hex number (30_encoding.md R130). -/
def cregText (t : Text) : Option (BitVec 8) :=
  match hexText t with
  | some n => if n < 0x100 then some (BitVec.ofNat 8 n) else none
  | none => (cregNameText t).map Creg.number

/-- A code operand. -/
def codeText (t : Text) : Option CodeField := (intText t).bind codeField

/-- A pipe operand, a code or `*`, which sets ALL = 1 and IDX = 0 (30_encoding.md R130). -/
def pipeText (t : Text) : Option (CodeField × Bool) :=
  if t = ['*'] then some (0, true) else (codeText t).map fun k => (k, false)

/-- A boolean operand, 0 or 1. -/
def bitText (t : Text) : Option Bool :=
  if t = ['0'] then some false else if t = ['1'] then some true else none

/-- A slot operand, 0 to 15. -/
def slotText (t : Text) : Option (BitVec 4) :=
  (natText 10 t).bind fun n => if n < 16 then some (BitVec.ofNat 4 n) else none

/-- A filter type by its name. -/
def filterTypeText (t : Text) : Option Bool :=
  if t = "IDENTITY".toList then some false else if t = "VIBRATO".toList then some true else none

/-- The place of a name in a list of names. -/
def placeOf (t : Text) : List String → Option Nat
  | [] => none
  | name :: rest => if t = name.toList then some 0 else (placeOf t rest).map (· + 1)

/-- The names of the PQRY selectors, 0 first (44_control.md R287). -/
def pipeFieldNames : List String :=
  ["ACC", "ENV_VOL", "ENV_VEL", "SMOOTH", "TARGET", "THETA", "DTHETA", "OSC_FREQ", "OSC_VOL", "FLAGS", "DECAY_COUNT",
    "PIPE_FREQ", "ATTACK", "DECAY", "SUSTAIN", "RELEASE"]

/-- The names of the PFQ selectors, 0 first (44_control.md R289). -/
def slotFieldNames : List String := ["TYPE", "RATE", "INTENSITY", "LFO_THETA", "LFO_DTHETA", "LFO_FLAGS"]

/-- A selector by its name in a list of names. -/
def selectorText (names : List String) (t : Text) : Option (BitVec 4) := (placeOf t names).map (BitVec.ofNat 4)

/-- A command that reads OPD as f64, with or without its trailing value (30_encoding.md R131). -/
def maybeValued (i : Instr) : List Text → Option AsmLine
  | [] => some (.command i)
  | [x] => (f64Text x).map fun v => .valued i v
  | _ => none

/-- The line `CFG creg, value` (30_encoding.md R131). DESIGN CHOICE (log entry 15): a hex CREG number that names no register, 0x30
to 0xFF, gives no line here, since the type of the value is not known; `CFGW` alone takes such a number, and the block then
records ILLEGAL. -/
def cfgLine (t value : Text) : Option AsmLine :=
  match (cregText t).bind Creg.ofNumber with
  | some (.f64 r) => (f64Text value).map fun x => .cfgF64 r x
  | some (.int r) => (intText value).map fun n => .cfgInt r n
  | none => none

/-- The integers of a list of pieces. -/
def intTexts : List Text → Option (List Int)
  | [] => some []
  | t :: rest =>
    match intText t, intTexts rest with
    | some n, some ns => some (n :: ns)
    | _, _ => none

/-- The format P commands with an f64 operand, by mnemonic. -/
def pipeValueMnemonic (mnemonic : Text) (idx : CodeField) (all : Bool) : Option Instr :=
  if mnemonic = "PVOL".toList then some (.pvol idx all)
  else if mnemonic = "PATK".toList then some (.patk idx all)
  else if mnemonic = "PDEC".toList then some (.pdec idx all)
  else if mnemonic = "PSUS".toList then some (.psus idx all)
  else if mnemonic = "PREL".toList then some (.prel idx all)
  else none

/-- The format F commands with an f64 operand, by mnemonic. -/
def slotValueMnemonic (mnemonic : Text) (idx : CodeField) (sel : BitVec 4) (all : Bool) : Option Instr :=
  if mnemonic = "PVRATE".toList then some (.pvrate idx sel all)
  else if mnemonic = "PVINT".toList then some (.pvint idx sel all)
  else none

/-- A line without operands. -/
def bareLine (mnemonic : Text) : Option AsmLine :=
  if mnemonic = "NOP".toList then some (.command .nop)
  else if mnemonic = "RESET".toList then some (.command .reset)
  else if mnemonic = "BUILD".toList then some (.command .build)
  else if mnemonic = "CLRST".toList then some (.command .clrst)
  else if mnemonic = "NEXT".toList then some (.command .next)
  else none

/-- A line with one operand, but for the commands with an f64 operand. -/
def unaryLine (mnemonic a : Text) : Option AsmLine :=
  if mnemonic = "CFGW".toList then (cregText a).map fun r => .command (.cfgw r)
  else if mnemonic = "CFGR".toList then (cregText a).map fun r => .command (.cfgr r)
  else if mnemonic = "KEYQ".toList then (codeText a).map fun k => .command (.keyq k)
  else if mnemonic = "LD.F".toList then (f64Text a).map .ldF
  else if mnemonic = "LD.I".toList then (intText a).map .ldI
  else if mnemonic = "NOTEON".toList then (codeText a).map .noteOn
  else if mnemonic = "NOTEOFF".toList then (codeText a).map .noteOff
  else if mnemonic = "EVENT".toList then (intText a).map .event
  else if mnemonic = "WAIT".toList then (natText 10 a).map .wait
  else if mnemonic = ".word".toList then
    (hexText a).bind fun n => if n < 2 ^ 32 then some (.word (BitVec.ofNat 32 n)) else none
  else none

/-- A line with two operands, but for the commands with an f64 operand. -/
def binaryLine (mnemonic a b : Text) : Option AsmLine :=
  if mnemonic = "SETKEY".toList then
    (codeText a).bind fun k => (bitText b).map fun v => .command (.setkey k v)
  else if mnemonic = "PACT".toList then
    (pipeText a).bind fun p => (bitText b).map fun v => .command (.pact p.1 p.2 v)
  else if mnemonic = "PQRY".toList then
    (codeText a).bind fun k => (selectorText pipeFieldNames b).map fun f => .command (.pqry k f)
  else if mnemonic = "CFG".toList then cfgLine a b
  else if mnemonic = "TICKS".toList then
    (natText 10 a).bind fun d => (natText 10 b).map fun n => .ticks d n
  else none

/-- A line with three operands, but for the commands with an f64 operand. -/
def ternaryLine (mnemonic a b c : Text) : Option AsmLine :=
  if mnemonic = "PFTYPE".toList then
    (pipeText a).bind fun p => (slotText b).bind fun k => (filterTypeText c).map fun t => .command (.pftype p.1 k p.2 t)
  else if mnemonic = "PFQ".toList then
    (codeText a).bind fun p => (slotText b).bind fun k =>
      (selectorText slotFieldNames c).map fun f => .command (.pfq p k f)
  else none

/-- A command with an f64 operand, with or without its trailing value (30_encoding.md R131). DESIGN CHOICE (log entry 15): the
seven commands the rule lists by name take one; `CFGW` of an f64 register, which also reads OPD as f64, does not, and `CFG` is
the line that loads its value. -/
def valuedLine (mnemonic : Text) (operands : List Text) : Option AsmLine :=
  match operands with
  | [] => none
  | a :: rest =>
    (pipeText a).bind fun p =>
      match pipeValueMnemonic mnemonic p.1 p.2 with
      | some i => maybeValued i rest
      | none =>
        match rest with
        | [] => none
        | b :: value =>
          (slotText b).bind fun k => (slotValueMnemonic mnemonic p.1 k p.2).bind fun i => maybeValued i value

/-- The line a mnemonic and its operands stand for. -/
def lineOf (mnemonic : Text) (operands : List Text) : Option AsmLine :=
  if mnemonic = "EVENTS".toList then (intTexts operands).map .events
  else
    match operands with
    | [] => bareLine mnemonic
    | [a] => unaryLine mnemonic a <|> valuedLine mnemonic operands
    | [a, b] => binaryLine mnemonic a b <|> valuedLine mnemonic operands
    | [a, b, c] => ternaryLine mnemonic a b c <|> valuedLine mnemonic operands
    | _ => none

/-- The line a text stands for: a mnemonic, then operands separated by commas; `;` starts a comment
(30_encoding.md R130). DESIGN CHOICE (log entry 15): a blank line, and a line with only a comment, stands for no line, as a line
in error does. -/
def parseLine (t : Text) : Option AsmLine :=
  let code := trimmed (t.takeWhile fun c => c != ';')
  let mnemonic := code.takeWhile fun c => !isBlank c
  let rest := trimmed (code.dropWhile fun c => !isBlank c)
  lineOf mnemonic (if rest.isEmpty then [] else (splitAtChar ',' rest).map trimmed)

/-- The host bus writes a line of text expands to. -/
def assemble (line : String) : Option (List WindowWrite) := (parseLine line.toList).bind AsmLine.expand

end Sys2Proof.Machine
end

