-- ==== Sys2Proof/Safety.lean ====
section
/-! DEFINITION. What a good state of the block is (10_state.md R40 to R52), and the vocabulary the statements use. -/

namespace Sys2Proof.Machine

/-- A binary64 value in [lo, hi] whose sign bit is 0: it is no NaN, and it is not -0.0. -/
structure Within (lo hi x : F64) : Prop where
  ge : F64.le lo x = true
  le : F64.le x hi = true
  sign : F64.sign x = false

/-- Every configuration register lies in its stored range (10_state.md R40, R41). -/
structure CregOk (f : CregFile) : Prop where
  f64 : ∀ r : F64Reg, Within r.lo r.hi (f.getF64 r)
  int : ∀ r : IntReg, r.lo ≤ f.getInt r ∧ f.getInt r ≤ r.hi

/-- The greatest phase increment, `(TWO_PI * 2^53) / 1.0` (40_oscillator.md R151). -/
def dthetaMax : F64 := 0x436921FB54442D18#64

/-- The legal values of an oscillator (10_state.md R44) with the invariants I1 and I5 (10_state.md R50). -/
structure OscillatorOk (f : CregFile) (o : Oscillator) : Prop where
  /-- I1: `0 <= theta < TWO_PI` -/
  theta : Within F64.zero F64.twoPi o.theta ∧ F64.lt o.theta F64.twoPi = true
  /-- the bound is 40_oscillator.md R151's; 10_state.md R44 says only nonnegative and finite -/
  dtheta : Within F64.zero dthetaMax o.dtheta
  freq : Within F64.zero f.maxFrequency o.freq
  vol : Within F64.zero F64.one o.vol
  /-- I5: `not (persist and wasActive)` -/
  flags : ¬(o.persist = true ∧ o.wasActive = true)

/-- The greatest decay countdown, `ceil(60.0 * SAMPLE_RATE)` (10_state.md R46). -/
def maxCount (f : CregFile) : Nat := (F64.ceil (F64.mul F64.sixty f.sampleRate)).toNat

/-- The legal values of an envelope (10_state.md R46) with the invariants I2 and I4 (10_state.md R50). The spec says only that
`smooth` is finite; that it stays in [0.0, 2.0] is an inference (DEDUCED) which gives that. -/
structure EnvelopeOk (f : CregFile) (e : Envelope) : Prop where
  attack : Within F64.zero F64.sixty e.attack
  decay : Within F64.zero F64.sixty e.decay
  sustain : Within F64.zero F64.one e.sustain
  release : Within F64.zero F64.sixty e.release
  /-- I2 -/
  vol : Within F64.zero F64.one e.vol
  vel : F64.isNaN e.vel = false
  count : e.count ≤ maxCount f
  smooth : Within F64.zero 0x4000000000000000#64 e.smooth
  target : Within F64.zero F64.one e.target
  /-- I4 -/
  gated : 0 < e.count → e.gate = true

/-- The legal values of a filter slot (10_state.md R47) with the invariant I6 (10_state.md R50). -/
structure SlotOk (f : CregFile) (q : Slot) : Prop where
  intensity : F64.isFinite q.intensity = true
  lfo : OscillatorOk f q.lfo
  /-- I6 -/
  running : q.lfo.active = true ∧ q.lfo.vol = F64.one

/-- The legal values of a pipe with `slots` filter slots (10_state.md R43 to R49, R52). -/
structure PipeOk (f : CregFile) (slots : Nat) (p : Pipe) : Prop where
  freq0 : F64.isFinite p.freq0 = true
  osc : OscillatorOk f p.osc
  env : EnvelopeOk f p.env
  slotCount : p.slots.length = slots
  slots : ∀ q ∈ p.slots, SlotOk f q
  acc : F64.isFinite p.acc = true

/-- The legal values of what exists in phase RUN (10_state.md R42, R43, R47): the values BUILD read are the configuration
registers' (70_reset_and_hazards.md R361). -/
structure OrganOk (f : CregFile) (o : Organ) : Prop where
  pipeLo : o.pipeLo = f.pipeLo
  pipeHi : o.pipeHi = f.pipeHi
  somePipe : f.pipeLo ≤ f.pipeHi
  sizes : f.ndraw = f.nratio
  filterSlots : (o.filterSlots : Int) = f.filterSlots
  dv : o.dv = drawbarVolumes f
  comp : o.comp = compensationOf o.dv
  pipes : ∀ p ∈ o.pipes, PipeOk f o.filterSlots p

/-- An error kind's bit of STATUS. -/
def ErrorRecord.has (r : ErrorRecord) : ErrorKind → Bool
  | .illegal => r.eIllegal
  | .phase => r.ePhase
  | .range => r.eRange
  | .nonfinite => r.eNonfinite
  | .cfg => r.eCfg

/-- The error record as 60_exceptions.md R323 and 44_control.md R282 leave it: FIRST_ERR is 0 exactly when no bit is set, it names
a kind whose bit is set, and E_CFG is set exactly in phase FAILED. -/
structure ErrorsOk (s : State) : Prop where
  empty : s.errors.firstErr = none ↔ ∀ e, s.errors.has e = false
  first : ∀ e, s.errors.firstErr = some e → s.errors.has e = true
  fatal : s.errors.eCfg = true ↔ s.phase = .failed

/-- A good state: every value the spec gives a range lies in it. -/
structure StateOk (s : State) : Prop where
  creg : CregOk s.creg
  errors : ErrorsOk s
  organ : ∀ o, s.phase = .run o → OrganOk s.creg o

/-- One eighth, the step of the drawbar volumes, in units of 2^-1074 (10_state.md R42). -/
@[irreducible] def eighthUnits : Nat := 2 ^ 1071

/-- The code whose 10-bit field is `n`. -/
def codeAt (n : Nat) : Int := codeOf (BitVec.ofNat 10 n)

/-- What one pressed key adds to the pipe with a code, in units of 2^-1074: DV[i] for every drawbar i with
`k + OFFSET[i] = c` (43_mixer.md R252). -/
def keyShare (drawbars : List (F64 × Int)) (k c : Int) : Int :=
  (drawbars.map fun d => if k + d.2 = c then F64.value d.1 else 0).sum

/-- What all pressed keys add to the pipe with a code (43_mixer.md R252). -/
def pressedShare (o : Organ) (drawbars : List (F64 × Int)) (c : Int) : Int :=
  ((List.range 1024).map fun n =>
    if o.keyPressed (BitVec.ofNat 10 n) then keyShare drawbars (codeAt n) c else 0).sum

/-- ACC[c] of every pipe is exactly the sum of the contributions of the pressed keys (43_mixer.md R252). -/
def AccountingOk (f : CregFile) (o : Organ) : Prop :=
  ∀ c p, o.pipe? c = some p →
    F64.isFinite p.acc = true ∧ F64.sign p.acc = false ∧ F64.value p.acc = pressedShare o (o.drawbars f) c

/-- A silent pipe: nothing was ever activated (43_mixer.md R258). -/
structure PipeSilent (p : Pipe) : Prop where
  vol : p.env.vol = F64.zero
  vel : p.env.vel = F64.zero
  count : p.env.count = 0
  gate : p.env.gate = false
  active : p.osc.active = false
  wasActive : p.osc.wasActive = false
  persist : p.osc.persist = false

/-- The platform has the properties the spec lets a model assume: S1 to S3 of SIN (00_scope.md R13; S4 holds of every function)
and the finiteness of PITCH (00_scope.md R14). -/
structure PlatformOk (pf : Platform) : Prop where
  s1 : pf.sin F64.zero = F64.zero
  s2 : ∀ x, F64.isFinite x = true → F64.le (F64.abs (pf.sin x)) F64.one = true
  s3 : ∀ x, F64.isFinite x = true → F64.isFinite (pf.sin x) = true
  pitch : ∀ c, -512 ≤ c → c ≤ 511 → F64.isFinite (pf.pitch c) = true

/-- The block is in phase CONFIG. -/
def Phase.isConfig : Phase → Bool
  | .config => true
  | .run _ => false
  | .failed => false

/-- The block is in phase RUN. -/
def Phase.isRun : Phase → Bool
  | .config => false
  | .run _ => true
  | .failed => false

/-- The table of 60_exceptions.md R325: which commands are admitted in which phase. -/
def admittedIn (i : Instr) (p : Phase) : Bool :=
  match i with
  | .nop | .reset | .clrst | .cfgr _ => true
  | .cfgw _ | .build => p.isConfig
  | .setkey _ _ | .next | .keyq _ => p.isRun
  | .pact _ _ _ | .pvol _ _ | .patk _ _ | .pdec _ _ | .psus _ _ | .prel _ _ => p.isRun
  | .pftype _ _ _ _ | .pvrate _ _ _ | .pvint _ _ _ => p.isRun
  | .pqry _ _ | .pfq _ _ _ => p.isRun

/-- The pipe operand of a command of format P or F (30_encoding.md R114, R116). -/
def pipeOperand? : Instr → Option PipeOperand
  | .nop | .reset | .build | .clrst | .cfgw _ | .cfgr _ | .setkey _ _ | .next | .keyq _ => none
  | .pact idx all _ | .pvol idx all | .patk idx all | .pdec idx all | .psus idx all | .prel idx all => some (pipeOperand idx all)
  | .pftype idx _ all _ | .pvrate idx _ all | .pvint idx _ all => some (pipeOperand idx all)
  | .pfq idx _ _ | .pqry idx _ => some (.one (codeOf idx))

/-- The slot operand of a command of format F (30_encoding.md R117). -/
def slotOperand? : Instr → Option (BitVec 4)
  | .pftype _ sel _ _ | .pvrate _ sel _ | .pvint _ sel _ | .pfq _ sel _ => some sel
  | .nop | .reset | .build | .clrst | .cfgw _ | .cfgr _ | .setkey _ _ | .next | .keyq _ => none
  | .pact _ _ _ | .pvol _ _ | .patk _ _ | .pdec _ _ | .psus _ _ | .prel _ _ | .pqry _ _ => none

/-- The command reads OPD as f64 (30_encoding.md R120). -/
def readsF64 : Instr → Bool
  | .cfgw creg => decide (creg.toNat ≤ 0x09)
  | .pvol _ _ | .patk _ _ | .pdec _ _ | .psus _ _ | .prel _ _ | .pvrate _ _ _ | .pvint _ _ _ => true
  | .nop | .reset | .build | .clrst | .cfgr _ | .setkey _ _ | .next | .keyq _ => false
  | .pact _ _ _ | .pftype _ _ _ _ | .pfq _ _ _ | .pqry _ _ => false

/-- The RANGE check of 60_exceptions.md R326 fails: first on the pipe, then on the slot. -/
def outOfRange (i : Instr) : Phase → Bool
  | .run o =>
    (match pipeOperand? i with
      | some sel => !o.admits sel
      | none => false)
    || (match slotOperand? i with
      | some k => decide (o.filterSlots ≤ k.toNat)
      | none => false)
  | .config | .failed => false

/-- The error the checks of a command word give, in the order of 60_exceptions.md R326: ILLEGAL, PHASE, RANGE, NONFINITE. -/
def wordError (w : Word) (s : State) : Option ErrorKind :=
  match decode w with
  | .error _ => some .illegal
  | .ok i =>
    if admittedIn i s.phase = false then some .phase
    else if outOfRange i s.phase then some .range
    else if readsF64 i && !F64.isFinite s.opd then some .nonfinite
    else none

/-- The pipes a pipe operand names. -/
def PipeOperand.names : PipeOperand → Int → Bool
  | .every, _ => true
  | .one c, c' => decide (c' = c)

/-- `o'` is `o` with the pipe of every code `c` rewritten by `g c`: nothing else of the organ differs, and no code gains or
loses its pipe. -/
def Organ.RewrittenBy (o o' : Organ) (g : Int → Pipe → Pipe) : Prop :=
  o' = { o with pipes := o'.pipes } ∧ ∀ c, o'.pipe? c = (o.pipe? c).map (g c)

/-- The accounting of 43_mixer.md R252 holds whenever there is an organ. -/
def Accounted (s : State) : Prop := ∀ o, s.phase = .run o → AccountingOk s.creg o

/-- No key is pressed and every pipe is silent (43_mixer.md R258). -/
def Silent (s : State) : Prop :=
  ∀ o, s.phase = .run o → (∀ k, o.keyPressed k = false) ∧ ∀ p ∈ o.pipes, PipeSilent p

/-- The single-pipe form of a broadcast command (30_encoding.md R114). -/
def singleForm : Instr → Option (CodeField → Instr)
  | .pact _ true b => some fun c => .pact c false b
  | .pvol _ true => some fun c => .pvol c false
  | .patk _ true => some fun c => .patk c false
  | .pdec _ true => some fun c => .pdec c false
  | .psus _ true => some fun c => .psus c false
  | .prel _ true => some fun c => .prel c false
  | .pftype _ sel true b => some fun c => .pftype c sel false b
  | .pvrate _ sel true => some fun c => .pvrate c sel false
  | .pvint _ sel true => some fun c => .pvint c sel false
  | .pact _ false _ | .pvol _ false | .patk _ false | .pdec _ false | .psus _ false | .prel _ false => none
  | .pftype _ _ false _ | .pvrate _ _ false | .pvint _ _ false => none
  | .nop | .reset | .build | .clrst | .cfgw _ | .cfgr _ | .setkey _ _ | .next | .keyq _ | .pfq _ _ _ | .pqry _ _ => none

/-- Runs commands one after another. -/
def execAll : List Instr → State → Result
  | [], s => .next s
  | i :: rest, s =>
    match exec i s with
    | .next t => execAll rest t
    | .fault f => .fault f
    | .refused r => .refused r

/-- The codes of the pipes in increasing order, as IDX holds them. -/
def Organ.codeFields (o : Organ) : List CodeField :=
  (List.range o.pipes.length).map fun (n : Nat) => BitVec.ofInt 10 (o.pipeLo + (n : Int))

/-- The bit of STATUS of an error kind (60_exceptions.md R321). -/
def ErrorKind.statusBit (e : ErrorKind) : Nat := 7 + e.code

end Sys2Proof.Machine
end

