-- ==== Sys2Proof/Certificates/Slice0/Obligations.lean ====
section
/-! DEFINITION. The statements about the machine, for the provers. OBLIGATIONS.json lists them with the rules they formalise. -/

open Sys2Proof Sys2Proof.Machine

/-! Encoding -/

/-- Decoding the word of a well-formed command gives the command back, with every operand at every value the encoding admits
(30_encoding.md R111 to R123). -/
def Obligations.DecodeEncode : Prop := ∀ i : Instr, i.wellFormed = true → decode (encode i) = .ok i

/-- A word that decodes is the word of its command, and the command is well formed: no two words are one command, and no bit
of a word is ignored (30_encoding.md R122, R123). -/
def Obligations.EncodeDecode : Prop := ∀ (w : Word) (i : Instr), decode w = .ok i → i.wellFormed = true ∧ encode i = w

/-- A word is illegal exactly in the four cases of 30_encoding.md R124, an illegal word written to CMD does nothing but record
ILLEGAL, and every PQRY selector is defined. The masks are those of R123, by OP number. -/
def Obligations.IllegalWords : Prop :=
  let masks : List (Nat × Nat) :=
    [(0x00, 0xFFFFFFFF), (0x01, 0xFFFFFFFF), (0x02, 0xFFFFFFFF), (0x03, 0xFFFFFFFF), (0x04, 0xFF00FFFF),
      (0x05, 0xFF00FFFF), (0x08, 0xFC00FFFE), (0x09, 0xFFFFFFFF), (0x0A, 0xFC00FFFF), (0x10, 0xFC00FFFC),
      (0x11, 0xFC00FFFD), (0x12, 0xFC00FFFD), (0x13, 0xFC00FFFD), (0x14, 0xFC00FFFD), (0x15, 0xFC00FFFD),
      (0x18, 0xFC000FFC), (0x19, 0xFC000FFD), (0x1A, 0xFC000FFD), (0x1E, 0xFC0000FF), (0x1F, 0xFC000FFF)]
  let illegal := fun w : Word =>
    let op := (w.extractLsb' 26 6).toNat
    let creg := (w.extractLsb' 16 8).toNat
    let sub := (w.extractLsb' 8 4).toNat
    op ∈ [0x06, 0x07, 0x0B, 0x0C, 0x0D, 0x0E, 0x0F, 0x16, 0x17, 0x1B, 0x1C, 0x1D] ∨ 0x20 ≤ op
      ∨ (∃ m ∈ masks, m.1 = op ∧ w.toNat &&& m.2 ≠ op * 2 ^ 26)
      ∨ ((op = 0x04 ∨ op = 0x05) ∧ 0x30 ≤ creg) ∨ (op = 0x1E ∧ 6 ≤ sub)
  (∀ w : Word, (∃ e, decode w = .error e) ↔ illegal w)
    ∧ (∀ (w : Word) (s : State), illegal w → executeCommand w s = .next { s with errors := s.errors.record .illegal })
    ∧ ∀ (c : CodeField) (sel : BitVec 4), ∃ w, decode w = .ok (.pqry c sel)

/-- The words of 30_encoding.md R134 (derived by the spec from R111 to R123) decode to the commands they are given for, and its
illegal examples are refused. -/
def Obligations.ExampleWords : Prop :=
  decode 0x203C0001 = .ok (.setkey 60 true) ∧ decode 0x203C0000 = .ok (.setkey 60 false)
    ∧ decode 0x23F40001 = .ok (.setkey (BitVec.ofInt 10 (-12)) true) ∧ decode 0x40000003 = .ok (.pact 0 true true)
    ∧ decode 0x48450000 = .ok (.patk 69 false) ∧ decode 0x60450001 = .ok (.pftype 69 0 false true)
    ∧ decode 0x64000002 = .ok (.pvrate 0 0 true) ∧ decode 0x7C459000 = .ok (.pqry 69 9)
    ∧ decode 0x78450300 = .ok (.pfq 69 0 3) ∧ decode 0x10000000 = .ok (.cfgw 0x00) ∧ decode 0x10120000 = .ok (.cfgw 0x12)
    ∧ decode 0x10200000 = .ok (.cfgw 0x20) ∧ decode 0x140D0000 = .ok (.cfgr 0x0D) ∧ decode 0x24000000 = .ok .next
    ∧ ∀ w ∈ ([0x24000001, 0x203C0004, 0x10300000, 0x18000000, 0x7C459002] : List Word), ∃ e, decode w = .error e

/-! The step and the register window -/

/-- A write of a word to CMD runs the command the word decodes to, on the state whose input is consumed; a step adds nothing
else. `withFetchWord` places exactly such a write. With nothing to deliver the block holds all its state (60_exceptions.md
R324, R337; the list of inputs is the model's choice, log entry 1). -/
def Obligations.StepRunsTheCommand : Prop :=
  (∀ (s : State) (data : Nat) (rest : List HostInput) (i : Instr),
    s.inputs = .write (s.pscBase + 0x08) 4 data :: rest → decode (BitVec.ofNat 32 data) = .ok i →
      step s = exec i { s with inputs := rest })
  ∧ (∀ (s : State) (nbits w : Nat) (i : Instr), decodeTableWord nbits w = some i → step (s.withFetchWord nbits w) = exec i s)
  ∧ ∀ s : State, s.inputs = [] → step s = .next s

/-- Every read of the window returns what 20_memory.md R83 lists for its offset, and changes nothing but the model's own
`inputs` and `reply` (log entries 1 and 2). -/
def Obligations.WindowReads : Prop :=
  ∀ (s : State) (k : Nat) (rest : List HostInput), k < 16 → s.inputs = .read (s.pscBase + 4 * k) 4 :: rest →
    step s = .next { s with
      inputs := rest
      reply := some (([s.opd.extractLsb' 0 32, s.opd.extractLsb' 32 32, 0, s.status, s.result.extractLsb' 0 32,
        s.result.extractLsb' 32 32, s.sampleIndex.extractLsb' 0 32, s.sampleIndex.extractLsb' 32 32, 0x50534307]
        : List Word).getD k 0) }

/-- A write to OPD_LO or OPD_HI replaces that half of OPD, and a write to a read-only or reserved word changes nothing but the
model's own `inputs` (log entry 1) (20_memory.md R83, R84). -/
def Obligations.WindowWrites : Prop :=
  ∀ (s : State) (k : Nat) (data : Word) (rest : List HostInput), k < 16 → k ≠ 2 →
    s.inputs = .write (s.pscBase + 4 * k) 4 data.toNat :: rest →
      step s = .next { s with
        inputs := rest
        opd := if k = 0 then s.opd.extractLsb' 32 32 ++ data else if k = 1 then data ++ s.opd.extractLsb' 0 32 else s.opd }

/-- The machine has no fault, and it refuses exactly the accesses that 20_memory.md R86 says are not admitted: those that are
not 4 bytes wide at PSC_BASE + 4k with k below 16. -/
def Obligations.OnlyUnadmittedAccessesRefused : Prop :=
  ∀ s : State,
    let admitted := fun addr bytes : Nat => bytes = 4 ∧ ∃ k < 16, addr = s.pscBase + 4 * k
    let unadmitted := ∃ rest, (∃ addr bytes, s.inputs = .read addr bytes :: rest ∧ ¬admitted addr bytes)
      ∨ ∃ addr bytes data, s.inputs = .write addr bytes data :: rest ∧ ¬admitted addr bytes
    (unadmitted → step s = .refused .accessNotAdmitted) ∧ (¬unadmitted → ∃ t, step s = .next t)

/-- Loading an operand with two writes, low half first, leaves OPD equal to it and nothing else changed but the model's own
`inputs` (log entry 1) (20_memory.md R84, 30_encoding.md R131). -/
def Obligations.OperandLoads : Prop :=
  ∀ (s : State) (v : Word64) (rest : List HostInput),
    s.inputs = (opdWrites v).map (fun w => w.at s) ++ rest →
      ∃ t, step s = .next t ∧ step t = .next { s with inputs := rest, opd := v }

/-- WAIT n is n writes of NEXT to CMD (30_encoding.md R133), and TICKS d, spt is WAIT d*spt. -/
def Obligations.WaitsAreNexts : Prop :=
  ∀ n d spt : Nat,
    AsmLine.expand (.wait n) = some (List.replicate n { offset := 0x08, data := 0x24000000 })
    ∧ AsmLine.expand (.ticks d spt) = AsmLine.expand (.wait (d * spt))

/-- A hardware reset gives every piece of state the value of 70_reset_and_hazards.md R360, and RESET does the same; the reset
values of the configuration registers are those of 10_state.md R40, the binary64 ones as encodings with their value beside. The
model's own fields are kept: the model's choice (log entry 11). -/
def Obligations.ResetState : Prop :=
  ∀ s : State,
    let reset : State :=
      { opd := 0, result := 0, sampleIndex := 0
        errors := { eIllegal := false, ePhase := false, eRange := false, eNonfinite := false, eCfg := false, firstErr := none }
        creg :=
          { sampleRate := 0x40E5888000000000#64          -- 44100.0
            epsilon := 0x3F00000000000000#64             -- 2^-15
            negligible := 0x3EB0000000000000#64          -- 2^-20
            maxFrequency := 0x40D3880000000000#64        -- 20000.0
            smoothAlpha := 0x3F70000000000000#64         -- 2^-8
            audibleThreshold := 0x3FC0000000000000#64    -- 0.125
            organAttack := 0x0000000000000000#64         -- 0.0
            organDecay := 0x0000000000000000#64          -- 0.0
            organSustain := 0x3FF0000000000000#64        -- 1.0
            organRelease := 0x0000000000000000#64        -- 0.0
            ndraw := 9, nratio := 9, pipeLo := -12, pipeHi := 163, envDecayPoll := 0, filterSlots := 1
            drawbar := #v[0, 0, 8, 0, 0, 0, 0, 0, 0, 0, 0, 0, 0, 0, 0, 0]
            offset := #v[-12, 7, 0, 12, 19, 24, 28, 31, 36, 0, 0, 0, 0, 0, 0, 0] }
        phase := .config, pscBlock := s.pscBlock, inputs := s.inputs, reply := s.reply }
    exec .reset s = .next reset
      ∧ (∀ rest, s.inputs = .hardwareReset :: rest → step s = .next { reset with inputs := rest })
      ∧ State.reset = { reset with pscBlock := 0, inputs := [], reply := none }
      ∧ reset.status = 0

/-! Invariants -/

/-- The reset state is good, and its accounting holds. -/
def Obligations.ResetIsGood : Prop := StateOk State.reset ∧ Accounted State.reset

/-- Every step keeps a state good: every value the spec gives a range stays in it, with the
invariants I1, I2 and I4 to I6 (10_state.md R40 to R47; R50 and R52 are inferences the spec marks as its own; two bounds are
the model's, log entry 16). -/
def Obligations.StepKeepsStateOk : Prop := ∀ s t : State, StateOk s → step s = .next t → StateOk t

/-- Every step keeps the accounting: ACC[c] is exactly the sum of DV[i] over the pressed keys k and drawbars i with
k + OFFSET[i] = c (43_mixer.md R252, an inference the spec marks as its own). -/
def Obligations.StepKeepsAccounting : Prop :=
  ∀ s t : State, StateOk s → Accounted s → step s = .next t → Accounted t

/-- Every accumulator is a nonnegative multiple of 1/8, at most 1024 * 16 (10_state.md R49, an inference the spec marks as its
own). -/
def Obligations.AccumulatorsAreEighths : Prop :=
  ∀ (s : State) (o : Organ) (c : Int) (p : Pipe), StateOk s → Accounted s → s.phase = .run o → o.pipe? c = some p →
    ∃ n : Nat, n ≤ 8 * (1024 * 16) ∧ F64.value p.acc = n * eighthUnits ∧ F64.sign p.acc = false

/-- With no key pressed since BUILD and no PACT that activates, every pipe stays silent and every NEXT returns +0.0, whatever
the other commands do (43_mixer.md R258, an inference the spec marks as its own). -/
def Obligations.SilenceIsKept : Prop :=
  ∀ (i : Instr) (s t : State), StateOk s → Silent s → (∀ idx, i ≠ .setkey idx true) → (∀ idx all, i ≠ .pact idx all true) →
    exec i s = .next t → Silent t ∧ (i = .next → s.phase.isRun = true → t.result = F64.zero)

/-! Errors and phases -/

/-- Every command completes with a next state, in every state (60_exceptions.md R320, R324; for the ill-formed terms, which no
word gives, it is the model's choice, log entry 12). -/
def Obligations.EveryCommandCompletes : Prop := ∀ (i : Instr) (s : State), ∃ t, exec i s = .next t

/-- A command the table of 60_exceptions.md R325 does not admit records PHASE and does nothing else; a command it admits never
records PHASE. -/
def Obligations.PhaseAdmission : Prop :=
  ∀ (i : Instr) (s : State), i.wellFormed = true →
    (admittedIn i s.phase = false → exec i s = .next { s with errors := s.errors.record .phase })
    ∧ (admittedIn i s.phase = true → ∀ t, exec i s = .next t → t.errors.ePhase = true → s.errors.ePhase = true)

/-- The checks of a command word are made in the order ILLEGAL, PHASE, RANGE, NONFINITE, and the first that fails records its
error and ends the command; a word that passes them records nothing, but for the CFG of a BUILD that ran
(60_exceptions.md R326). -/
def Obligations.CheckOrder : Prop :=
  ∀ (w : Word) (s : State),
    (∀ e, wordError w s = some e → executeCommand w s = .next { s with errors := s.errors.record e })
    ∧ (StateOk s → wordError w s = none → ∀ t, executeCommand w s = .next t →
        ∀ e, t.errors.has e = true → s.errors.has e = true ∨ (e = .cfg ∧ t.phase = .failed))

/-- A command that newly records ILLEGAL, PHASE, RANGE or NONFINITE has no other effect; one that newly records CFG is a BUILD
that ran, whose other effect is phase FAILED (60_exceptions.md R322). -/
def Obligations.ErrorsArePrecise : Prop :=
  ∀ (i : Instr) (s t : State) (e : ErrorKind), exec i s = .next t → s.errors.has e = false → t.errors.has e = true →
    (e ≠ .cfg → t = { s with errors := s.errors.record e })
    ∧ (e = .cfg → i = .build ∧ t = { s with errors := s.errors.record .cfg, phase := .failed })

/-- STATUS holds PHASE (0 CONFIG, 1 RUN, 2 FAILED), the five error bits and FIRST_ERR (0 none, 1 ILLEGAL, 2 PHASE, 3 RANGE,
4 NONFINITE, 5 CFG) in their places, and every other bit reads 0 (10_state.md R33, R34). -/
def Obligations.StatusLayout : Prop :=
  ∀ s : State,
    (s.status.extractLsb' 0 2).toNat = (match s.phase with
      | .config => 0
      | .run _ => 1
      | .failed => 2)
    ∧ s.status.getLsbD 8 = s.errors.eIllegal ∧ s.status.getLsbD 9 = s.errors.ePhase ∧ s.status.getLsbD 10 = s.errors.eRange
    ∧ s.status.getLsbD 11 = s.errors.eNonfinite ∧ s.status.getLsbD 12 = s.errors.eCfg
    ∧ (s.status.extractLsb' 16 8).toNat = (match s.errors.firstErr with
      | none => 0
      | some .illegal => 1
      | some .phase => 2
      | some .range => 3
      | some .nonfinite => 4
      | some .cfg => 5)
    ∧ ∀ n, ¬(n < 2 ∨ (8 ≤ n ∧ n ≤ 12) ∨ (16 ≤ n ∧ n ≤ 23)) → s.status.getLsbD n = false

/-- Recording an error sets its bit of STATUS, writes its code to FIRST_ERR if that was 0, and leaves every other bit; raising
one does nothing else. The bits are sticky: a step clears one only by a hardware reset, by RESET, or, unless it is E_CFG, by
CLRST (60_exceptions.md R323). -/
def Obligations.RecordingInStatus : Prop :=
  ∀ (s : State) (e : ErrorKind),
    (s.recordError e).status.getLsbD e.statusBit = true
    ∧ (∀ n, n < 16 → n ≠ e.statusBit → (s.recordError e).status.getLsbD n = s.status.getLsbD n)
    ∧ (s.recordError e).status.extractLsb' 16 8
        = (if s.status.extractLsb' 16 8 = 0 then BitVec.ofNat 8 e.code else s.status.extractLsb' 16 8)
    ∧ raise e s = .next (s.recordError e)
    ∧ ∀ t, step s = .next t → s.errors.has e = true → t.errors.has e = false →
        (∃ rest, s.inputs = .hardwareReset :: rest)
        ∨ ∃ data rest, s.inputs = .write (s.pscBase + 0x08) 4 data :: rest
          ∧ (data % 2 ^ 32 = 0x04000000 ∨ (data % 2 ^ 32 = 0x0C000000 ∧ e ≠ .cfg))

/-- Which commands write the port registers, the configuration and PHASE (10_state.md R31, R33, R35, R36, R38, R40); no
command writes the model's own fields (log entries 1 to 3). -/
def Obligations.WhoWritesWhat : Prop :=
  ∀ (i : Instr) (s t : State), exec i s = .next t → i ≠ .reset →
    t.opd = s.opd
    ∧ (t.result ≠ s.result → i = .next ∨ (∃ r, i = .cfgr r) ∨ (∃ k, i = .keyq k) ∨ (∃ c k, i = .pqry c k)
        ∨ ∃ c k u, i = .pfq c k u)
    ∧ (t.sampleIndex ≠ s.sampleIndex → i = .next ∨ i = .build)
    ∧ (t.creg ≠ s.creg → ∃ r, i = .cfgw r)
    ∧ (t.phase.code ≠ s.phase.code → i = .build)
    ∧ t.pscBlock = s.pscBlock ∧ t.inputs = s.inputs ∧ t.reply = s.reply

/-- The queries and CFGR change only RESULT, or record an error: no organ state moves (44_control.md R286). -/
def Obligations.QueriesWriteOnlyResult : Prop :=
  ∀ (i : Instr) (s t : State),
    ((∃ k, i = .keyq k) ∨ (∃ c k, i = .pqry c k) ∨ (∃ c k u, i = .pfq c k u) ∨ ∃ r, i = .cfgr r) →
      exec i s = .next t →
        t = { s with result := t.result } ∨ ∃ e, t = { s with errors := s.errors.record e }

/-! Control and configuration -/

/-- NOP changes nothing, in every phase. Its word is 0x00000000 exactly: a word of OP 0x00 with another bit set records ILLEGAL
(44_control.md R280). -/
def Obligations.NopDoesNothing : Prop :=
  ∀ s : State, exec .nop s = .next s ∧ decode 0x00000000 = .ok .nop
    ∧ ∀ w : Word, w.extractLsb' 26 6 = 0x00 → w ≠ 0x00000000 → executeCommand w s = .next { s with errors := s.errors.record .illegal }

/-- CLRST clears the four non-fatal bits, keeps E_CFG, and sets FIRST_ERR to 5 (CFG) or 0; nothing else changes. Its word is
0x0C000000 exactly: another word of OP 0x03 records ILLEGAL and clears nothing (44_control.md R282). -/
def Obligations.ClrstClears : Prop :=
  ∀ s : State,
    (∃ t, exec .clrst s = .next t ∧ t = { s with errors := t.errors }
      ∧ (∀ e, t.errors.has e = (e == .cfg && s.errors.has .cfg))
      ∧ t.errors.firstErrCode = if s.errors.has .cfg = true then 5 else 0)
    ∧ decode 0x0C000000 = .ok .clrst
    ∧ ∀ w : Word, w.extractLsb' 26 6 = 0x03 → w ≠ 0x0C000000 → executeCommand w s = .next { s with errors := s.errors.record .illegal }

/-- CFGW of a binary64 register stores the operand clamped to the register's range, and nothing else changes
(44_control.md R283). -/
def Obligations.CfgwFloat : Prop :=
  ∀ (s : State) (r : F64Reg), s.phase = .config → F64.isFinite s.opd = true →
    ∃ f, exec (.cfgw (Creg.number (.f64 r))) s = .next { s with creg := f }
      ∧ f.getF64 r = F64.clamp s.opd r.lo r.hi
      ∧ (∀ r', r' ≠ r → f.getF64 r' = s.creg.getF64 r') ∧ ∀ r', f.getInt r' = s.creg.getInt r'

/-- CFGW of an integer register stores the operand, as int64, clamped to the register's range (any nonzero ENV_DECAY_POLL is 1),
and nothing else changes (44_control.md R283). -/
def Obligations.CfgwInteger : Prop :=
  ∀ (s : State) (r : IntReg), s.phase = .config →
    ∃ f, exec (.cfgw (Creg.number (.int r))) s = .next { s with creg := f }
      ∧ f.getInt r = (if r = .envDecayPoll then (if s.opd.toInt = 0 then 0 else 1) else max r.lo (min r.hi s.opd.toInt))
      ∧ (∀ r', r' ≠ r → f.getInt r' = s.creg.getInt r') ∧ ∀ r', f.getF64 r' = s.creg.getF64 r'

/-- CFGR gives RESULT the register's value, binary64 bits or a two's-complement int64 that reads back as the integer, in every
phase, and changes nothing else (44_control.md R284). -/
def Obligations.CfgrReads : Prop :=
  ∀ (s : State) (r : Creg), StateOk s →
    ∃ v, exec (.cfgr r.number) s = .next { s with result := v }
      ∧ (∀ q, r = .f64 q → v = s.creg.getF64 q) ∧ ∀ q, r = .int q → v.toInt = s.creg.getInt q

/-- Each configuration register has the number and the stored range that 10_state.md R40 lists, and reads the field of the
register file that bears its name; the numbers 0x00 to 0x2F name one register each, and no other number names one. -/
def Obligations.RegisterNumbers : Prop :=
  let f64 := fun (r : F64Reg) (number : BitVec 8) (lo hi : F64) (field : CregFile → F64) =>
    Creg.ofNumber number = some (.f64 r) ∧ r.lo = lo ∧ r.hi = hi ∧ ∀ f : CregFile, f.getF64 r = field f
  let int := fun (r : IntReg) (number : BitVec 8) (lo hi : Int) (field : CregFile → Int) =>
    Creg.ofNumber number = some (.int r) ∧ r.lo = lo ∧ r.hi = hi ∧ ∀ f : CregFile, f.getInt r = field f
  f64 .sampleRate 0x00 0x3FF0000000000000 0x41F0000000000000 (·.sampleRate)         -- 1.0 to 4294967296.0
  ∧ f64 .epsilon 0x01 0x0000000000000000 0x3FF0000000000000 (·.epsilon)             -- 0.0 to 1.0
  ∧ f64 .negligible 0x02 0x0000000000000000 0x3FF0000000000000 (·.negligible)
  ∧ f64 .maxFrequency 0x03 0x0000000000000000 0x4340000000000000 (·.maxFrequency)   -- 0.0 to 9007199254740992.0
  ∧ f64 .smoothAlpha 0x04 0x0000000000000000 0x3FF0000000000000 (·.smoothAlpha)
  ∧ f64 .audibleThreshold 0x05 0x0000000000000000 0x3FF0000000000000 (·.audibleThreshold)
  ∧ f64 .organAttack 0x06 0x0000000000000000 0x404E000000000000 (·.organAttack)     -- 0.0 to 60.0
  ∧ f64 .organDecay 0x07 0x0000000000000000 0x404E000000000000 (·.organDecay)
  ∧ f64 .organSustain 0x08 0x0000000000000000 0x3FF0000000000000 (·.organSustain)
  ∧ f64 .organRelease 0x09 0x0000000000000000 0x404E000000000000 (·.organRelease)
  ∧ int .ndraw 0x0A 0 16 (·.ndraw)
  ∧ int .nratio 0x0B 0 16 (·.nratio)
  ∧ int .pipeLo 0x0C (-512) 511 (·.pipeLo)
  ∧ int .pipeHi 0x0D (-512) 511 (·.pipeHi)
  ∧ int .envDecayPoll 0x0E 0 1 (·.envDecayPoll)
  ∧ int .filterSlots 0x0F 0 16 (·.filterSlots)
  ∧ (∀ i : Fin 16, int (.drawbar i) (BitVec.ofNat 8 (0x10 + i.val)) 0 8 (fun f => f.drawbar[i]))
  ∧ (∀ i : Fin 16, int (.offset i) (BitVec.ofNat 8 (0x20 + i.val)) (-1024) 1024 (fun f => f.offset[i]))
  ∧ (∀ r : Creg, Creg.ofNumber r.number = some r)
    ∧ ∀ n : BitVec 8, ((∃ r, Creg.ofNumber n = some r ∧ r.number = n) ↔ n.toNat < 0x30)

/-! Construction -/

/-- BUILD in phase CONFIG with matching sizes and a pipe range that is not empty makes the organ of 43_mixer.md R240 and enters
RUN: DV, COMP, the keys, and for every code of the range a pipe with the values the rule lists. -/
def Obligations.BuildMakesTheOrgan : Prop :=
  ∀ s : State, CregOk s.creg → s.phase = .config → s.creg.ndraw = s.creg.nratio → s.creg.pipeLo ≤ s.creg.pipeHi →
    ∃ o, exec .build s = .next { s with sampleIndex := 0, phase := .run o }
      ∧ (o.dv.length : Int) = s.creg.ndraw
      ∧ (∀ i : Fin 16, (i.val : Int) < s.creg.ndraw →
          o.dv[i.val]? = some (F64.div (F64.ofInt s.creg.drawbar[i]) 0x4020000000000000#64))
      ∧ o.comp = (let sigma := o.dv.foldl F64.add F64.zero
          if F64.eq sigma F64.zero then F64.one else F64.min F64.one (F64.div F64.one sigma))
      ∧ (∀ k, o.keyPressed k = false)
      ∧ (o.filterSlots : Int) = s.creg.filterSlots
      ∧ ∀ c, o.pipe? c =
          if s.creg.pipeLo ≤ c ∧ c ≤ s.creg.pipeHi then
            let freq := F64.clamp (platform.pitch c) F64.zero s.creg.maxFrequency
            some
              { freq0 := platform.pitch c
                osc := { theta := F64.zero, dtheta := F64.div (F64.mul F64.twoPi freq) s.creg.sampleRate, freq := freq
                         vol := F64.zero, active := false, wasActive := false, persist := false }
                env := { attack := s.creg.organAttack, decay := s.creg.organDecay, sustain := s.creg.organSustain
                         release := s.creg.organRelease, vol := F64.zero, vel := F64.zero, count := 0
                         smooth := F64.zero, target := F64.zero, gate := false }
                slots := List.replicate s.creg.filterSlots.toNat
                  { type := .identity, intensity := F64.zero
                    lfo := { theta := F64.zero, dtheta := F64.zero, freq := F64.zero, vol := F64.one, active := true
                             wasActive := false, persist := false } }
                acc := F64.zero }
          else none

/-- BUILD in phase CONFIG with either mismatch of 43_mixer.md R241 records CFG and enters FAILED, and nothing else changes. In
FAILED no NEXT is admitted, and only RESET, of all commands, leaves it. -/
def Obligations.BuildMismatchFails : Prop :=
  ∀ s : State, s.phase = .config → (s.creg.ndraw ≠ s.creg.nratio ∨ s.creg.pipeHi < s.creg.pipeLo) →
    exec .build s = .next { s with errors := s.errors.record .cfg, phase := .failed }
      ∧ (∀ t, t.phase = .failed → exec .next t = .next { t with errors := t.errors.record .phase })
      ∧ ∀ (i : Instr) (t u : State), t.phase = .failed → i ≠ .reset → exec i t = .next u → u.phase = .failed

/-- The invariant I7: COMP times the sum of the drawbar volumes is at most 1.0, for every drawbar setting (10_state.md R50, an
inference the spec marks as its own; 43_mixer.md R242). -/
def Obligations.CompensationBound : Prop :=
  ∀ (s : State) (o : Organ), StateOk s → s.phase = .run o →
    F64.le (F64.mul o.comp (o.dv.foldl F64.add F64.zero)) F64.one = true ∧ F64.lt F64.zero o.comp = true

/-! Key events -/

/-- SETKEY with the key already in that state does nothing; otherwise it records the key and, for every drawbar in increasing
order, changes the accumulator of the pipe its offset reaches and activates or deactivates that pipe by the threshold; a target
without a pipe is skipped (43_mixer.md R250, R251). -/
def Obligations.SetkeyTransition : Prop :=
  ∀ (s : State) (o : Organ) (k : CodeField) (pressed : Bool), s.phase = .run o →
    (o.keyPressed k = pressed → exec (.setkey k pressed) s = .next s)
    ∧ (o.keyPressed k ≠ pressed → ∃ o',
        exec (.setkey k pressed) s = .next { s with phase := .run o' }
        ∧ o' = { o with key := o'.key, pipes := o'.pipes }
        ∧ (∀ k', o'.keyPressed k' = if k' = k then pressed else o.keyPressed k')
        ∧ ∀ c, o'.pipe? c = (o.pipe? c).map fun p =>
            ((o.dv.zip s.creg.offset.toList).filter fun d => decide (k.toInt + d.2 = c)).foldl (init := p) fun p d =>
              let acc := if pressed then F64.add p.acc d.1 else F64.sub p.acc d.1
              let v := F64.sat01 acc
              if F64.lt v s.creg.audibleThreshold = true then { p with acc := acc, env := envActivate s.creg false p.env }
              else { p with acc := acc, env := envActivate s.creg true { p.env with target := F64.sat01 v } })

/-- Pressing a key that is up and releasing it brings every accumulator back to exactly what it was (43_mixer.md R253, an
inference the spec marks as its own). -/
def Obligations.PressThenRelease : Prop :=
  ∀ (s : State) (o : Organ) (k : CodeField), StateOk s → Accounted s → s.phase = .run o → o.keyPressed k = false →
    ∃ t u o', exec (.setkey k true) s = .next t ∧ exec (.setkey k false) t = .next u ∧ u.phase = .run o'
      ∧ (∀ k', o'.keyPressed k' = o.keyPressed k')
      ∧ ∀ c, (o'.pipe? c).map Pipe.acc = (o.pipe? c).map Pipe.acc

/-! The sample step -/

/-- NEXT steps every pipe once, gives RESULT the sum of the samples in increasing code order from +0.0 times COMP, and adds 1 to
SAMPLE_INDEX; KEY, DV and COMP are not written, nor any ACC (43_mixer.md R255). -/
def Obligations.NextSumsThePipes : Prop :=
  ∀ (s : State) (o : Organ), s.phase = .run o →
    ∃ o', exec .next s = .next
        { s with
          phase := .run o'
          result := F64.mul ((List.range o.pipes.length).foldl (init := F64.zero) fun (sum : F64) (n : Nat) =>
            match o.pipe? (o.pipeLo + (n : Int)) with
            | some p => F64.add sum (pipeNext platform s.creg p).1
            | none => sum) o.comp
          sampleIndex := s.sampleIndex + 1 }
      ∧ o.RewrittenBy o' (fun _ p => (pipeNext platform s.creg p).2)
      ∧ ∀ c, (o'.pipe? c).map Pipe.acc = (o.pipe? c).map Pipe.acc

/-- A pipe's sample step in the order of 43_mixer.md R256 and 41_envelope.md R180: the chain from the fixed frequency, the
oscillator's frequency, the envelope (the level advanced and saturated, the countdown, the smoothing of R191, and the poll of
R192, which schedules a decay as R173 does), the oscillator driven by it, and the sample unchanged by the amplitude hooks. -/
def Obligations.PipeStepOrder : Prop :=
  ∀ (pf : Platform) (f : CregFile) (p : Pipe),
    let chain := chainModF pf f p.slots p.freq0
    let freq := F64.clamp chain.1 F64.zero f.maxFrequency
    let stepped : Envelope :=
      { p.env with
        vol := F64.sat01 (F64.add p.env.vol p.env.vel)
        count := p.env.count - 1
        vel := if p.env.count = 1 then F64.zero else p.env.vel
        smooth := F64.add p.env.smooth (F64.mul f.smoothAlpha (F64.sub p.env.target p.env.smooth)) }
    let e : Envelope :=
      if f.envDecayPoll = 1 ∧ stepped.gate = true ∧ F64.le (F64.sub F64.one f.negligible) stepped.vol = true
          ∧ F64.lt f.negligible stepped.decay = true ∧ stepped.count = 0 then
        { stepped with
          vel := F64.div (F64.sub stepped.sustain F64.one) (F64.mul stepped.decay f.sampleRate)
          count := (F64.ceil (F64.mul stepped.decay f.sampleRate)).toNat }
      else stepped
    let o : Oscillator :=
      { p.osc with
        freq := freq
        dtheta := F64.div (F64.mul F64.twoPi freq) f.sampleRate
        active := F64.lt f.negligible e.vol
        vol := F64.sat01 (F64.clamp (F64.mul e.vol e.smooth) F64.zero e.target) }
    pipeNext pf f p = ((oscNext pf f o).1, { p with osc := (oscNext pf f o).2, env := e, slots := chain.2 })

/-- A NEXT sample is finite, and its magnitude is at most the binary64 product of COMP and the number of pipes
(20_memory.md R96, an inference the spec marks as its own). -/
def Obligations.SampleIsBounded : Prop :=
  ∀ (s t : State) (o : Organ), StateOk s → s.phase = .run o → exec .next s = .next t →
    F64.isFinite t.result = true
      ∧ F64.le (F64.abs t.result) (F64.mul o.comp (F64.ofInt o.pipes.length)) = true

/-- The invariant I3: after a sample step every oscillator's volume lies in [0, target] (41_envelope.md R197, an inference the
spec marks as its own). -/
def Obligations.OutputVolumeBelowTarget : Prop :=
  ∀ (s t : State) (o' : Organ), StateOk s → s.phase.isRun = true → exec .next s = .next t → t.phase = .run o' →
    ∀ p ∈ o'.pipes, F64.le F64.zero p.osc.vol = true ∧ F64.le p.osc.vol p.env.target = true

/-- NEXT depends on the configuration and the organ alone: two blocks that agree on them give the same sample and the same
organ, bit for bit (70_reset_and_hazards.md R369, an inference the spec marks as its own). -/
def Obligations.SampleDependsOnOrganOnly : Prop :=
  ∀ s s' t t' : State, s.creg = s'.creg → s.phase = s'.phase → s.phase.isRun = true →
    exec .next s = .next t → exec .next s' = .next t' → t.result = t'.result ∧ t.phase = t'.phase

/-! Queries -/

/-- KEYQ gives RESULT 1 or 0 for the key's recorded state (44_control.md R285). -/
def Obligations.KeyqReads : Prop :=
  ∀ (s : State) (o : Organ) (k : CodeField), s.phase = .run o →
    exec (.keyq k) s = .next { s with result := if o.keyPressed k = true then 1 else 0 }

/-- PQRY gives RESULT the field of the pipe that its selector names, in the order of the table of 44_control.md R287. -/
def Obligations.PqryReads : Prop :=
  ∀ (s : State) (o : Organ) (c : CodeField) (sel : BitVec 4) (p : Pipe), s.phase = .run o → o.pipe? c.toInt = some p →
    exec (.pqry c sel) s = .next { s with
      result := ([p.acc, p.env.vol, p.env.vel, p.env.smooth, p.env.target, p.osc.theta, p.osc.dtheta, p.osc.freq, p.osc.vol,
        flagsWord p.osc p.env.gate, BitVec.ofNat 64 p.env.count, p.freq0, p.env.attack, p.env.decay, p.env.sustain,
        p.env.release] : List Word64).getD sel.toNat 0 }

/-- PFQ gives RESULT the field of the filter slot that its selector names, in the order of the table of 44_control.md R289. -/
def Obligations.PfqReads : Prop :=
  ∀ (s : State) (o : Organ) (c : CodeField) (k sub : BitVec 4) (p : Pipe) (q : Slot), s.phase = .run o → o.pipe? c.toInt = some p →
    k.toNat < o.filterSlots → p.slots[k.toNat]? = some q → sub.toNat ≤ 5 →
      exec (.pfq c k sub) s = .next { s with
        result := ([(match q.type with | .identity => 0 | .vibrato => 1), q.lfo.freq, q.intensity, q.lfo.theta, q.lfo.dtheta,
          flagsWord q.lfo false] : List Word64).getD sub.toNat 0 }

/-- The FLAGS word: MODE in bits 1:0, GATE in 2, ACTIVE in 3, WAS_ACTIVE in 4, PERSIST in 5, every other bit 0; MODE is 2 where
persist is set, else 1 where wasActive is set, else 0 (44_control.md R288, 10_state.md R45). -/
def Obligations.FlagsLayout : Prop :=
  ∀ (o : Oscillator) (gate : Bool),
    ((flagsWord o gate).extractLsb' 0 2).toNat = (if o.persist = true then 2 else if o.wasActive = true then 1 else 0)
    ∧ (flagsWord o gate).getLsbD 2 = gate ∧ (flagsWord o gate).getLsbD 3 = o.active
    ∧ (flagsWord o gate).getLsbD 4 = o.wasActive ∧ (flagsWord o gate).getLsbD 5 = o.persist
    ∧ ∀ n, 6 ≤ n → (flagsWord o gate).getLsbD n = false

/-! The pipe and slot commands -/

/-- PACT applies EnvActivate to the envelope of every pipe it names and changes nothing else (41_envelope.md R182). -/
def Obligations.PactActivates : Prop :=
  ∀ (s : State) (o : Organ) (idx : CodeField) (all b : Bool), s.phase = .run o → o.admits (pipeOperand idx all) = true →
    ∃ o', exec (.pact idx all b) s = .next { s with phase := .run o' }
      ∧ o.RewrittenBy o' fun c p =>
          if (pipeOperand idx all).names c = true then { p with env := envActivate s.creg b p.env } else p

/-- PVOL, PATK, PDEC, PSUS and PREL store the operand, clamped, in one field of the envelope of every pipe they name, and change
nothing else (41_envelope.md R183 to R186, R188). -/
def Obligations.EnvelopeSettersStore : Prop :=
  ∀ (s : State) (o : Organ) (idx : CodeField) (all : Bool), s.phase = .run o → o.admits (pipeOperand idx all) = true →
    F64.isFinite s.opd = true →
      let unit := F64.clamp s.opd F64.zero F64.one
      let seconds := F64.clamp s.opd F64.zero 0x404E000000000000#64
      let stores := fun (i : Instr) (g : Envelope → Envelope) =>
        ∃ o', exec i s = .next { s with phase := .run o' }
          ∧ o.RewrittenBy o' fun c p => if (pipeOperand idx all).names c = true then { p with env := g p.env } else p
      stores (.pvol idx all) (fun e => { e with target := unit })
      ∧ stores (.patk idx all) (fun e => { e with attack := seconds })
      ∧ stores (.pdec idx all) (fun e => { e with decay := seconds })
      ∧ stores (.psus idx all) (fun e => { e with sustain := unit })
      ∧ stores (.prel idx all) (fun e => { e with release := seconds })

/-- PFTYPE, PVRATE and PVINT change the type, the LFO's frequency and increment, and the intensity of one slot of every pipe
they name, and nothing else: the LFO's phase is kept (42_filter.md R220 to R222). PVRATE and PVINT need a finite operand. -/
def Obligations.SlotSettersStore : Prop :=
  ∀ (s : State) (o : Organ) (idx : CodeField) (k : BitVec 4) (all b : Bool), s.phase = .run o →
    o.admits (pipeOperand idx all) = true → k.toNat < o.filterSlots →
      let rate := F64.clamp s.opd F64.zero s.creg.maxFrequency
      let stores := fun (i : Instr) (g : Slot → Slot) =>
        ∃ o', exec i s = .next { s with phase := .run o' }
          ∧ o.RewrittenBy o' fun c p =>
              if (pipeOperand idx all).names c = true then { p with slots := p.slots.modify k.toNat g } else p
      stores (.pftype idx k all b) (fun q => { q with type := if b then .vibrato else .identity })
      ∧ (F64.isFinite s.opd = true →
          stores (.pvrate idx k all) (fun q =>
            { q with lfo := { q.lfo with freq := rate, dtheta := F64.div (F64.mul F64.twoPi rate) s.creg.sampleRate } })
          ∧ stores (.pvint idx k all) (fun q => { q with intensity := s.opd }))

/-- A broadcast command is the single-pipe command for every pipe in increasing code order: whether its operands pass the checks
or not (30_encoding.md R114). -/
def Obligations.BroadcastIsEveryPipe : Prop :=
  ∀ (s : State) (o : Organ) (i : Instr) (single : CodeField → Instr), StateOk s → s.phase = .run o → singleForm i = some single →
    exec i s = execAll (o.codeFields.map single) s

/-! The oscillator -/

/-- OscNext (40_oscillator.md R144), row by row as the table of R145 lists it. -/
def Obligations.OscillatorTransitions : Prop :=
  ∀ (pf : Platform) (f : CregFile) (o : Oscillator),
    let s := F64.mul o.vol (pf.sin o.theta)
    let loud := F64.le f.epsilon (F64.abs s)
    let theta := advance o.theta o.dtheta
    (o.active = true → o.wasActive = false → o.persist = false → oscNext pf f o
        = (F64.mul o.vol (pf.sin F64.zero), { o with theta := advance F64.zero o.dtheta, wasActive := true, persist := false }))
    ∧ (o.active = true → (o.wasActive = true ∨ o.persist = true) →
        oscNext pf f o = (s, { o with theta := theta, wasActive := true, persist := false }))
    ∧ (o.active = false → (o.wasActive = true ∨ o.persist = true) → loud = true →
        oscNext pf f o = (s, { o with theta := theta, wasActive := false, persist := true }))
    ∧ (o.active = false → (o.wasActive = true ∨ o.persist = true) → loud = false →
        oscNext pf f o = (F64.zero, { o with wasActive := false, persist := false }))
    ∧ (o.active = false → o.wasActive = false → o.persist = false → oscNext pf f o = (F64.zero, o))

/-- Click-free start: the sample of the Silent to Active transition is exactly +0.0, for every volume in [0, 1], whatever phase
the oscillator had (40_oscillator.md R148, an inference the spec marks as its own). -/
def Obligations.ClickFreeStart : Prop :=
  ∀ (pf : Platform) (f : CregFile) (o : Oscillator), PlatformOk pf → Within F64.zero F64.one o.vol →
    o.active = true → o.wasActive = false → o.persist = false → (oscNext pf f o).1 = F64.zero

/-- Every sample's magnitude is at most the volume, which is at most 1.0 (40_oscillator.md R147, an inference the spec marks
as its own). -/
def Obligations.OscillatorMagnitude : Prop :=
  ∀ (pf : Platform) (f : CregFile) (o : Oscillator), PlatformOk pf → OscillatorOk f o →
    F64.le (F64.abs (oscNext pf f o).1) o.vol = true ∧ F64.le o.vol F64.one = true

/-- Advance gives the exact remainder of the rounded sum, in [0, TWO_PI); a sum below TWO_PI is given unchanged
(40_oscillator.md R151). -/
def Obligations.AdvanceWraps : Prop :=
  ∀ theta dtheta : F64, Within F64.zero F64.twoPi theta → Within F64.zero dthetaMax dtheta →
    F64.isFinite (F64.add theta dtheta) = true
    ∧ F64.value (advance theta dtheta) = F64.value (F64.add theta dtheta) % F64.value F64.twoPi
    ∧ F64.le F64.zero (advance theta dtheta) = true ∧ F64.lt (advance theta dtheta) F64.twoPi = true
    ∧ (F64.lt (F64.add theta dtheta) F64.twoPi = true → advance theta dtheta = F64.add theta dtheta)

/-! The envelope -/

/-- EnvActivate in its cases: the rising edge with an instant or a ramped attack, the decay trigger on a gated envelope, the
release, and the call that changes nothing (41_envelope.md R172 to R174). -/
def Obligations.EnvelopeActivation : Prop :=
  ∀ (f : CregFile) (e : Envelope),
    let trigger := F64.le (F64.sub F64.one f.negligible) e.vol = true ∧ F64.lt f.negligible e.decay = true ∧ e.count = 0
    (e.gate = false → envActivate f true e =
      if F64.lt e.attack f.negligible = true then { e with gate := true, vol := F64.one, vel := F64.zero }
      else { e with gate := true, vel := F64.div F64.one (F64.mul e.attack f.sampleRate) })
    ∧ (e.gate = true → trigger → envActivate f true e =
        { e with
          vel := F64.div (F64.sub e.sustain F64.one) (F64.mul e.decay f.sampleRate)
          count := (F64.ceil (F64.mul e.decay f.sampleRate)).toNat })
    ∧ (e.gate = true → ¬trigger → envActivate f true e = e)
    ∧ (e.gate = true → envActivate f false e =
        if F64.lt e.release f.negligible = true then { e with gate := false, count := 0, vol := F64.zero, vel := F64.zero }
        else { e with gate := false, count := 0, vel := F64.div F64.minusOne (F64.mul e.release f.sampleRate) })
    ∧ (e.gate = false → envActivate f false e = e)

/-- Single trigger: while a decay is scheduled, a PACT that activates changes nothing at all (41_envelope.md R179). -/
def Obligations.DecayIsNotRestarted : Prop :=
  ∀ (s : State) (o : Organ) (idx : CodeField) (p : Pipe), StateOk s → s.phase = .run o → o.pipe? idx.toInt = some p →
    0 < p.env.count → exec (.pact idx false true) s = .next s

/-- A triggered decay lasts ceil(D * SAMPLE_RATE) samples, at least 1 and fewer than 2^38 (41_envelope.md R187). -/
def Obligations.DecayLength : Prop :=
  ∀ (f : CregFile) (e : Envelope), CregOk f → EnvelopeOk f e → e.gate = true → e.count = 0 →
    F64.le (F64.sub F64.one f.negligible) e.vol = true → F64.lt f.negligible e.decay = true →
      let product := F64.mul e.decay f.sampleRate
      let n := (envActivate f true e).count
      1 ≤ n ∧ n < 2 ^ 38 ∧ ((n : Int) - 1) * F64.oneUnits < F64.value product ∧ F64.value product ≤ (n : Int) * F64.oneUnits

/-- A countdown of N falls by one each sample step with the velocity kept, in either poll mode. The Nth step ends it with the
velocity +0.0 and no decay scheduled, unless the poll is on and finds the decay trigger of R173 met: then that step schedules
the next decay (41_envelope.md R180, R192; that a countdown of N ends on the Nth step is R200 (5), an inference the spec marks
as its own). -/
def Obligations.CountdownLocksTheLevel : Prop :=
  ∀ (f : CregFile) (e : Envelope) (n : Nat), n ≤ e.count → 0 < n →
    let t := (envStep f)^[n] e
    (n < e.count → t.count = e.count - n ∧ t.vel = e.vel)
    ∧ (n = e.count →
        if f.envDecayPoll = 1 ∧ e.gate = true ∧ F64.le (F64.sub F64.one f.negligible) t.vol = true
            ∧ F64.lt f.negligible e.decay = true then
          t.vel = F64.div (F64.sub e.sustain F64.one) (F64.mul e.decay f.sampleRate)
            ∧ t.count = (F64.ceil (F64.mul e.decay f.sampleRate)).toNat
        else t.vel = F64.zero ∧ t.count = 0)

/-- A sample step adds the velocity to the level, rounded once, and saturates it (41_envelope.md R180). The level never falls
while its velocity is nonnegative and never rises while it is nonpositive, and it stays in [0, 1]: attack, decay and release
are monotonic and do not overshoot (41_envelope.md R193 to R195, inferences the spec marks as its own). -/
def Obligations.LevelIsMonotonic : Prop :=
  ∀ (f : CregFile) (e : Envelope), CregOk f → EnvelopeOk f e →
    (envStep f e).vol = F64.sat01 (F64.add e.vol e.vel)
    ∧ Within F64.zero F64.one (envStep f e).vol
    ∧ (F64.le F64.zero e.vel = true → F64.le e.vol (envStep f e).vol = true)
    ∧ (F64.le e.vel F64.zero = true → F64.le (envStep f e).vol e.vol = true)

/-! The filter chain -/

/-- NEXT advances the LFO of every slot once, whatever the slot's type, and changes no type and no intensity
(42_filter.md R211). -/
def Obligations.LfosAlwaysRun : Prop :=
  ∀ (s t : State) (o o' : Organ) (c : Int) (p : Pipe), s.phase = .run o → exec .next s = .next t → t.phase = .run o' →
    o.pipe? c = some p →
      ∃ p', o'.pipe? c = some p'
        ∧ p'.slots = p.slots.map fun q => { q with lfo := (oscNext platform s.creg q.lfo).2 }

/-- A chain's frequency: an IDENTITY slot gives it back, a VIBRATO slot adds its LFO sample times its intensity, in two rounded
operations, in slot order (42_filter.md R212, R215). -/
def Obligations.ChainAddsDeviations : Prop :=
  ∀ (pf : Platform) (f : CregFile) (slots : List Slot) (x : F64),
    (chainModF pf f slots x).1 = slots.foldl (init := x) fun x q =>
      match q.type with
      | .identity => x
      | .vibrato => F64.add x (F64.mul (oscNext pf f q.lfo).1 q.intensity)

/-! The arithmetic -/

/-- The operations round to nearest: no finite value is nearer to the exact sum, product or quotient than a finite result is,
and where another value is as near, the result is the even one (00_scope.md R12). Exact values are compared as integers, in
units of 2^-1074. -/
def Obligations.RoundsToNearest : Prop :=
  ∀ a b c : F64, F64.isFinite a = true → F64.isFinite b = true → F64.isFinite c = true →
    let nearest := fun (result : F64) (exact scale : Int) =>
      F64.isFinite result = true →
        |exact - F64.value result * scale| ≤ |exact - F64.value c * scale|
        ∧ (F64.value c ≠ F64.value result → |exact - F64.value result * scale| = |exact - F64.value c * scale| →
            F64.mag result % 2 = 0)
    nearest (F64.add a b) (F64.value a + F64.value b) 1
    ∧ nearest (F64.mul a b) (F64.value a * F64.value b) F64.oneUnits
    ∧ (0 < F64.value b → nearest (F64.div a b) (F64.value a * F64.oneUnits) (F64.value b))
end

