-- ==== Sys2Proof/Laws/Float64.lean ====
section
/-! SUPPORT. What the numeric primitives of Machine/Float64.lean can do: exactness and monotonicity of the rounding, the order of
the values, and when a result is a NaN. -/

namespace Sys2Proof.F64

/-! Sign and magnitude -/

theorem mag_lt (x : F64) : mag x < 2 ^ 63 := Nat.mod_lt _ (by norm_num)

theorem toNat_eq (x : F64) : x.toNat = (if sign x then 2 ^ 63 else 0) + mag x := by
  have hx := x.isLt
  unfold sign mag
  rw [BitVec.msb_eq_decide]
  by_cases h : 2 ^ 63 ≤ x.toNat
  · rw [if_pos (by simpa using h)]; omega
  · rw [if_neg (by simpa using h)]; omega

theorem sign_ofMag (b : Bool) {m : Nat} (h : m < 2 ^ 63) : sign (ofMag b m) = b := by
  unfold sign ofMag
  rw [BitVec.msb_eq_decide]
  cases b <;> simp only [BitVec.toNat_ofNat] <;> simp <;> omega

theorem mag_ofMag (b : Bool) {m : Nat} (h : m < 2 ^ 63) : mag (ofMag b m) = m := by
  unfold mag ofMag
  cases b <;> simp <;> omega

theorem eq_iff_sign_mag {x y : F64} : x = y ↔ sign x = sign y ∧ mag x = mag y := by
  constructor
  · rintro rfl; exact ⟨rfl, rfl⟩
  · rintro ⟨h1, h2⟩
    apply BitVec.eq_of_toNat_eq
    rw [toNat_eq, toNat_eq, h1, h2]

theorem ofMag_sign_mag (x : F64) : ofMag (sign x) (mag x) = x :=
  eq_iff_sign_mag.2 ⟨sign_ofMag _ (mag_lt x), mag_ofMag _ (mag_lt x)⟩

theorem infMag_lt : infMag < 2 ^ 63 := by decide

/-! The units of a magnitude -/

/-- The exponent step of the binade that magnitude bits lie in. -/
def stepOf (m : Nat) : Nat := m / 2 ^ 52 - 1

/-- The count of grid steps that magnitude bits stand for. -/
def stepsOf (m : Nat) : Nat := m - stepOf m * 2 ^ 52

theorem unitsOfMag_eq (m : Nat) : unitsOfMag m = stepsOf m * 2 ^ stepOf m := by
  unfold unitsOfMag stepsOf stepOf
  split
  · next h => rw [h]; simp
  · next h => congr 1; omega

theorem stepsOf_add_step (m : Nat) : stepOf m * 2 ^ 52 + stepsOf m = m := by
  unfold stepsOf stepOf; omega

theorem stepsOf_lt (m : Nat) : stepsOf m < 2 ^ 53 := by unfold stepsOf stepOf; omega

theorem stepsOf_ge {m : Nat} (h : 0 < stepOf m) : 2 ^ 52 ≤ stepsOf m := by
  unfold stepsOf; unfold stepOf at *; omega

theorem unitsOfMag_succ_lt (m : Nat) : unitsOfMag m < unitsOfMag (m + 1) := by
  rw [unitsOfMag_eq, unitsOfMag_eq]
  have h1 := stepsOf_add_step m
  have h2 := stepsOf_add_step (m + 1)
  have h3 := stepsOf_lt m
  have hs : stepOf (m + 1) = stepOf m ∨ stepOf (m + 1) = stepOf m + 1 := by unfold stepOf; omega
  have hp : 0 < 2 ^ stepOf m := by positivity
  rcases hs with hs | hs
  · rw [hs] at h2 ⊢
    exact Nat.mul_lt_mul_of_pos_right (by omega) hp
  · have h4 : 2 ^ 52 ≤ stepsOf (m + 1) := stepsOf_ge (by omega)
    rw [hs] at h2 ⊢
    rw [pow_succ]
    nlinarith [hp, h3, h4]

theorem unitsOfMag_strictMono : StrictMono unitsOfMag := strictMono_nat_of_lt_succ unitsOfMag_succ_lt

theorem unitsOfMag_zero : unitsOfMag 0 = 0 := by decide

theorem units_eq_zero {x : F64} : units x = 0 ↔ mag x = 0 := by
  unfold units
  rw [← unitsOfMag_zero]
  exact unitsOfMag_strictMono.injective.eq_iff

/-! Rounding -/

theorem nearestEven_bounds (p : Nat) {d : Nat} (hd : 0 < d) :
    2 * p ≤ (2 * nearestEven p d + 1) * d ∧ 2 * nearestEven p d * d ≤ 2 * p + d := by
  have hdiv := Nat.div_add_mod p d
  have hlt := Nat.mod_lt p hd
  have hc : p / d * d = d * (p / d) := Nat.mul_comm _ _
  have hr0 : 0 ≤ p % d := Nat.zero_le _
  unfold nearestEven
  split
  · constructor <;> linarith
  · split
    · constructor <;> linarith
    · have hr : 2 * (p % d) = d := by omega
      rcases Nat.mod_two_eq_zero_or_one (p / d) with h | h <;> rw [h] <;> constructor <;> linarith

theorem nearestEven_tie {p d k : Nat} (hd : 0 < d) (h : 2 * p = (2 * k + 1) * d) : nearestEven p d % 2 = 0 := by
  have hdr : d % 2 = 0 := by
    have : (2 * p) % 2 = ((2 * k + 1) * d) % 2 := by rw [h]
    rw [Nat.mul_mod_right, Nat.mul_mod] at this
    have h1 : (2 * k + 1) % 2 = 1 := by omega
    rw [h1] at this; omega
  obtain ⟨r, rfl⟩ : ∃ r, d = 2 * r := ⟨d / 2, by omega⟩
  have hp : p = r + 2 * r * k := by nlinarith
  have hm : p % (2 * r) = r := by rw [hp, Nat.add_mul_mod_self_left, Nat.mod_eq_of_lt (by omega)]
  unfold nearestEven
  rw [hm, if_neg (by omega), if_neg (by omega)]
  omega

theorem nearestEven_mul_left (n : Nat) {d : Nat} (hd : 0 < d) : nearestEven (n * d) d = n := by
  unfold nearestEven
  simp [hd]

/-- The rounding to an integer is monotone in the ratio. -/
theorem nearestEven_mono {p d p' d' : Nat} (hd : 0 < d) (hd' : 0 < d') (h : p * d' ≤ p' * d) :
    nearestEven p d ≤ nearestEven p' d' := by
  by_contra hlt
  rw [Nat.not_le] at hlt
  obtain ⟨h1, h2⟩ := nearestEven_bounds p hd
  obtain ⟨h3, h4⟩ := nearestEven_bounds p' hd'
  generalize hn : nearestEven p d = n at *
  generalize hn' : nearestEven p' d' = n' at *
  have hdd : 0 < d * d' := Nat.mul_pos hd hd'
  have hle : 2 * n * (d * d') ≤ (2 * n' + 2) * (d * d') := by
    calc 2 * n * (d * d') = (2 * n * d) * d' := by ring
      _ ≤ (2 * p + d) * d' := Nat.mul_le_mul_right _ h2
      _ = 2 * (p * d') + d * d' := by ring
      _ ≤ 2 * (p' * d) + d * d' := by omega
      _ = (2 * p') * d + d * d' := by ring
      _ ≤ ((2 * n' + 1) * d') * d + d * d' := by
        have := Nat.mul_le_mul_right d h3; omega
      _ = (2 * n' + 2) * (d * d') := by ring
  have hn1 : n = n' + 1 := by
    have := Nat.le_of_mul_le_mul_right hle hdd; omega
  subst hn1
  -- both roundings are ties
  have e1 : 2 * (n' + 1) * d = 2 * p + d := by
    by_contra hne
    have hlt' : 2 * (n' + 1) * d + 1 ≤ 2 * p + d := by omega
    have : (2 * (n' + 1) * d + 1) * d' ≤ (2 * n' + 2) * (d * d') := by
      calc (2 * (n' + 1) * d + 1) * d' ≤ (2 * p + d) * d' := Nat.mul_le_mul_right _ hlt'
        _ = 2 * (p * d') + d * d' := by ring
        _ ≤ 2 * (p' * d) + d * d' := by omega
        _ = (2 * p') * d + d * d' := by ring
        _ ≤ ((2 * n' + 1) * d') * d + d * d' := by
          have := Nat.mul_le_mul_right d h3; omega
        _ = (2 * n' + 2) * (d * d') := by ring
    nlinarith
  have e2 : 2 * p' = (2 * n' + 1) * d' := by
    by_contra hne
    have hlt' : 2 * p' + 1 ≤ (2 * n' + 1) * d' := by omega
    have : 2 * (n' + 1) * d * d' + d ≤ (2 * n' + 2) * (d * d') := by
      calc 2 * (n' + 1) * d * d' + d = (2 * p + d) * d' + d := by rw [e1]
        _ = 2 * (p * d') + d * d' + d := by ring
        _ ≤ 2 * (p' * d) + d * d' + d := by omega
        _ = (2 * p' + 1) * d + d * d' := by ring
        _ ≤ ((2 * n' + 1) * d') * d + d * d' := by
          have := Nat.mul_le_mul_right d hlt'; omega
        _ = (2 * n' + 2) * (d * d') := by ring
    nlinarith
  have t1 := nearestEven_tie (p := p) (k := n') hd (by linarith)
  have t2 := nearestEven_tie (p := p') (k := n') hd' (by linarith)
  omega

theorem nearestEven_le_of_le {p d n : Nat} (hd : 0 < d) (h : p ≤ n * d) : nearestEven p d ≤ n := by
  have := nearestEven_mono (p := p) (d := d) (p' := n * d) (d' := d) hd hd (Nat.mul_le_mul_right _ h)
  rwa [nearestEven_mul_left n hd] at this

theorem le_nearestEven_of_le {p d n : Nat} (hd : 0 < d) (h : n * d ≤ p) : n ≤ nearestEven p d := by
  have := nearestEven_mono (p := n * d) (d := d) (p' := p) (d' := d) hd hd (Nat.mul_le_mul_right _ h)
  rwa [nearestEven_mul_left n hd] at this

/-- The exponent step that a value of `p / d` units rounds at. -/
def roundStep (p d : Nat) : Nat := Nat.log2 (p / d) - 52

theorem roundMag_eq (p d : Nat) :
    roundMag p d = Nat.min (roundStep p d * 2 ^ 52 + nearestEven p (d * 2 ^ roundStep p d)) infMag := rfl

theorem roundMag_le_infMag (p d : Nat) : roundMag p d ≤ infMag := Nat.min_le_right _ _

theorem roundMag_lt (p d : Nat) : roundMag p d < 2 ^ 63 := lt_of_le_of_lt (roundMag_le_infMag p d) infMag_lt

/-- The rounded count of grid steps stays within its binade. -/
theorem nearestEven_roundStep_le {p d : Nat} (hd : 0 < d) : nearestEven p (d * 2 ^ roundStep p d) ≤ 2 ^ 53 := by
  apply nearestEven_le_of_le (by positivity)
  have h1 : p / d < 2 ^ (Nat.log2 (p / d) + 1) := Nat.lt_log2_self
  have h2 : Nat.log2 (p / d) + 1 ≤ 53 + roundStep p d := by unfold roundStep; omega
  have h3 : p / d < 2 ^ (53 + roundStep p d) := lt_of_lt_of_le h1 (Nat.pow_le_pow_right (by norm_num) h2)
  have h4 : p < 2 ^ (53 + roundStep p d) * d := by rwa [Nat.div_lt_iff_lt_mul hd] at h3
  calc p ≤ 2 ^ (53 + roundStep p d) * d := h4.le
    _ = 2 ^ 53 * (d * 2 ^ roundStep p d) := by rw [pow_add]; ring

theorem le_nearestEven_roundStep {p d : Nat} (hd : 0 < d) (h : 0 < roundStep p d) :
    2 ^ 52 ≤ nearestEven p (d * 2 ^ roundStep p d) := by
  apply le_nearestEven_of_le (by positivity)
  have hne : p / d ≠ 0 := by
    intro h0; unfold roundStep at h; rw [h0] at h; simp at h
  have h1 : 2 ^ Nat.log2 (p / d) ≤ p / d := Nat.log2_self_le hne
  have h2 : Nat.log2 (p / d) = 52 + roundStep p d := by unfold roundStep at *; omega
  rw [h2] at h1
  have h3 : 2 ^ (52 + roundStep p d) * d ≤ p := by rwa [Nat.le_div_iff_mul_le hd] at h1
  calc 2 ^ 52 * (d * 2 ^ roundStep p d) = 2 ^ (52 + roundStep p d) * d := by rw [pow_add]; ring
    _ ≤ p := h3

theorem log2_mono {a b : Nat} (h : a ≤ b) : Nat.log2 a ≤ Nat.log2 b := by
  rw [Nat.log2_eq_log_two, Nat.log2_eq_log_two]; exact Nat.log_mono_right h

/-- Rounding is monotone in the exact value. -/
theorem roundMag_mono {p d p' d' : Nat} (hd : 0 < d) (hd' : 0 < d') (h : p * d' ≤ p' * d) :
    roundMag p d ≤ roundMag p' d' := by
  have hq : p / d ≤ p' / d' := by
    rw [Nat.le_div_iff_mul_le hd']
    by_contra hlt
    rw [Nat.not_le] at hlt
    have h1 := Nat.div_mul_le_self p d
    have h2 : p' * d < p / d * d' * d := Nat.mul_lt_mul_of_pos_right hlt hd
    have h3 : p / d * d * d' ≤ p * d' := Nat.mul_le_mul_right _ h1
    have h4 : p / d * d' * d = p / d * d * d' := by ring
    omega
  have he : roundStep p d ≤ roundStep p' d' := by
    have := log2_mono hq
    unfold roundStep; omega
  rw [roundMag_eq, roundMag_eq]
  apply Nat.le_min.2
  refine ⟨le_trans (Nat.min_le_left _ _) ?_, Nat.min_le_right _ _⟩
  rcases Nat.lt_or_eq_of_le he with hlt | heq
  · have h1 := nearestEven_roundStep_le (p := p) hd
    have h2 := le_nearestEven_roundStep (p := p') hd' (by omega)
    omega
  · rw [heq]
    have := nearestEven_mono (p := p) (d := d * 2 ^ roundStep p' d') (p' := p') (d' := d' * 2 ^ roundStep p' d')
      (by positivity) (by positivity) (by
        calc p * (d' * 2 ^ roundStep p' d') = p * d' * 2 ^ roundStep p' d' := by ring
          _ ≤ p' * d * 2 ^ roundStep p' d' := Nat.mul_le_mul_right _ h
          _ = p' * (d * 2 ^ roundStep p' d') := by ring)
    omega

/-- A representable value is not rounded. -/
theorem roundMag_exact {m d : Nat} (hd : 0 < d) (hm : m ≤ infMag) : roundMag (unitsOfMag m * d) d = m := by
  have hs : roundStep (unitsOfMag m * d) d = stepOf m := by
    unfold roundStep
    rw [Nat.mul_div_cancel _ hd, unitsOfMag_eq]
    rcases Nat.eq_zero_or_pos (stepOf m) with h0 | hpos
    · rw [h0, pow_zero, mul_one]
      have h1 : stepsOf m < 2 ^ 53 := stepsOf_lt m
      rcases Nat.eq_zero_or_pos (stepsOf m) with hz | hz
      · rw [hz]; simp
      · have : Nat.log2 (stepsOf m) < 53 := (Nat.log2_lt (by omega)).2 h1
        omega
    · have h1 := stepsOf_lt m
      have h2 := stepsOf_ge hpos
      have hne : stepsOf m * 2 ^ stepOf m ≠ 0 := by
        have : 0 < 2 ^ stepOf m := by positivity
        exact Nat.mul_ne_zero (by omega) (by omega)
      have hlo : 52 + stepOf m ≤ Nat.log2 (stepsOf m * 2 ^ stepOf m) := by
        rw [Nat.le_log2 hne, pow_add]; exact Nat.mul_le_mul_right _ h2
      have hhi : Nat.log2 (stepsOf m * 2 ^ stepOf m) < 53 + stepOf m := by
        rw [Nat.log2_lt hne, pow_add]; exact Nat.mul_lt_mul_of_pos_right h1 (by positivity)
      omega
  rw [roundMag_eq, hs]
  have : unitsOfMag m * d = stepsOf m * (d * 2 ^ stepOf m) := by rw [unitsOfMag_eq]; ring
  rw [this, nearestEven_mul_left _ (by positivity), stepsOf_add_step]
  exact Nat.min_eq_left hm

theorem roundMag_le_of_le {p d m : Nat} (hd : 0 < d) (hm : m ≤ infMag) (h : p ≤ unitsOfMag m * d) : roundMag p d ≤ m := by
  have := roundMag_mono (p := p) (d := d) (p' := unitsOfMag m * d) (d' := d) hd hd (Nat.mul_le_mul_right _ h)
  rwa [roundMag_exact hd hm] at this

theorem le_roundMag_of_le {p d m : Nat} (hd : 0 < d) (hm : m ≤ infMag) (h : unitsOfMag m * d ≤ p) : m ≤ roundMag p d := by
  have := roundMag_mono (p := unitsOfMag m * d) (d := d) (p' := p) (d' := d) hd hd (Nat.mul_le_mul_right _ h)
  rwa [roundMag_exact hd hm] at this

theorem roundMag_zero (d : Nat) : roundMag 0 d = 0 := by
  simp [roundMag, nearestEven]

/-! Kinds of values -/

theorem isNaN_false_iff {x : F64} : isNaN x = false ↔ mag x ≤ infMag := by simp [isNaN]

theorem isFinite_iff {x : F64} : isFinite x = true ↔ mag x < infMag := by simp [isFinite]

theorem isFinite_false_iff {x : F64} : isFinite x = false ↔ infMag ≤ mag x := by simp [isFinite]

theorem isInf_iff {x : F64} : isInf x = true ↔ mag x = infMag := by simp [isInf]

theorem isNaN_of_finite {x : F64} (h : isFinite x = true) : isNaN x = false := by
  rw [isFinite_iff] at h; rw [isNaN_false_iff]; exact h.le

theorem isInf_of_finite {x : F64} (h : isFinite x = true) : isInf x = false := by
  rw [isFinite_iff] at h; simp [isInf]; omega

theorem isNaN_ofMag {b : Bool} {m : Nat} (h : m ≤ infMag) : isNaN (ofMag b m) = false := by
  rw [isNaN_false_iff, mag_ofMag _ (lt_of_le_of_lt h infMag_lt)]; exact h

theorem isFinite_ofMag {b : Bool} {m : Nat} (h : m < infMag) : isFinite (ofMag b m) = true := by
  rw [isFinite_iff, mag_ofMag _ (lt_trans h infMag_lt)]; exact h

/-! Values -/

theorem value_eq (x : F64) : value x = if sign x then -(unitsOfMag (mag x) : Int) else unitsOfMag (mag x) := rfl

theorem value_of_sign_false {x : F64} (h : sign x = false) : value x = unitsOfMag (mag x) := by simp [value_eq, h]

theorem value_of_sign_true {x : F64} (h : sign x = true) : value x = -(unitsOfMag (mag x) : Int) := by simp [value_eq, h]

theorem natAbs_value (x : F64) : (value x).natAbs = units x := by
  rw [value_eq]; split <;> simp [units]

theorem value_ofMag {b : Bool} {m : Nat} (h : m < 2 ^ 63) :
    value (ofMag b m) = if b then -(unitsOfMag m : Int) else unitsOfMag m := by
  rw [value_eq, sign_ofMag b h, mag_ofMag b h]

theorem value_eq_zero {x : F64} : value x = 0 ↔ mag x = 0 := by
  rw [← units_eq_zero, ← natAbs_value, Int.natAbs_eq_zero]

theorem value_nonneg_of_sign_false {x : F64} (h : sign x = false) : 0 ≤ value x := by
  rw [value_of_sign_false h]; positivity

/-- The order of the places is the order of the values. -/
theorem rank_le_iff (x y : F64) : rank x ≤ rank y ↔ value x ≤ value y := by
  have hm := unitsOfMag_strictMono
  have hz : ∀ m, unitsOfMag m = 0 ↔ m = 0 := fun m => by
    rw [← unitsOfMag_zero]; exact hm.injective.eq_iff
  have h1 := hm.le_iff_le (a := mag x) (b := mag y)
  have h2 := hm.le_iff_le (a := mag y) (b := mag x)
  have h3 := hz (mag x)
  have h4 := hz (mag y)
  simp only [rank, value_eq]
  rcases sign x <;> rcases sign y <;> simp only [reduceIte, Bool.false_eq_true] <;> omega

theorem rank_lt_iff (x y : F64) : rank x < rank y ↔ value x < value y := by
  have := rank_le_iff y x
  omega

theorem rank_eq_iff (x y : F64) : rank x = rank y ↔ value x = value y := by
  have h1 := rank_le_iff y x
  have h2 := rank_le_iff x y
  omega

theorem le_iff {x y : F64} (hx : isNaN x = false) (hy : isNaN y = false) : le x y = true ↔ value x ≤ value y := by
  simp [le, hx, hy, rank_le_iff]

theorem lt_iff {x y : F64} (hx : isNaN x = false) (hy : isNaN y = false) : lt x y = true ↔ value x < value y := by
  simp [lt, hx, hy, rank_lt_iff]

theorem eq_iff {x y : F64} (hx : isNaN x = false) (hy : isNaN y = false) : eq x y = true ↔ value x = value y := by
  simp [eq, hx, hy, rank_eq_iff]

/-- Values with the same sign bit are equal as soon as they have the same value. -/
theorem eq_of_value {x y : F64} (hs : sign x = sign y) (hv : value x = value y) : x = y := by
  rw [eq_iff_sign_mag]
  refine ⟨hs, unitsOfMag_strictMono.injective ?_⟩
  rw [value_eq, value_eq, hs] at hv
  split at hv <;> omega

/-- A value between two finite ones is finite. -/
theorem isFinite_of_bounds {x lo hi : F64} (hlo : isFinite lo = true) (hhi : isFinite hi = true) (h1 : value lo ≤ value x)
    (h2 : value x ≤ value hi) : isFinite x = true := by
  rw [isFinite_iff] at *
  have hm := unitsOfMag_strictMono
  rw [← hm.lt_iff_lt] at *
  generalize unitsOfMag infMag = top at *
  have hi0 : 0 ≤ (unitsOfMag (mag x) : Int) := by positivity
  have hl0 : 0 ≤ (unitsOfMag (mag lo) : Int) := by positivity
  have hh0 : 0 ≤ (unitsOfMag (mag hi) : Int) := by positivity
  simp only [value_eq] at h1 h2
  rcases hsx : sign x <;> rcases hsl : sign lo <;> rcases hsh : sign hi <;>
    simp only [hsx, hsl, hsh, reduceIte, Bool.false_eq_true] at h1 h2 <;> omega

/-! Rounded results -/

/-- The binary64 value nearest to `n / d` units, with a chosen sign for zero. -/
def rounded (negative : Bool) (n d : Nat) : F64 := ofMag negative (roundMag n d)

theorem isNaN_rounded (b : Bool) (n d : Nat) : isNaN (rounded b n d) = false := isNaN_ofMag (roundMag_le_infMag n d)

theorem sign_rounded (b : Bool) (n d : Nat) : sign (rounded b n d) = b := sign_ofMag b (roundMag_lt n d)

theorem mag_rounded (b : Bool) (n d : Nat) : mag (rounded b n d) = roundMag n d := mag_ofMag b (roundMag_lt n d)

/-- The exact value a sign and a magnitude ratio stand for, times the denominator. -/
def signed (b : Bool) (n : Nat) : Int := if b then -(n : Int) else n

theorem value_rounded_le {b : Bool} {n d : Nat} {c : F64} (hd : 0 < d) (hc : isNaN c = false)
    (h : signed b n ≤ value c * d) : value (rounded b n d) ≤ value c := by
  rw [isNaN_false_iff] at hc
  rw [rounded, value_ofMag (roundMag_lt n d)]
  have hm := unitsOfMag_strictMono.monotone
  have hu0 : 0 ≤ (unitsOfMag (roundMag n d) : Int) := by positivity
  cases hsc : sign c
  · rw [value_of_sign_false hsc] at h ⊢
    cases b
    · simp only [signed, Bool.false_eq_true, reduceIte] at h ⊢
      exact_mod_cast hm (roundMag_le_of_le hd hc (by exact_mod_cast h))
    · simp only [reduceIte]; omega
  · rw [value_of_sign_true hsc] at h ⊢
    cases b
    · simp only [signed, Bool.false_eq_true, reduceIte] at h ⊢
      have hz : (unitsOfMag (mag c) : Int) * d ≤ 0 := by
        have : (0:Int) ≤ n := by positivity
        linarith
      have hz' : unitsOfMag (mag c) * d = 0 := by
        have : unitsOfMag (mag c) * d ≤ 0 := by exact_mod_cast hz
        omega
      have hn : n = 0 := by
        have h' : (n : Int) ≤ -((unitsOfMag (mag c) * d : Nat) : Int) := by push_cast; linarith
        rw [hz'] at h'; omega
      have hc0 : unitsOfMag (mag c) = 0 := by
        rcases Nat.mul_eq_zero.1 hz' with h0 | h0 <;> omega
      rw [hn, roundMag_zero, unitsOfMag_zero, hc0]; simp
    · simp only [signed, reduceIte] at h ⊢
      have h' : unitsOfMag (mag c) * d ≤ n := by
        have : ((unitsOfMag (mag c) * d : Nat) : Int) ≤ n := by push_cast; linarith
        exact_mod_cast this
      have := hm (le_roundMag_of_le hd hc h')
      omega

theorem value_neg (x : F64) : value (neg x) = -value x := by
  rw [neg, value_ofMag (mag_lt x), value_eq]
  cases sign x <;> simp

theorem isNaN_neg (x : F64) : isNaN (neg x) = isNaN x := by simp [isNaN, neg, mag_ofMag _ (mag_lt x)]

theorem isFinite_neg (x : F64) : isFinite (neg x) = isFinite x := by simp [isFinite, neg, mag_ofMag _ (mag_lt x)]

theorem sign_neg (x : F64) : sign (neg x) = !sign x := by rw [neg, sign_ofMag _ (mag_lt x)]

theorem le_value_rounded {b : Bool} {n d : Nat} {c : F64} (hd : 0 < d) (hc : isNaN c = false)
    (h : value c * d ≤ signed b n) : value c ≤ value (rounded b n d) := by
  have h1 : signed (!b) n ≤ value (neg c) * d := by
    rw [value_neg]; cases b <;> simp [signed] at * <;> linarith
  have h2 := value_rounded_le hd (by rw [isNaN_neg]; exact hc) h1
  rw [value_neg] at h2
  rw [rounded, value_ofMag (roundMag_lt n d)] at *
  cases b <;> simp at * <;> omega

/-! Sums -/

theorem add_of_finite {a b : F64} (ha : isFinite a = true) (hb : isFinite b = true) :
    add a b = if value a + value b = 0 then ofMag (sign a && sign b) 0
      else rounded (decide (value a + value b < 0)) (value a + value b).natAbs 1 := by
  simp [add, isNaN_of_finite ha, isNaN_of_finite hb, isInf_of_finite ha, isInf_of_finite hb, rounded]

theorem signed_natAbs (n : Int) : signed (decide (n < 0)) n.natAbs = n := by
  unfold signed
  split
  · next h => rw [decide_eq_true_eq] at h; omega
  · next h => rw [decide_eq_true_eq] at h; omega

theorem isNaN_add_of_finite {a b : F64} (ha : isFinite a = true) (hb : isFinite b = true) : isNaN (add a b) = false := by
  rw [add_of_finite ha hb]
  split
  · exact isNaN_ofMag (Nat.zero_le _)
  · exact isNaN_rounded _ _ _

theorem value_add_le {a b c : F64} (ha : isFinite a = true) (hb : isFinite b = true) (hc : isNaN c = false)
    (h : value a + value b ≤ value c) : value (add a b) ≤ value c := by
  rw [add_of_finite ha hb]
  split
  · next h0 =>
    rw [value_ofMag (by norm_num), unitsOfMag_zero]; simp; omega
  · apply value_rounded_le Nat.one_pos hc
    rw [signed_natAbs]; simpa using h

theorem le_value_add {a b c : F64} (ha : isFinite a = true) (hb : isFinite b = true) (hc : isNaN c = false)
    (h : value c ≤ value a + value b) : value c ≤ value (add a b) := by
  rw [add_of_finite ha hb]
  split
  · next h0 =>
    rw [value_ofMag (by norm_num), unitsOfMag_zero]; simp; omega
  · apply le_value_rounded Nat.one_pos hc
    rw [signed_natAbs]; simpa using h

/-- A sum that is representable is exact. -/
theorem value_add_exact {a b c : F64} (ha : isFinite a = true) (hb : isFinite b = true) (hc : isNaN c = false)
    (h : value a + value b = value c) : value (add a b) = value c :=
  le_antisymm (value_add_le ha hb hc h.le) (le_value_add ha hb hc h.ge)

theorem sign_add_of_nonneg {a b : F64} (ha : isFinite a = true) (hb : isFinite b = true) (h : 0 ≤ value a + value b)
    (hs : sign a = false ∨ sign b = false) : sign (add a b) = false := by
  rw [add_of_finite ha hb]
  split
  · rw [sign_ofMag _ (by norm_num)]; rcases hs with hs | hs <;> simp [hs]
  · rw [sign_rounded]; simpa using h

/-- A finite value plus a value that is no NaN is no NaN. -/
theorem isNaN_add {a b : F64} (ha : isFinite a = true) (hb : isNaN b = false) : isNaN (add a b) = false := by
  by_cases hf : isFinite b = true
  · exact isNaN_add_of_finite ha hf
  · have hi : isInf b = true := by
      simp only [Bool.not_eq_true] at hf
      rw [isFinite_false_iff] at hf
      rw [isNaN_false_iff] at hb
      rw [isInf_iff]; omega
    simp only [add, isNaN_of_finite ha, hb, isInf_of_finite ha, hi]
    simpa using hb

theorem isNaN_add_comm_side {a b : F64} (ha : isNaN a = false) (hb : isFinite b = true) : isNaN (add a b) = false := by
  by_cases hf : isFinite a = true
  · exact isNaN_add_of_finite hf hb
  · have hi : isInf a = true := by
      simp only [Bool.not_eq_true] at hf
      rw [isFinite_false_iff] at hf
      rw [isNaN_false_iff] at ha
      rw [isInf_iff]; omega
    simp only [add, ha, isNaN_of_finite hb, isInf_of_finite hb, hi]
    simpa using ha

/-! Products and quotients -/

theorem oneUnits_pos : 0 < oneUnits := by unfold oneUnits; positivity

theorem mul_of_finite {a b : F64} (ha : isFinite a = true) (hb : isFinite b = true) :
    mul a b = rounded (sign a != sign b) (units a * units b) oneUnits := by
  simp [mul, isNaN_of_finite ha, isNaN_of_finite hb, isInf_of_finite ha, isInf_of_finite hb, rounded]

theorem signed_mul (a b : F64) : signed (sign a != sign b) (units a * units b) = value a * value b := by
  simp only [value, signed]
  cases sign a <;> cases sign b <;> simp

theorem isNaN_mul_of_finite {a b : F64} (ha : isFinite a = true) (hb : isFinite b = true) : isNaN (mul a b) = false := by
  rw [mul_of_finite ha hb]; exact isNaN_rounded _ _ _

theorem sign_mul_of_finite {a b : F64} (ha : isFinite a = true) (hb : isFinite b = true) :
    sign (mul a b) = (sign a != sign b) := by
  rw [mul_of_finite ha hb, sign_rounded]

theorem value_mul_le {a b c : F64} (ha : isFinite a = true) (hb : isFinite b = true) (hc : isNaN c = false)
    (h : value a * value b ≤ value c * oneUnits) : value (mul a b) ≤ value c := by
  rw [mul_of_finite ha hb]
  exact value_rounded_le oneUnits_pos hc (by rw [signed_mul]; exact h)

theorem le_value_mul {a b c : F64} (ha : isFinite a = true) (hb : isFinite b = true) (hc : isNaN c = false)
    (h : value c * oneUnits ≤ value a * value b) : value c ≤ value (mul a b) := by
  rw [mul_of_finite ha hb]
  exact le_value_rounded oneUnits_pos hc (by rw [signed_mul]; exact h)

theorem div_of_finite {a b : F64} (ha : isFinite a = true) (hb : isFinite b = true) (h0 : value b ≠ 0) :
    div a b = rounded (sign a != sign b) (units a * oneUnits) (units b) := by
  have h0' : units b ≠ 0 := by rw [← natAbs_value]; omega
  simp [div, isNaN_of_finite ha, isNaN_of_finite hb, isInf_of_finite ha, isInf_of_finite hb, rounded, h0']

theorem sign_div_of_finite {a b : F64} (ha : isFinite a = true) (hb : isFinite b = true) (h0 : value b ≠ 0) :
    sign (div a b) = (sign a != sign b) := by
  rw [div_of_finite ha hb h0, sign_rounded]

/-- A quotient of finite values is a NaN only for 0/0. -/
theorem isNaN_div_of_finite {a b : F64} (ha : isFinite a = true) (hb : isFinite b = true) (h0 : value a ≠ 0 ∨ value b ≠ 0) :
    isNaN (div a b) = false := by
  by_cases hb0 : value b = 0
  · have ha0 : units a ≠ 0 := by rw [← natAbs_value]; omega
    have hb1 : units b = 0 := by rw [← natAbs_value]; omega
    simp only [div, isNaN_of_finite ha, isNaN_of_finite hb, isInf_of_finite ha, isInf_of_finite hb, hb1, ha0]
    simpa using isNaN_ofMag le_rfl
  · rw [div_of_finite ha hb hb0]; exact isNaN_rounded _ _ _

theorem signed_scaled (a : F64) (k : Nat) : signed (sign a != false) (units a * k) = value a * k := by
  simp only [signed, value]; cases sign a <;> simp

theorem value_div_le {a b c : F64} (ha : isFinite a = true) (hb : isFinite b = true) (hc : isNaN c = false)
    (hb0 : 0 < value b) (h : value a * oneUnits ≤ value c * value b) : value (div a b) ≤ value c := by
  have hsb : sign b = false := by
    by_contra hs
    rw [Bool.not_eq_false] at hs
    rw [value_of_sign_true hs] at hb0
    have : (0:Int) ≤ unitsOfMag (mag b) := by positivity
    omega
  have hu : (units b : Int) = value b := by rw [value_of_sign_false hsb]; rfl
  rw [div_of_finite ha hb (by omega)]
  apply value_rounded_le (by omega) hc
  rw [hu, hsb]
  rw [signed_scaled]; exact h

theorem le_value_div {a b c : F64} (ha : isFinite a = true) (hb : isFinite b = true) (hc : isNaN c = false)
    (hb0 : 0 < value b) (h : value c * value b ≤ value a * oneUnits) : value c ≤ value (div a b) := by
  have hsb : sign b = false := by
    by_contra hs
    rw [Bool.not_eq_false] at hs
    rw [value_of_sign_true hs] at hb0
    have : (0:Int) ≤ unitsOfMag (mag b) := by positivity
    omega
  have hu : (units b : Int) = value b := by rw [value_of_sign_false hsb]; rfl
  rw [div_of_finite ha hb (by omega)]
  apply le_value_rounded (by omega) hc
  rw [hu, hsb]
  rw [signed_scaled]; exact h

/-! clamp and the exact remainder -/

theorem value_zero : value zero = 0 := by decide
theorem sign_zero : sign zero = false := by decide
theorem value_one : value one = oneUnits := by decide +kernel

/-- A clamped value that is no NaN lies between the bounds. -/
theorem clamp_bounds {x lo hi : F64} (hx : isNaN x = false) (hlo : isNaN lo = false) (hhi : isNaN hi = false)
    (h : value lo ≤ value hi) :
    isNaN (clamp x lo hi) = false ∧ value lo ≤ value (clamp x lo hi) ∧ value (clamp x lo hi) ≤ value hi := by
  unfold clamp
  split
  · exact ⟨hlo, le_refl _, h⟩
  · next h1 =>
    rw [le_iff hx hlo] at h1
    split
    · exact ⟨hhi, h, le_refl _⟩
    · next h2 =>
      rw [le_iff hhi hx] at h2
      exact ⟨hx, by omega, by omega⟩

/-- A clamp at +0.0 never gives -0.0 or a negative value. -/
theorem sign_clamp_zero {x hi : F64} (hx : isNaN x = false) (hhi : sign hi = false) : sign (clamp x zero hi) = false := by
  unfold clamp
  split
  · exact sign_zero
  · next h1 =>
    rw [le_iff hx (by decide), value_zero] at h1
    split
    · exact hhi
    · by_contra hs
      rw [Bool.not_eq_false] at hs
      rw [value_of_sign_true hs] at h1
      have : (0:Int) ≤ unitsOfMag (mag x) := by positivity
      omega

/-- A value inside the bounds is not changed by a clamp. -/
theorem clamp_of_inside {x lo hi : F64} (hx : isNaN x = false) (hlo : isNaN lo = false) (hhi : isNaN hi = false)
    (h1 : value lo < value x) (h2 : value x < value hi) : clamp x lo hi = x := by
  have g1 : le x lo = false := by
    rw [Bool.eq_false_iff]; intro h; rw [le_iff hx hlo] at h; omega
  have g2 : le hi x = false := by
    rw [Bool.eq_false_iff]; intro h; rw [le_iff hhi hx] at h; omega
  simp [clamp, g1, g2]

/-- Every count of fewer than 2^53 grid steps is representable. -/
theorem exists_mag (e : Nat) : ∀ t, t < 2 ^ 53 → ∃ m, unitsOfMag m = t * 2 ^ e := by
  induction e with
  | zero =>
    intro t ht
    refine ⟨t, ?_⟩
    have h1 : stepOf t = 0 := by unfold stepOf; omega
    rw [unitsOfMag_eq, stepsOf, h1]; simp
  | succ e ih =>
    intro t ht
    by_cases h : t < 2 ^ 52
    · obtain ⟨m, hm⟩ := ih (2 * t) (by omega)
      exact ⟨m, by rw [hm, pow_succ]; ring⟩
    · refine ⟨(e + 1) * 2 ^ 52 + t, ?_⟩
      have h1 : stepOf ((e + 1) * 2 ^ 52 + t) = e + 1 := by unfold stepOf; omega
      rw [unitsOfMag_eq, stepsOf, h1]
      congr 1; omega

theorem exists_mag_mod (m m' : Nat) (h : 0 < unitsOfMag m') :
    ∃ r, unitsOfMag r = unitsOfMag m % unitsOfMag m' := by
  have hlt := Nat.mod_lt (unitsOfMag m) h
  have hle := Nat.mod_le (unitsOfMag m) (unitsOfMag m')
  rw [unitsOfMag_eq m, unitsOfMag_eq m'] at *
  have aux : ∀ e, 2 ^ e ∣ stepsOf m * 2 ^ stepOf m → 2 ^ e ∣ stepsOf m' * 2 ^ stepOf m' →
      stepsOf m * 2 ^ stepOf m % (stepsOf m' * 2 ^ stepOf m') < 2 ^ 53 * 2 ^ e →
      ∃ r, unitsOfMag r = stepsOf m * 2 ^ stepOf m % (stepsOf m' * 2 ^ stepOf m') := by
    intro e h1 h2 h3
    obtain ⟨t, ht⟩ := (Nat.dvd_mod_iff h2).2 h1
    obtain ⟨r, hr⟩ := exists_mag e t (by
      rw [ht, Nat.mul_comm] at h3
      exact Nat.lt_of_mul_lt_mul_right h3)
    exact ⟨r, by rw [hr, ht, Nat.mul_comm]⟩
  rcases Nat.le_total (stepOf m') (stepOf m) with hc | hc
  · refine aux (stepOf m') ((pow_dvd_pow 2 hc).mul_left _) (Dvd.intro_left _ rfl) (lt_trans hlt ?_)
    exact Nat.mul_lt_mul_of_pos_right (stepsOf_lt m') (by positivity)
  · refine aux (stepOf m) (Dvd.intro_left _ rfl) ((pow_dvd_pow 2 hc).mul_left _) (lt_of_le_of_lt hle ?_)
    exact Nat.mul_lt_mul_of_pos_right (stepsOf_lt m) (by positivity)

/-- The remainder of finite values is exact: it does not round. -/
theorem fmod_exact {x y : F64} (hx : isFinite x = true) (hy : isFinite y = true) (h0 : 0 ≤ value x) (hpos : 0 < value y) :
    isFinite (fmod x y) = true ∧ sign (fmod x y) = false ∧ value (fmod x y) = value x % value y := by
  have hux : (units x : Int) = value x := by rw [← natAbs_value]; omega
  have huy : (units y : Int) = value y := by rw [← natAbs_value]; omega
  have hle : le zero x = true := by rw [le_iff (by decide) (isNaN_of_finite hx), value_zero]; exact h0
  have hlt : lt zero y = true := by rw [lt_iff (by decide) (isNaN_of_finite hy), value_zero]; exact hpos
  have hf : fmod x y = rounded false (units x % units y) 1 := by simp [fmod, hx, hy, hle, hlt, rounded]
  have hy0 : 0 < units y := by omega
  obtain ⟨r, hr⟩ := exists_mag_mod (mag x) (mag y) hy0
  have hr' : unitsOfMag r = units x % units y := hr
  rw [isFinite_iff] at hy
  have hrlt : r < mag y := by
    rw [← unitsOfMag_strictMono.lt_iff_lt, hr]; exact Nat.mod_lt _ hy0
  have hrt : roundMag (units x % units y) 1 = r := by
    rw [← hr', ← Nat.mul_one (unitsOfMag r)]; exact roundMag_exact Nat.one_pos (by omega)
  rw [hf, rounded, hrt]
  have h63 : r < 2 ^ 63 := lt_trans hrlt (mag_lt y)
  refine ⟨isFinite_ofMag (lt_trans hrlt hy), sign_ofMag _ h63, ?_⟩
  rw [value_ofMag h63, hr', ← hux, ← huy]
  simp

end Sys2Proof.F64
end

