-- ==== Sys2Proof/Laws/State.lean ====
section
/-! SUPPORT. One lemma for each field of State under each named update of Machine/Ops.lean. -/

namespace Sys2Proof.Machine

@[simp] theorem State.setResult_opd (v : Word64) (s : State) : (s.setResult v).opd = s.opd := rfl
@[simp] theorem State.setResult_result (v : Word64) (s : State) : (s.setResult v).result = v := rfl
@[simp] theorem State.setResult_sampleIndex (v : Word64) (s : State) : (s.setResult v).sampleIndex = s.sampleIndex := rfl
@[simp] theorem State.setResult_errors (v : Word64) (s : State) : (s.setResult v).errors = s.errors := rfl
@[simp] theorem State.setResult_creg (v : Word64) (s : State) : (s.setResult v).creg = s.creg := rfl
@[simp] theorem State.setResult_phase (v : Word64) (s : State) : (s.setResult v).phase = s.phase := rfl
@[simp] theorem State.setResult_pscBlock (v : Word64) (s : State) : (s.setResult v).pscBlock = s.pscBlock := rfl
@[simp] theorem State.setResult_inputs (v : Word64) (s : State) : (s.setResult v).inputs = s.inputs := rfl
@[simp] theorem State.setResult_reply (v : Word64) (s : State) : (s.setResult v).reply = s.reply := rfl

@[simp] theorem State.setPhase_opd (p : Phase) (s : State) : (s.setPhase p).opd = s.opd := rfl
@[simp] theorem State.setPhase_result (p : Phase) (s : State) : (s.setPhase p).result = s.result := rfl
@[simp] theorem State.setPhase_sampleIndex (p : Phase) (s : State) : (s.setPhase p).sampleIndex = s.sampleIndex := rfl
@[simp] theorem State.setPhase_errors (p : Phase) (s : State) : (s.setPhase p).errors = s.errors := rfl
@[simp] theorem State.setPhase_creg (p : Phase) (s : State) : (s.setPhase p).creg = s.creg := rfl
@[simp] theorem State.setPhase_phase (p : Phase) (s : State) : (s.setPhase p).phase = p := rfl
@[simp] theorem State.setPhase_pscBlock (p : Phase) (s : State) : (s.setPhase p).pscBlock = s.pscBlock := rfl
@[simp] theorem State.setPhase_inputs (p : Phase) (s : State) : (s.setPhase p).inputs = s.inputs := rfl
@[simp] theorem State.setPhase_reply (p : Phase) (s : State) : (s.setPhase p).reply = s.reply := rfl

@[simp] theorem State.setOrgan_opd (o : Organ) (s : State) : (s.setOrgan o).opd = s.opd := rfl
@[simp] theorem State.setOrgan_result (o : Organ) (s : State) : (s.setOrgan o).result = s.result := rfl
@[simp] theorem State.setOrgan_sampleIndex (o : Organ) (s : State) : (s.setOrgan o).sampleIndex = s.sampleIndex := rfl
@[simp] theorem State.setOrgan_errors (o : Organ) (s : State) : (s.setOrgan o).errors = s.errors := rfl
@[simp] theorem State.setOrgan_creg (o : Organ) (s : State) : (s.setOrgan o).creg = s.creg := rfl
@[simp] theorem State.setOrgan_phase (o : Organ) (s : State) : (s.setOrgan o).phase = .run o := rfl
@[simp] theorem State.setOrgan_pscBlock (o : Organ) (s : State) : (s.setOrgan o).pscBlock = s.pscBlock := rfl
@[simp] theorem State.setOrgan_inputs (o : Organ) (s : State) : (s.setOrgan o).inputs = s.inputs := rfl
@[simp] theorem State.setOrgan_reply (o : Organ) (s : State) : (s.setOrgan o).reply = s.reply := rfl

@[simp] theorem State.setCreg_opd (f : CregFile) (s : State) : (s.setCreg f).opd = s.opd := rfl
@[simp] theorem State.setCreg_result (f : CregFile) (s : State) : (s.setCreg f).result = s.result := rfl
@[simp] theorem State.setCreg_sampleIndex (f : CregFile) (s : State) : (s.setCreg f).sampleIndex = s.sampleIndex := rfl
@[simp] theorem State.setCreg_errors (f : CregFile) (s : State) : (s.setCreg f).errors = s.errors := rfl
@[simp] theorem State.setCreg_creg (f : CregFile) (s : State) : (s.setCreg f).creg = f := rfl
@[simp] theorem State.setCreg_phase (f : CregFile) (s : State) : (s.setCreg f).phase = s.phase := rfl
@[simp] theorem State.setCreg_pscBlock (f : CregFile) (s : State) : (s.setCreg f).pscBlock = s.pscBlock := rfl
@[simp] theorem State.setCreg_inputs (f : CregFile) (s : State) : (s.setCreg f).inputs = s.inputs := rfl
@[simp] theorem State.setCreg_reply (f : CregFile) (s : State) : (s.setCreg f).reply = s.reply := rfl

@[simp] theorem State.setSampleIndex_opd (n : Word64) (s : State) : (s.setSampleIndex n).opd = s.opd := rfl
@[simp] theorem State.setSampleIndex_result (n : Word64) (s : State) : (s.setSampleIndex n).result = s.result := rfl
@[simp] theorem State.setSampleIndex_sampleIndex (n : Word64) (s : State) : (s.setSampleIndex n).sampleIndex = n := rfl
@[simp] theorem State.setSampleIndex_errors (n : Word64) (s : State) : (s.setSampleIndex n).errors = s.errors := rfl
@[simp] theorem State.setSampleIndex_creg (n : Word64) (s : State) : (s.setSampleIndex n).creg = s.creg := rfl
@[simp] theorem State.setSampleIndex_phase (n : Word64) (s : State) : (s.setSampleIndex n).phase = s.phase := rfl
@[simp] theorem State.setSampleIndex_pscBlock (n : Word64) (s : State) : (s.setSampleIndex n).pscBlock = s.pscBlock := rfl
@[simp] theorem State.setSampleIndex_inputs (n : Word64) (s : State) : (s.setSampleIndex n).inputs = s.inputs := rfl
@[simp] theorem State.setSampleIndex_reply (n : Word64) (s : State) : (s.setSampleIndex n).reply = s.reply := rfl

@[simp] theorem State.setErrors_opd (r : ErrorRecord) (s : State) : (s.setErrors r).opd = s.opd := rfl
@[simp] theorem State.setErrors_result (r : ErrorRecord) (s : State) : (s.setErrors r).result = s.result := rfl
@[simp] theorem State.setErrors_sampleIndex (r : ErrorRecord) (s : State) : (s.setErrors r).sampleIndex = s.sampleIndex := rfl
@[simp] theorem State.setErrors_errors (r : ErrorRecord) (s : State) : (s.setErrors r).errors = r := rfl
@[simp] theorem State.setErrors_creg (r : ErrorRecord) (s : State) : (s.setErrors r).creg = s.creg := rfl
@[simp] theorem State.setErrors_phase (r : ErrorRecord) (s : State) : (s.setErrors r).phase = s.phase := rfl
@[simp] theorem State.setErrors_pscBlock (r : ErrorRecord) (s : State) : (s.setErrors r).pscBlock = s.pscBlock := rfl
@[simp] theorem State.setErrors_inputs (r : ErrorRecord) (s : State) : (s.setErrors r).inputs = s.inputs := rfl
@[simp] theorem State.setErrors_reply (r : ErrorRecord) (s : State) : (s.setErrors r).reply = s.reply := rfl

@[simp] theorem State.recordError_opd (e : ErrorKind) (s : State) : (s.recordError e).opd = s.opd := rfl
@[simp] theorem State.recordError_result (e : ErrorKind) (s : State) : (s.recordError e).result = s.result := rfl
@[simp] theorem State.recordError_sampleIndex (e : ErrorKind) (s : State) : (s.recordError e).sampleIndex = s.sampleIndex := rfl
@[simp] theorem State.recordError_errors (e : ErrorKind) (s : State) : (s.recordError e).errors = s.errors.record e := rfl
@[simp] theorem State.recordError_creg (e : ErrorKind) (s : State) : (s.recordError e).creg = s.creg := rfl
@[simp] theorem State.recordError_phase (e : ErrorKind) (s : State) : (s.recordError e).phase = s.phase := rfl
@[simp] theorem State.recordError_pscBlock (e : ErrorKind) (s : State) : (s.recordError e).pscBlock = s.pscBlock := rfl
@[simp] theorem State.recordError_inputs (e : ErrorKind) (s : State) : (s.recordError e).inputs = s.inputs := rfl
@[simp] theorem State.recordError_reply (e : ErrorKind) (s : State) : (s.recordError e).reply = s.reply := rfl

@[simp] theorem resetState_opd (s : State) : (resetState s).opd = 0 := rfl
@[simp] theorem resetState_result (s : State) : (resetState s).result = 0 := rfl
@[simp] theorem resetState_sampleIndex (s : State) : (resetState s).sampleIndex = 0 := rfl
@[simp] theorem resetState_errors (s : State) : (resetState s).errors = ErrorRecord.empty := rfl
@[simp] theorem resetState_creg (s : State) : (resetState s).creg = CregFile.reset := rfl
@[simp] theorem resetState_phase (s : State) : (resetState s).phase = .config := rfl
@[simp] theorem resetState_pscBlock (s : State) : (resetState s).pscBlock = s.pscBlock := rfl
@[simp] theorem resetState_inputs (s : State) : (resetState s).inputs = s.inputs := rfl
@[simp] theorem resetState_reply (s : State) : (resetState s).reply = s.reply := rfl

@[simp] theorem Organ.mapPipes_pipeLo (o : Organ) (g : Pipe → Pipe) : (o.mapPipes g).pipeLo = o.pipeLo := rfl
@[simp] theorem Organ.mapPipes_filterSlots (o : Organ) (g : Pipe → Pipe) : (o.mapPipes g).filterSlots = o.filterSlots := rfl
@[simp] theorem Organ.mapPipes_dv (o : Organ) (g : Pipe → Pipe) : (o.mapPipes g).dv = o.dv := rfl
@[simp] theorem Organ.mapPipes_comp (o : Organ) (g : Pipe → Pipe) : (o.mapPipes g).comp = o.comp := rfl
@[simp] theorem Organ.mapPipes_key (o : Organ) (g : Pipe → Pipe) : (o.mapPipes g).key = o.key := rfl
@[simp] theorem Organ.mapPipes_pipes (o : Organ) (g : Pipe → Pipe) : (o.mapPipes g).pipes = o.pipes.map g := rfl
@[simp] theorem Organ.setKey_pipeLo (o : Organ) (k : CodeField) (b : Bool) : (o.setKey k b).pipeLo = o.pipeLo := rfl
@[simp] theorem Organ.setKey_filterSlots (o : Organ) (k : CodeField) (b : Bool) : (o.setKey k b).filterSlots = o.filterSlots := rfl
@[simp] theorem Organ.setKey_dv (o : Organ) (k : CodeField) (b : Bool) : (o.setKey k b).dv = o.dv := rfl
@[simp] theorem Organ.setKey_comp (o : Organ) (k : CodeField) (b : Bool) : (o.setKey k b).comp = o.comp := rfl
@[simp] theorem Organ.setKey_pipes (o : Organ) (k : CodeField) (b : Bool) : (o.setKey k b).pipes = o.pipes := rfl
@[simp] theorem Pipe.modifyEnv_env (p : Pipe) (g : Envelope → Envelope) : (p.modifyEnv g).env = g p.env := rfl
@[simp] theorem Pipe.modifyEnv_osc (p : Pipe) (g : Envelope → Envelope) : (p.modifyEnv g).osc = p.osc := rfl
@[simp] theorem Pipe.modifyEnv_freq0 (p : Pipe) (g : Envelope → Envelope) : (p.modifyEnv g).freq0 = p.freq0 := rfl
@[simp] theorem Pipe.modifyEnv_slots (p : Pipe) (g : Envelope → Envelope) : (p.modifyEnv g).slots = p.slots := rfl
@[simp] theorem Pipe.modifyEnv_acc (p : Pipe) (g : Envelope → Envelope) : (p.modifyEnv g).acc = p.acc := rfl
@[simp] theorem Pipe.modifySlot_env (p : Pipe) (k : Nat) (g : Slot → Slot) : (p.modifySlot k g).env = p.env := rfl
@[simp] theorem Pipe.modifySlot_osc (p : Pipe) (k : Nat) (g : Slot → Slot) : (p.modifySlot k g).osc = p.osc := rfl
@[simp] theorem Pipe.modifySlot_freq0 (p : Pipe) (k : Nat) (g : Slot → Slot) : (p.modifySlot k g).freq0 = p.freq0 := rfl
@[simp] theorem Pipe.modifySlot_slots (p : Pipe) (k : Nat) (g : Slot → Slot) : (p.modifySlot k g).slots = p.slots.modify k g := rfl
@[simp] theorem Pipe.modifySlot_acc (p : Pipe) (k : Nat) (g : Slot → Slot) : (p.modifySlot k g).acc = p.acc := rfl

end Sys2Proof.Machine
end

