-- ==== Sys2Proof/Laws/Ops.lean ====
section
/-! SUPPORT. What each shared operation of Machine/Ops.lean and Machine/Operands.lean can do, said once. -/

namespace Sys2Proof.Machine

/-! Phase checks and errors -/

@[simp] theorem inRun_run {s : State} {o : Organ} (h : s.phase = .run o) (body : Organ → Result) : inRun s body = body o := by
  simp [inRun, h]

@[simp] theorem inConfig_config {s : State} (h : s.phase = .config) (body : Result) : inConfig s body = body := by
  simp [inConfig, h]

/-- A command of phase RUN runs there, and raises PHASE elsewhere. -/
theorem inRun_cases (s : State) (body : Organ → Result) :
    (∃ o, s.phase = .run o ∧ inRun s body = body o) ∨ (s.phase.isRun = false ∧ inRun s body = raise .phase s) := by
  unfold inRun
  cases h : s.phase with
  | config => exact .inr ⟨rfl, rfl⟩
  | run o => exact .inl ⟨o, rfl, rfl⟩
  | failed => exact .inr ⟨rfl, rfl⟩

/-- A command of phase CONFIG runs there, and raises PHASE elsewhere. -/
theorem inConfig_cases (s : State) (body : Result) :
    (s.phase = .config ∧ inConfig s body = body) ∨ (s.phase.isConfig = false ∧ inConfig s body = raise .phase s) := by
  unfold inConfig
  cases h : s.phase with
  | config => exact .inl ⟨rfl, rfl⟩
  | run o => exact .inr ⟨rfl, rfl⟩
  | failed => exact .inr ⟨rfl, rfl⟩

/-- Recording sets the kind's bit, keeps every other bit, and writes FIRST_ERR only where it was 0. -/
theorem ErrorRecord.has_record (r : ErrorRecord) (e e' : ErrorKind) :
    (r.record e).has e' = (r.has e' || e' == e) := by
  cases e <;> cases e' <;> simp [ErrorRecord.record, ErrorRecord.has] <;> rfl

theorem ErrorRecord.firstErr_record (r : ErrorRecord) (e : ErrorKind) :
    (r.record e).firstErr = some (r.firstErr.getD e) := by
  unfold ErrorRecord.record
  cases r.firstErr <;> rfl

/-- CLRST keeps only E_CFG. -/
theorem ErrorRecord.has_clearNonFatal (r : ErrorRecord) (e : ErrorKind) :
    r.clearNonFatal.has e = (e == .cfg && r.eCfg) := by
  cases e <;> simp [ErrorRecord.clearNonFatal, ErrorRecord.has]

/-! The pipe table -/

theorem Organ.hasPipe_iff (o : Organ) (c : Int) :
    o.hasPipe c = true ↔ o.pipeLo ≤ c ∧ c ≤ o.pipeLo + o.pipes.length - 1 := by
  simp [Organ.hasPipe, Organ.pipeHi]

theorem Organ.place_lt {o : Organ} {c : Int} (h : o.hasPipe c = true) : o.place c < o.pipes.length := by
  rw [Organ.hasPipe_iff] at h
  unfold Organ.place
  omega

/-- There is a pipe exactly for the codes of the range. -/
theorem Organ.pipe?_eq_some_of_hasPipe {o : Organ} {c : Int} (h : o.hasPipe c = true) :
    o.pipe? c = some (o.pipes[o.place c]'(Organ.place_lt h)) := by
  simp [Organ.pipe?, h, List.getElem?_eq_getElem (Organ.place_lt h)]

theorem Organ.pipe?_eq_none {o : Organ} {c : Int} (h : o.hasPipe c = false) : o.pipe? c = none := by
  simp [Organ.pipe?, h]

theorem Organ.hasPipe_of_pipe? {o : Organ} {c : Int} {p : Pipe} (h : o.pipe? c = some p) : o.hasPipe c = true := by
  by_contra hc
  rw [Bool.not_eq_true] at hc
  rw [Organ.pipe?_eq_none hc] at h
  cases h

theorem Organ.mem_of_pipe? {o : Organ} {c : Int} {p : Pipe} (h : o.pipe? c = some p) : p ∈ o.pipes := by
  have hc := Organ.hasPipe_of_pipe? h
  rw [Organ.pipe?_eq_some_of_hasPipe hc] at h
  cases h
  exact List.getElem_mem _

/-- The codes with a pipe depend only on the first code and the number of pipes. -/
theorem Organ.hasPipe_congr {o o' : Organ} (h1 : o'.pipeLo = o.pipeLo) (h2 : o'.pipes.length = o.pipes.length) (c : Int) :
    o'.hasPipe c = o.hasPipe c := by
  simp [Organ.hasPipe, Organ.pipeHi, h1, h2]

theorem Organ.pipe?_mapPipes (o : Organ) (f : Pipe → Pipe) (c : Int) : (o.mapPipes f).pipe? c = (o.pipe? c).map f := by
  have h : (o.mapPipes f).hasPipe c = o.hasPipe c :=
    Organ.hasPipe_congr (o := o) (o' := o.mapPipes f) rfl (by simp [Organ.mapPipes]) c
  unfold Organ.pipe?
  rw [h]
  split
  · simp [Organ.mapPipes, Organ.place]
  · rfl

@[simp] theorem Organ.modifyPipe_pipeLo (o : Organ) (c : Int) (f : Pipe → Pipe) : (o.modifyPipe c f).pipeLo = o.pipeLo := by
  unfold Organ.modifyPipe; split <;> rfl

@[simp] theorem Organ.modifyPipe_filterSlots (o : Organ) (c : Int) (f : Pipe → Pipe) :
    (o.modifyPipe c f).filterSlots = o.filterSlots := by
  unfold Organ.modifyPipe; split <;> rfl

@[simp] theorem Organ.modifyPipe_dv (o : Organ) (c : Int) (f : Pipe → Pipe) : (o.modifyPipe c f).dv = o.dv := by
  unfold Organ.modifyPipe; split <;> rfl

@[simp] theorem Organ.modifyPipe_comp (o : Organ) (c : Int) (f : Pipe → Pipe) : (o.modifyPipe c f).comp = o.comp := by
  unfold Organ.modifyPipe; split <;> rfl

@[simp] theorem Organ.modifyPipe_key (o : Organ) (c : Int) (f : Pipe → Pipe) : (o.modifyPipe c f).key = o.key := by
  unfold Organ.modifyPipe; split <;> rfl

@[simp] theorem Organ.modifyPipe_length (o : Organ) (c : Int) (f : Pipe → Pipe) :
    (o.modifyPipe c f).pipes.length = o.pipes.length := by
  unfold Organ.modifyPipe; split <;> simp

/-- Rewriting one pipe changes that pipe and no other. -/
theorem Organ.pipe?_modifyPipe (o : Organ) (c c' : Int) (f : Pipe → Pipe) :
    (o.modifyPipe c f).pipe? c' = if c' = c then (o.pipe? c').map f else o.pipe? c' := by
  have hh := Organ.hasPipe_congr (o := o) (o' := o.modifyPipe c f) (by simp) (by simp) c'
  unfold Organ.pipe?
  rw [hh]
  by_cases hc' : o.hasPipe c' = true
  · simp only [hc', if_true]
    by_cases hc : o.hasPipe c = true
    · have hpl : (o.modifyPipe c f).place c' = o.place c' := by simp [Organ.place]
      have hps : (o.modifyPipe c f).pipes = o.pipes.modify (o.place c) f := by simp [Organ.modifyPipe, hc]
      rw [hpl, hps, List.getElem?_modify]
      rw [Organ.hasPipe_iff] at hc hc'
      by_cases he : c' = c
      · simp [he]
      · have : o.place c ≠ o.place c' := by unfold Organ.place; omega
        simp [he, this]
    · have hm : o.modifyPipe c f = o := by simp [Organ.modifyPipe, hc]
      have hne : c' ≠ c := by rintro rfl; exact hc hc'
      rw [hm]; simp [hne]
  · simp [hc']

/-- A property every pipe has is kept by rewriting one pipe, if the rewriting keeps it. -/
theorem Organ.forall_modifyPipe {P : Pipe → Prop} {o : Organ} {c : Int} {f : Pipe → Pipe} (h : ∀ p ∈ o.pipes, P p)
    (hf : ∀ p, P p → P (f p)) : ∀ p ∈ (o.modifyPipe c f).pipes, P p := by
  unfold Organ.modifyPipe
  split
  · intro p hp
    obtain ⟨n, hn, rfl⟩ := List.mem_iff_getElem.1 hp
    simp only [List.length_modify] at hn
    rw [List.getElem_modify]
    split
    · exact hf _ (h _ (List.getElem_mem _))
    · exact h _ (List.getElem_mem _)
  · exact h

/-! The key table -/

theorem Organ.keyPressed_setKey (o : Organ) (k k' : CodeField) (b : Bool) :
    (o.setKey k b).keyPressed k' = if k' = k then b else o.keyPressed k' := by
  unfold Organ.keyPressed Organ.setKey
  rw [Vector.getElem_set]
  by_cases h : k' = k
  · simp [h]
  · have : k.toNat ≠ k'.toNat := fun hn => h (BitVec.eq_of_toNat_eq hn.symm)
    simp [h, this]

/-! The pipe and slot commands -/

/-- A broadcast reaches every pipe; a single-pipe command its own. -/
theorem Organ.pipe?_apply (o : Organ) (sel : PipeOperand) (f : Pipe → Pipe) (c : Int) :
    (o.apply sel f).pipe? c = if sel = .every ∨ sel = .one c then (o.pipe? c).map f else o.pipe? c := by
  cases sel with
  | every => simp [Organ.apply, Organ.pipe?_mapPipes]
  | one c' =>
    simp only [Organ.apply, Organ.pipe?_modifyPipe, reduceCtorEq, false_or, PipeOperand.one.injEq]
    by_cases h : c = c' <;> simp [h, eq_comm]

theorem pipeCommand_admitted {idx : CodeField} {all : Bool} {s : State} {o : Organ} (f : Pipe → Pipe) (h : s.phase = .run o)
    (ha : o.admits (pipeOperand idx all) = true) :
    pipeCommand idx all f s = .next (s.setOrgan (o.apply (pipeOperand idx all) f)) := by
  simp [pipeCommand, h, checkPipe, ha]

theorem pipeValueCommand_admitted {idx : CodeField} {all : Bool} {s : State} {o : Organ} (f : F64 → Pipe → Pipe)
    (h : s.phase = .run o) (ha : o.admits (pipeOperand idx all) = true) (hv : F64.isFinite s.opd = true) :
    pipeValueCommand idx all f s = .next (s.setOrgan (o.apply (pipeOperand idx all) (f s.opd))) := by
  simp [pipeValueCommand, h, checkPipe, ha, checkFinite, hv]

theorem slotCommand_admitted {idx : CodeField} {k : BitVec 4} {all : Bool} {s : State} {o : Organ} (f : Slot → Slot)
    (h : s.phase = .run o) (ha : o.admits (pipeOperand idx all) = true) (hk : k.toNat < o.filterSlots) :
    slotCommand idx k all f s
      = .next (s.setOrgan (o.apply (pipeOperand idx all) fun p => p.modifySlot k.toNat f)) := by
  simp [slotCommand, h, checkPipe, ha, checkSlot, hk]

theorem slotValueCommand_admitted {idx : CodeField} {k : BitVec 4} {all : Bool} {s : State} {o : Organ}
    (f : F64 → Slot → Slot) (h : s.phase = .run o) (ha : o.admits (pipeOperand idx all) = true)
    (hk : k.toNat < o.filterSlots) (hv : F64.isFinite s.opd = true) :
    slotValueCommand idx k all f s
      = .next (s.setOrgan (o.apply (pipeOperand idx all) fun p => p.modifySlot k.toNat (f s.opd))) := by
  simp [slotValueCommand, h, checkPipe, ha, checkSlot, hk, checkFinite, hv]

/-- Everything a format P command without an operand value can do. -/
theorem pipeCommand_cases (idx : CodeField) (all : Bool) (f : Pipe → Pipe) (s : State) :
    (∃ o, s.phase = .run o ∧ o.admits (pipeOperand idx all) = true
      ∧ pipeCommand idx all f s = .next (s.setOrgan (o.apply (pipeOperand idx all) f)))
    ∨ ∃ e, pipeCommand idx all f s = raise e s ∧ (e = .phase ∨ e = .range) := by
  rcases inRun_cases s (fun o =>
      checkPipe o (pipeOperand idx all) s (.next (s.setOrgan (o.apply (pipeOperand idx all) f)))) with ⟨o, ho, h⟩ | ⟨_, h⟩
  · by_cases ha : o.admits (pipeOperand idx all) = true
    · exact .inl ⟨o, ho, ha, pipeCommand_admitted f ho ha⟩
    · exact .inr ⟨.range, by simp [pipeCommand, ho, checkPipe, ha], .inr rfl⟩
  · exact .inr ⟨.phase, h, .inl rfl⟩

/-- Everything a format P command that reads OPD as f64 can do. -/
theorem pipeValueCommand_cases (idx : CodeField) (all : Bool) (f : F64 → Pipe → Pipe) (s : State) :
    (∃ o, s.phase = .run o ∧ o.admits (pipeOperand idx all) = true ∧ F64.isFinite s.opd = true
      ∧ pipeValueCommand idx all f s = .next (s.setOrgan (o.apply (pipeOperand idx all) (f s.opd))))
    ∨ ∃ e, pipeValueCommand idx all f s = raise e s ∧ (e = .phase ∨ e = .range ∨ e = .nonfinite) := by
  rcases inRun_cases s (fun o => checkPipe o (pipeOperand idx all) s <|
      checkFinite s fun v => .next (s.setOrgan (o.apply (pipeOperand idx all) (f v)))) with ⟨o, ho, h⟩ | ⟨_, h⟩
  · by_cases ha : o.admits (pipeOperand idx all) = true
    · by_cases hv : F64.isFinite s.opd = true
      · exact .inl ⟨o, ho, ha, hv, pipeValueCommand_admitted f ho ha hv⟩
      · exact .inr ⟨.nonfinite, by simp [pipeValueCommand, ho, checkPipe, ha, checkFinite, hv], .inr (.inr rfl)⟩
    · exact .inr ⟨.range, by simp [pipeValueCommand, ho, checkPipe, ha], .inr (.inl rfl)⟩
  · exact .inr ⟨.phase, h, .inl rfl⟩

/-- Everything a format F command without an operand value can do. -/
theorem slotCommand_cases (idx : CodeField) (k : BitVec 4) (all : Bool) (f : Slot → Slot) (s : State) :
    (∃ o, s.phase = .run o ∧ o.admits (pipeOperand idx all) = true ∧ k.toNat < o.filterSlots
      ∧ slotCommand idx k all f s
        = .next (s.setOrgan (o.apply (pipeOperand idx all) fun p => p.modifySlot k.toNat f)))
    ∨ ∃ e, slotCommand idx k all f s = raise e s ∧ (e = .phase ∨ e = .range) := by
  rcases inRun_cases s (fun o => checkPipe o (pipeOperand idx all) s <|
      checkSlot o k s (.next (s.setOrgan (o.apply (pipeOperand idx all) fun p => p.modifySlot k.toNat f))))
    with ⟨o, ho, h⟩ | ⟨_, h⟩
  · by_cases ha : o.admits (pipeOperand idx all) = true
    · by_cases hk : k.toNat < o.filterSlots
      · exact .inl ⟨o, ho, ha, hk, slotCommand_admitted f ho ha hk⟩
      · exact .inr ⟨.range, by simp [slotCommand, ho, checkPipe, ha, checkSlot, hk], .inr rfl⟩
    · exact .inr ⟨.range, by simp [slotCommand, ho, checkPipe, ha], .inr rfl⟩
  · exact .inr ⟨.phase, h, .inl rfl⟩

/-- Everything a format F command that reads OPD as f64 can do. -/
theorem slotValueCommand_cases (idx : CodeField) (k : BitVec 4) (all : Bool) (f : F64 → Slot → Slot) (s : State) :
    (∃ o, s.phase = .run o ∧ o.admits (pipeOperand idx all) = true ∧ k.toNat < o.filterSlots ∧ F64.isFinite s.opd = true
      ∧ slotValueCommand idx k all f s
        = .next (s.setOrgan (o.apply (pipeOperand idx all) fun p => p.modifySlot k.toNat (f s.opd))))
    ∨ ∃ e, slotValueCommand idx k all f s = raise e s ∧ (e = .phase ∨ e = .range ∨ e = .nonfinite) := by
  rcases inRun_cases s (fun o => checkPipe o (pipeOperand idx all) s <| checkSlot o k s <|
      checkFinite s fun v => .next (s.setOrgan (o.apply (pipeOperand idx all) fun p => p.modifySlot k.toNat (f v))))
    with ⟨o, ho, h⟩ | ⟨_, h⟩
  · by_cases ha : o.admits (pipeOperand idx all) = true
    · by_cases hk : k.toNat < o.filterSlots
      · by_cases hv : F64.isFinite s.opd = true
        · exact .inl ⟨o, ho, ha, hk, hv, slotValueCommand_admitted f ho ha hk hv⟩
        · exact .inr ⟨.nonfinite, by simp [slotValueCommand, ho, checkPipe, ha, checkSlot, hk, checkFinite, hv],
            .inr (.inr rfl)⟩
      · exact .inr ⟨.range, by simp [slotValueCommand, ho, checkPipe, ha, checkSlot, hk], .inr (.inl rfl)⟩
    · exact .inr ⟨.range, by simp [slotValueCommand, ho, checkPipe, ha], .inr (.inl rfl)⟩
  · exact .inr ⟨.phase, h, .inl rfl⟩

end Sys2Proof.Machine
end

