-- ==== Sys2Proof/Laws/Good.lean ====
section
/-! SUPPORT. What keeps the legal values: one lemma for each numeric building block and each internal operation of the
synthesis. -/

namespace Sys2Proof.Machine

open F64

/-! Bounded values -/

theorem le_true_nan {x y : F64} (h : le x y = true) : isNaN x = false ∧ isNaN y = false := by
  simp only [le, Bool.and_eq_true, Bool.not_eq_true'] at h
  exact h.1

theorem Within.isNaN {lo hi x : F64} (h : Within lo hi x) : isNaN x = false := (le_true_nan h.ge).2

theorem Within.value_ge {lo hi x : F64} (h : Within lo hi x) : value lo ≤ value x := by
  have h1 := h.ge
  rwa [le_iff (le_true_nan h1).1 (le_true_nan h1).2] at h1

theorem Within.value_le {lo hi x : F64} (h : Within lo hi x) : value x ≤ value hi := by
  have h1 := h.le
  rwa [le_iff (le_true_nan h1).1 (le_true_nan h1).2] at h1

theorem Within.nonneg {lo hi x : F64} (h : Within lo hi x) : 0 ≤ value x := value_nonneg_of_sign_false h.sign

theorem Within.isFinite {lo hi x : F64} (h : Within lo hi x) (hhi : F64.isFinite hi = true) : F64.isFinite x = true :=
  isFinite_of_bounds (lo := zero) (by decide) hhi (by rw [value_zero]; exact h.nonneg) h.value_le

theorem within_of_value {lo hi x : F64} (hlo : F64.isNaN lo = false) (hhi : F64.isNaN hi = false) (hx : F64.isNaN x = false)
    (h1 : value lo ≤ value x) (h2 : value x ≤ value hi) (hs : sign x = false) : Within lo hi x :=
  ⟨by rwa [le_iff hlo hx], by rwa [le_iff hx hhi], hs⟩

/-- A value that is no NaN, clamped between nonnegative bounds. -/
theorem within_clamp {lo hi x : F64} (hx : F64.isNaN x = false) (hlo : F64.isNaN lo = false) (hhi : F64.isNaN hi = false)
    (hsl : sign lo = false) (hsh : sign hi = false) (h : value lo ≤ value hi) : Within lo hi (clamp x lo hi) := by
  obtain ⟨h1, h2, h3⟩ := clamp_bounds hx hlo hhi h
  refine within_of_value hlo hhi h1 h2 h3 ?_
  unfold clamp
  split
  · exact hsl
  · next hc =>
    split
    · exact hsh
    · rw [le_iff hx hlo] at hc
      have h0 := value_nonneg_of_sign_false hsl
      by_contra hs
      rw [Bool.not_eq_false] at hs
      rw [value_of_sign_true hs] at hc
      have : (0:Int) ≤ unitsOfMag (mag x) := by positivity
      omega

theorem within_sat01 {x : F64} (hx : F64.isNaN x = false) : Within zero one (sat01 x) :=
  within_clamp hx (by decide) (by decide) (by decide) (by decide) (by rw [value_zero, value_one]; positivity)

theorem within_zero {hi : F64} (hhi : F64.isNaN hi = false) (hs : sign hi = false) : Within zero hi zero :=
  within_of_value (by decide) hhi (by decide) le_rfl (by rw [value_zero]; exact value_nonneg_of_sign_false hs) (by decide)

theorem within_one : Within zero one one :=
  within_of_value (by decide) (by decide) (by decide) (by rw [value_zero, value_one]; positivity) le_rfl (by decide)

/-! The configuration registers -/

theorem F64Reg.lo_le_hi (r : F64Reg) : value r.lo ≤ value r.hi := by
  cases r <;> simp only [F64Reg.lo, F64Reg.hi] <;> decide +kernel

theorem F64Reg.within_stored (r : F64Reg) {v : F64} (hv : F64.isNaN v = false) : Within r.lo r.hi (r.stored v) :=
  within_clamp hv (by cases r <;> decide) (by cases r <;> decide) (by cases r <;> decide) (by cases r <;> decide) r.lo_le_hi

theorem F64Reg.isFinite_hi (r : F64Reg) : F64.isFinite r.hi = true := by cases r <;> decide

theorem IntReg.stored_bounds (r : IntReg) (n : Int) : r.lo ≤ r.stored n ∧ r.stored n ≤ r.hi := by
  have h : r.lo ≤ r.hi := by cases r <;> simp [IntReg.lo, IntReg.hi]
  unfold IntReg.stored
  split
  · next he => subst he; simp only [IntReg.lo, IntReg.hi]; split <;> omega
  · split
    · omega
    · split <;> omega

@[simp] theorem CregFile.getF64_setF64 (f : CregFile) (r r' : F64Reg) (v : F64) :
    (f.setF64 r v).getF64 r' = if r' = r then v else f.getF64 r' := by
  cases r <;> cases r' <;> rfl

@[simp] theorem CregFile.getInt_setF64 (f : CregFile) (r : F64Reg) (r' : IntReg) (v : F64) :
    (f.setF64 r v).getInt r' = f.getInt r' := by
  cases r <;> cases r' <;> rfl

@[simp] theorem CregFile.getF64_setInt (f : CregFile) (r : IntReg) (r' : F64Reg) (n : Int) :
    (f.setInt r n).getF64 r' = f.getF64 r' := by
  cases r <;> cases r' <;> rfl

@[simp] theorem CregFile.getInt_setInt (f : CregFile) (r r' : IntReg) (n : Int) :
    (f.setInt r n).getInt r' = if r' = r then n else f.getInt r' := by
  cases r <;> cases r' <;>
    simp [CregFile.setInt, CregFile.getInt, Vector.getElem_set, Fin.ext_iff, eq_comm]

theorem CregOk.setF64 {f : CregFile} (h : CregOk f) (r : F64Reg) {v : F64} (hv : F64.isNaN v = false) :
    CregOk (f.setF64 r (r.stored v)) := by
  refine ⟨fun r' => ?_, fun r' => by simpa using h.int r'⟩
  rw [CregFile.getF64_setF64]
  split
  · next he => subst he; exact r'.within_stored hv
  · exact h.f64 r'

theorem CregOk.setInt {f : CregFile} (h : CregOk f) (r : IntReg) (n : Int) : CregOk (f.setInt r (r.stored n)) := by
  refine ⟨fun r' => by simpa using h.f64 r', fun r' => ?_⟩
  rw [CregFile.getInt_setInt]
  split
  · next he => subst he; exact r'.stored_bounds n
  · exact h.int r'

theorem cregOk_reset : CregOk CregFile.reset := by
  refine ⟨fun r => ?_, fun r => ?_⟩
  · refine ⟨?_, ?_, ?_⟩ <;> cases r <;> decide
  · cases r with
    | drawbar i => revert i; decide
    | offset i => revert i; decide
    | _ => decide

end Sys2Proof.Machine
end

