-- ==== Sys2Proof/Laws/Synthesis.lean ====
section
/-! SUPPORT. The internal operations of the oscillator, the envelope, the filter chain and the mixer keep the legal values of
10_state.md R44 to R50. -/

namespace Sys2Proof.Machine

open F64

/-! The platform -/

theorem value_abs (x : F64) : value (F64.abs x) = |value x| := by
  rw [F64.abs, value_ofMag (mag_lt x), value_eq]
  cases sign x <;> simp

theorem isNaN_abs (x : F64) : F64.isNaN (F64.abs x) = F64.isNaN x := by
  simp [F64.isNaN, F64.abs, mag_ofMag _ (mag_lt x)]

theorem isFinite_abs (x : F64) : F64.isFinite (F64.abs x) = F64.isFinite x := by
  simp [F64.isFinite, F64.abs, mag_ofMag _ (mag_lt x)]

theorem isFinite_of_abs_le_one {x : F64} (h : F64.le (F64.abs x) F64.one = true) : F64.isFinite x = true := by
  rw [← isFinite_abs]
  have hn := (le_true_nan h).1
  rw [le_iff hn (by decide)] at h
  exact isFinite_of_bounds (lo := zero) (hi := one) (by decide) (by decide)
    (by rw [value_zero, value_abs]; exact abs_nonneg _) h

theorem admissibleSine_zero (raw : F64 → F64) : admissibleSine raw F64.zero = F64.zero := by simp [admissibleSine]

theorem admissibleSine_le (raw : F64 → F64) {x : F64} (hx : F64.isFinite x = true) :
    F64.le (F64.abs (admissibleSine raw x)) F64.one = true := by
  unfold admissibleSine
  split
  · decide
  · split
    · decide
    · next h => simpa [hx] using h

theorem admissiblePitch_finite (raw : Int → F64) {c : Int} (h1 : -512 ≤ c) (h2 : c ≤ 511) :
    F64.isFinite (admissiblePitch raw c) = true := by
  unfold admissiblePitch
  split
  · decide
  · next h =>
    by_contra hf
    exact h ⟨h1, h2, by simpa using hf⟩

/-- Every raw sine and pitch function gives an admitted platform. -/
theorem platformOk_of_raw (sin : F64 → F64) (pitch : Int → F64) :
    PlatformOk { sin := admissibleSine sin, pitch := admissiblePitch pitch } :=
  ⟨admissibleSine_zero sin, fun _ hx => admissibleSine_le sin hx,
    fun _ hx => isFinite_of_abs_le_one (admissibleSine_le sin hx), fun _ h1 h2 => admissiblePitch_finite pitch h1 h2⟩

/-- The machine's platform has the properties of 00_scope.md R13 and R14. -/
theorem platformOk : PlatformOk platform := platformOk_of_raw _ _

/-! Bounds of the configuration registers -/

theorem CregOk.sampleRate {f : CregFile} (h : CregOk f) : Within F64.one 0x41F0000000000000#64 f.sampleRate := h.f64 .sampleRate
theorem CregOk.maxFrequency {f : CregFile} (h : CregOk f) : Within F64.zero 0x4340000000000000#64 f.maxFrequency :=
  h.f64 .maxFrequency
theorem CregOk.epsilon {f : CregFile} (h : CregOk f) : Within F64.zero F64.one f.epsilon := h.f64 .epsilon
theorem CregOk.negligible {f : CregFile} (h : CregOk f) : Within F64.zero F64.one f.negligible := h.f64 .negligible
theorem CregOk.smoothAlpha {f : CregFile} (h : CregOk f) : Within F64.zero F64.one f.smoothAlpha := h.f64 .smoothAlpha

theorem CregOk.finite_sampleRate {f : CregFile} (h : CregOk f) : F64.isFinite f.sampleRate = true :=
  h.sampleRate.isFinite (by decide)

theorem CregOk.sampleRate_ge {f : CregFile} (h : CregOk f) : (oneUnits : Int) ≤ value f.sampleRate := by
  have := h.sampleRate.value_ge
  rwa [value_one] at this

theorem CregOk.sampleRate_pos {f : CregFile} (h : CregOk f) : 0 < value f.sampleRate :=
  lt_of_lt_of_le (by exact_mod_cast oneUnits_pos) h.sampleRate_ge

/-! The oscillator -/

theorem value_twoPi_scaled : value twoPi * value 0x4340000000000000#64 = value dthetaMax * oneUnits := by decide +kernel

theorem value_twoPi_pos : 0 < value twoPi := by decide +kernel

/-- The phase increment of a frequency in [0, MAX_FREQUENCY] is finite and nonnegative (40_oscillator.md R151). -/
theorem within_deltaTheta {f : CregFile} (hf : CregOk f) {x : F64} (hx : Within F64.zero f.maxFrequency x) :
    Within F64.zero dthetaMax (deltaTheta f x) := by
  have hm := hf.maxFrequency
  have hxf : F64.isFinite x = true := hx.isFinite (hm.isFinite (by decide))
  have htp : F64.isFinite twoPi = true := by decide
  have hu : (0 : Int) < oneUnits := by exact_mod_cast oneUnits_pos
  have hx2 : value x ≤ value 0x4340000000000000#64 := le_trans hx.value_le hm.value_le
  have h0 : 0 ≤ value twoPi * value x := mul_nonneg value_twoPi_pos.le hx.nonneg
  have hp : value (mul twoPi x) ≤ value dthetaMax :=
    value_mul_le htp hxf (by decide) (by
      rw [← value_twoPi_scaled]; exact mul_le_mul_of_nonneg_left hx2 value_twoPi_pos.le)
  have hp0 : value zero ≤ value (mul twoPi x) := le_value_mul htp hxf (by decide) (by
    rw [value_zero, zero_mul]; exact h0)
  have hps : sign (mul twoPi x) = false := by rw [sign_mul_of_finite htp hxf, hx.sign]; decide
  have hpf : F64.isFinite (mul twoPi x) = true := isFinite_of_bounds (by decide) (by decide) hp0 hp
  have hsr := hf.sampleRate_pos
  have hsrf := hf.finite_sampleRate
  unfold deltaTheta
  refine within_of_value (by decide) (by decide) (isNaN_div_of_finite hpf hsrf (.inr hsr.ne')) ?_ ?_ ?_
  · apply le_value_div hpf hsrf (by decide) hsr
    rw [value_zero, zero_mul]
    exact mul_nonneg (by rwa [value_zero] at hp0) hu.le
  · apply value_div_le hpf hsrf (by decide) hsr
    exact mul_le_mul hp hf.sampleRate_ge hu.le (le_trans (by rwa [value_zero] at hp0) hp)
  · rw [sign_div_of_finite hpf hsrf hsr.ne', hps, hf.sampleRate.sign]; rfl

/-- OscFrequency of any value but a NaN keeps the oscillator good; an infinite frequency is clamped (42_filter.md R212). -/
theorem OscillatorOk.oscFrequency {f : CregFile} (hf : CregOk f) {x : F64} (hx : F64.isNaN x = false) {o : Oscillator}
    (ho : OscillatorOk f o) : OscillatorOk f (oscFrequency f x o) := by
  have hm := hf.maxFrequency
  have hw : Within F64.zero f.maxFrequency (clamp x F64.zero f.maxFrequency) :=
    within_clamp hx (by decide) hm.isNaN (by decide) hm.sign (by rw [value_zero]; exact hm.nonneg)
  exact ⟨ho.theta, within_deltaTheta hf hw, hw, ho.vol, ho.flags⟩

theorem OscillatorOk.oscVolume {f : CregFile} {v : F64} (hv : F64.isNaN v = false) {o : Oscillator} (ho : OscillatorOk f o) :
    OscillatorOk f (oscVolume v o) := ⟨ho.theta, ho.dtheta, ho.freq, within_sat01 hv, ho.flags⟩

theorem OscillatorOk.oscActivate {f : CregFile} (b : Bool) {o : Oscillator} (ho : OscillatorOk f o) :
    OscillatorOk f (oscActivate b o) := ⟨ho.theta, ho.dtheta, ho.freq, ho.vol, ho.flags⟩

/-- Advance stays in [0, TWO_PI) (40_oscillator.md R151). -/
theorem advance_bounds {theta dtheta : F64} (ht : Within F64.zero F64.twoPi theta) (hd : Within F64.zero dthetaMax dtheta) :
    Within F64.zero F64.twoPi (advance theta dtheta) ∧ F64.lt (advance theta dtheta) F64.twoPi = true := by
  have htf : F64.isFinite theta = true := ht.isFinite (by decide)
  have hdf : F64.isFinite dtheta = true := hd.isFinite (by decide)
  have hsum : value twoPi + value dthetaMax ≤ value 0x437921FB54442D18#64 := by decide +kernel
  have h1 : value zero ≤ value (add theta dtheta) :=
    le_value_add htf hdf (by decide) (by rw [value_zero]; have := ht.nonneg; have := hd.nonneg; omega)
  have h2 : value (add theta dtheta) ≤ value 0x437921FB54442D18#64 :=
    value_add_le htf hdf (by decide) (by have := ht.value_le; have := hd.value_le; omega)
  have hf : F64.isFinite (add theta dtheta) = true := isFinite_of_bounds (by decide) (by decide) h1 h2
  rw [value_zero] at h1
  obtain ⟨g1, g2, g3⟩ := fmod_exact hf (y := twoPi) (by decide) h1 value_twoPi_pos
  have h0 := value_nonneg_of_sign_false g2
  have hlt : value (advance theta dtheta) < value twoPi := by
    unfold advance; rw [g3]; exact Int.emod_lt_of_pos _ value_twoPi_pos
  have hn : F64.isNaN (advance theta dtheta) = false := isNaN_of_finite g1
  exact ⟨within_of_value (by decide) (by decide) hn (by rw [value_zero]; exact h0) hlt.le g2,
    by rwa [lt_iff hn (by decide)]⟩

/-- The oscillator's output sample is no NaN and its magnitude is at most the volume (40_oscillator.md R147). -/
theorem sample_bounds {pf : Platform} (hpf : PlatformOk pf) {v theta : F64} (hv : Within F64.zero F64.one v)
    (ht : F64.isFinite theta = true) :
    F64.isFinite (mul v (pf.sin theta)) = true ∧ |value (mul v (pf.sin theta))| ≤ value v := by
  have hs := hpf.s2 theta ht
  have hsf := hpf.s3 theta ht
  have hvf : F64.isFinite v = true := hv.isFinite (by decide)
  rw [le_iff (by rw [isNaN_abs]; exact isNaN_of_finite hsf) (by decide), value_abs, value_one, abs_le] at hs
  have hv0 := hv.nonneg
  have h1 : value (mul v (pf.sin theta)) ≤ value v :=
    value_mul_le hvf hsf (isNaN_of_finite hvf) (mul_le_mul_of_nonneg_left hs.2 hv0)
  have h2 : value (neg v) ≤ value (mul v (pf.sin theta)) :=
    le_value_mul hvf hsf (by rw [isNaN_neg]; exact isNaN_of_finite hvf) (by
      rw [value_neg, neg_mul, ← mul_neg]; exact mul_le_mul_of_nonneg_left hs.1 hv0)
  refine ⟨isFinite_of_bounds (by rw [isFinite_neg]; exact hvf) hvf h2 h1, ?_⟩
  rw [value_neg] at h2
  rw [abs_le]; omega

/-- The sample step keeps the oscillator good, and its sample is finite and at most the volume (40_oscillator.md R145, R147). -/
theorem OscillatorOk.oscNext {pf : Platform} (hpf : PlatformOk pf) {f : CregFile} {o : Oscillator} (ho : OscillatorOk f o) :
    OscillatorOk f (oscNext pf f o).2 ∧ F64.isFinite (oscNext pf f o).1 = true ∧ |value (oscNext pf f o).1| ≤ value o.vol := by
  have hz : Within F64.zero F64.twoPi F64.zero := within_zero (by decide) (by decide)
  have hz0 : F64.isFinite F64.zero = true ∧ |value F64.zero| ≤ value o.vol := by
    refine ⟨by decide, ?_⟩
    rw [value_zero, abs_zero]; exact ho.vol.nonneg
  have htf : F64.isFinite o.theta = true := ho.theta.1.isFinite (by decide)
  unfold Sys2Proof.Machine.oscNext
  split
  · have ht : Within F64.zero F64.twoPi (if !o.wasActive && !o.persist then F64.zero else o.theta) := by
      split
      · exact hz
      · exact ho.theta.1
    exact ⟨⟨advance_bounds ht ho.dtheta, ho.dtheta, ho.freq, ho.vol, by simp⟩,
      sample_bounds hpf ho.vol (ht.isFinite (by decide))⟩
  · split
    · dsimp only
      split
      · exact ⟨⟨advance_bounds ho.theta.1 ho.dtheta, ho.dtheta, ho.freq, ho.vol, by simp⟩, sample_bounds hpf ho.vol htf⟩
      · exact ⟨⟨ho.theta, ho.dtheta, ho.freq, ho.vol, by simp⟩, hz0⟩
    · exact ⟨ho, hz0⟩

/-- The sample step writes only theta, wasActive and persist (40_oscillator.md R144). -/
theorem oscNext_frame (pf : Platform) (f : CregFile) (o : Oscillator) :
    (oscNext pf f o).2.freq = o.freq ∧ (oscNext pf f o).2.dtheta = o.dtheta ∧ (oscNext pf f o).2.vol = o.vol
      ∧ (oscNext pf f o).2.active = o.active := by
  unfold oscNext
  split
  · exact ⟨rfl, rfl, rfl, rfl⟩
  · split
    · dsimp only
      split <;> exact ⟨rfl, rfl, rfl, rfl⟩
    · exact ⟨rfl, rfl, rfl, rfl⟩


/-! The filter chain -/

/-- `l * intensity` is finite for a sample of magnitude at most 1.0 (42_filter.md R212). -/
theorem isFinite_mul_unit {l x : F64} (hl : F64.isFinite l = true) (hb : |value l| ≤ value F64.one) (hx : F64.isFinite x = true) :
    F64.isFinite (mul l x) = true := by
  rw [value_one, abs_le] at hb
  have key : |value l * value x| ≤ |value x| * oneUnits := by
    rw [abs_mul, mul_comm]; exact mul_le_mul_of_nonneg_left (by rw [abs_le]; exact hb) (abs_nonneg _)
  rw [abs_le] at key
  have ha : F64.isFinite (F64.abs x) = true := by rw [isFinite_abs]; exact hx
  have h1 : value (mul l x) ≤ value (F64.abs x) :=
    value_mul_le hl hx (isNaN_of_finite ha) (by rw [value_abs]; exact key.2)
  have h2 : value (neg (F64.abs x)) ≤ value (mul l x) :=
    le_value_mul hl hx (by rw [isNaN_neg]; exact isNaN_of_finite ha) (by rw [value_neg, value_abs, neg_mul]; exact key.1)
  exact isFinite_of_bounds (by rw [isFinite_neg]; exact ha) ha h2 h1

theorem SlotOk.filtModF {pf : Platform} (hpf : PlatformOk pf) {f : CregFile} {q : Slot} (hq : SlotOk f q) {x : F64}
    (hx : F64.isNaN x = false) : SlotOk f (filtModF pf f q x).2 ∧ F64.isNaN (filtModF pf f q x).1 = false := by
  obtain ⟨h1, h2, h3⟩ := hq.lfo.oscNext hpf
  obtain ⟨-, -, g3, g4⟩ := oscNext_frame pf f q.lfo
  have hok : SlotOk f { q with lfo := (oscNext pf f q.lfo).2 } :=
    ⟨hq.intensity, h1, ⟨g4.trans hq.running.1, g3.trans hq.running.2⟩⟩
  unfold Sys2Proof.Machine.filtModF
  dsimp only
  split
  · exact ⟨hok, hx⟩
  · refine ⟨hok, isNaN_add_comm_side hx (isFinite_mul_unit h2 ?_ hq.intensity)⟩
    rw [← hq.running.2]; exact h3

/-- The chain never gives a NaN, keeps every slot good and keeps their number (42_filter.md R215). -/
theorem chainModF_ok {pf : Platform} (hpf : PlatformOk pf) {f : CregFile} :
    ∀ (slots : List Slot) {x : F64}, (∀ q ∈ slots, SlotOk f q) → F64.isNaN x = false →
      (∀ q ∈ (chainModF pf f slots x).2, SlotOk f q) ∧ (chainModF pf f slots x).2.length = slots.length
        ∧ F64.isNaN (chainModF pf f slots x).1 = false
  | [], _, h, hx => ⟨h, rfl, hx⟩
  | q :: rest, x, h, hx => by
    obtain ⟨h1, h2⟩ := (h q (by simp)).filtModF hpf hx
    obtain ⟨g1, g2, g3⟩ := chainModF_ok hpf rest (fun q' hq' => h q' (by simp [hq'])) h2
    simp only [chainModF]
    refine ⟨?_, by simp [g2], g3⟩
    intro q' hq'
    rcases List.mem_cons.1 hq' with rfl | hq'
    · exact h1
    · exact g1 q' hq'

/-- The amplitude hooks give the amplitude back (42_filter.md R214, R215). -/
@[simp] theorem chainModA_eq (slots : List Slot) (a : F64) : chainModA slots a = a := by
  induction slots with
  | nil => rfl
  | cons q rest ih => simpa [chainModA, filtModA] using ih

/-! The envelope -/

/-- A product of a duration in [0, 60] and SAMPLE_RATE: finite, and at least the duration. -/
theorem duration_product {f : CregFile} (hf : CregOk f) {d : F64} (hd : Within F64.zero F64.sixty d) :
    F64.isFinite (mul d f.sampleRate) = true ∧ sign (mul d f.sampleRate) = false ∧ value d ≤ value (mul d f.sampleRate)
      ∧ value (mul d f.sampleRate) ≤ value (mul F64.sixty f.sampleRate) := by
  have hdf : F64.isFinite d = true := hd.isFinite (by decide)
  have hsf := hf.finite_sampleRate
  have hs60 : F64.isFinite F64.sixty = true := by decide
  have hcap : value F64.sixty * value 0x41F0000000000000#64 ≤ value 0x444E000000000000#64 * oneUnits := by decide +kernel
  have h60 : ∀ x : F64, Within F64.zero F64.sixty x → F64.isFinite (mul x f.sampleRate) = true := by
    intro x hx
    have hxf : F64.isFinite x = true := hx.isFinite (by decide)
    refine isFinite_of_bounds (lo := zero) (hi := 0x444E000000000000#64) (by decide) (by decide)
      (le_value_mul hxf hsf (by decide) ?_) (value_mul_le hxf hsf (by decide) (le_trans ?_ hcap))
    · rw [value_zero, zero_mul]; exact mul_nonneg hx.nonneg hf.sampleRate_pos.le
    · exact mul_le_mul hx.value_le hf.sampleRate.value_le hf.sampleRate_pos.le (le_trans hx.nonneg hx.value_le)
  have hw60 : Within F64.zero F64.sixty F64.sixty := ⟨by decide, by decide, by decide⟩
  refine ⟨h60 d hd, by rw [sign_mul_of_finite hdf hsf, hd.sign, hf.sampleRate.sign]; rfl, ?_, ?_⟩
  · exact le_value_mul hdf hsf (isNaN_of_finite hdf) (mul_le_mul_of_nonneg_left hf.sampleRate_ge hd.nonneg)
  · have hm : F64.isFinite (mul F64.sixty f.sampleRate) = true := h60 _ hw60
    have hd60 := hd.value_le
    rw [mul_of_finite hdf hsf, mul_of_finite hs60 hsf, rounded, rounded, hd.sign, hf.sampleRate.sign,
      value_ofMag (roundMag_lt _ _), value_ofMag (roundMag_lt _ _)]
    have hmono : roundMag (units d * units f.sampleRate) oneUnits ≤ roundMag (units F64.sixty * units f.sampleRate) oneUnits := by
      apply roundMag_mono oneUnits_pos oneUnits_pos
      have hu : units d ≤ units F64.sixty := by
        rw [← natAbs_value, ← natAbs_value]; have := hd.nonneg; omega
      gcongr
    have := unitsOfMag_strictMono.monotone hmono
    simpa [show sign F64.sixty = false by decide] using this

theorem ceil_mono {x y : F64} (hx : F64.isFinite x = true) (hy : F64.isFinite y = true) (h : value x ≤ value y) :
    F64.ceil x ≤ F64.ceil y := by
  simp only [F64.ceil, hx, hy, if_true]
  have := Int.ediv_le_ediv (c := (oneUnits : Int)) (by exact_mod_cast oneUnits_pos) (neg_le_neg h)
  omega

theorem EnvelopeOk.decayCheck {f : CregFile} (hf : CregOk f) {e : Envelope} (he : EnvelopeOk f e) (hg : e.gate = true) :
    EnvelopeOk f (decayCheck f e) := by
  unfold Sys2Proof.Machine.decayCheck
  split
  · next hc =>
    simp only [Bool.and_eq_true] at hc
    obtain ⟨⟨-, hd⟩, -⟩ := hc
    obtain ⟨h1, h2, h3, h4⟩ := duration_product hf he.decay
    have hn := hf.negligible
    rw [lt_iff hn.isNaN he.decay.isNaN] at hd
    have hpos : value (mul e.decay f.sampleRate) ≠ 0 := by have := hn.nonneg; omega
    have hsf : F64.isFinite e.sustain = true := he.sustain.isFinite (by decide)
    have hnum : F64.isFinite (F64.sub e.sustain F64.one) = true := by
      refine isFinite_of_bounds (lo := F64.minusOne) (hi := F64.one) (by decide) (by decide) ?_ ?_
      · refine le_value_add hsf (by decide) (by decide) ?_
        rw [value_neg, show value F64.minusOne = -value F64.one by decide +kernel]
        have := he.sustain.nonneg; omega
      · refine value_add_le hsf (by decide) (by decide) ?_
        rw [value_neg]
        have h1 := he.sustain.value_le
        have h0 := he.sustain.nonneg; omega
    refine ⟨he.attack, he.decay, he.sustain, he.release, he.vol, isNaN_div_of_finite hnum h1 (.inr hpos), ?_, he.smooth,
      he.target, fun _ => hg⟩
    have h60 := (duration_product hf (d := F64.sixty) ⟨by decide, by decide, by decide⟩).1
    have := ceil_mono h1 h60 h4
    unfold maxCount
    simp only
    omega
  · exact he

/-- A ramp velocity is no NaN: its numerator is not zero (41_envelope.md R190). -/
theorem isNaN_ramp {f : CregFile} (hf : CregOk f) {d n : F64} (hd : Within F64.zero F64.sixty d)
    (hn : F64.isFinite n = true) (h0 : value n ≠ 0) : F64.isNaN (F64.div n (mul d f.sampleRate)) = false :=
  isNaN_div_of_finite hn (duration_product hf hd).1 (.inl h0)

theorem EnvelopeOk.activate {f : CregFile} (hf : CregOk f) (b : Bool) {e : Envelope} (he : EnvelopeOk f e) :
    EnvelopeOk f (envActivate f b e) := by
  have h01 : Within F64.zero F64.one F64.zero := within_zero (by decide) (by decide)
  cases b
  · simp only [envActivate, Bool.false_eq_true, if_false, envActivateOff]
    split
    · split
      · exact ⟨he.attack, he.decay, he.sustain, he.release, h01, rfl, Nat.zero_le _, he.smooth, he.target, by simp⟩
      · exact ⟨he.attack, he.decay, he.sustain, he.release, he.vol,
          isNaN_ramp hf he.release (by decide) (by decide +kernel), Nat.zero_le _, he.smooth, he.target, by simp⟩
    · exact he
  · simp only [envActivate, if_true, envActivateOn]
    split
    · next hg => exact he.decayCheck hf hg
    · split
      · exact ⟨he.attack, he.decay, he.sustain, he.release, within_one, rfl, he.count, he.smooth, he.target, fun _ => rfl⟩
      · exact ⟨he.attack, he.decay, he.sustain, he.release, he.vol,
          isNaN_ramp hf he.attack (by decide) (by decide +kernel), he.count, he.smooth, he.target, fun _ => rfl⟩

theorem EnvelopeOk.volume {f : CregFile} {v : F64} (hv : F64.isNaN v = false) {e : Envelope} (he : EnvelopeOk f e) :
    EnvelopeOk f (envVolume v e) :=
  ⟨he.attack, he.decay, he.sustain, he.release, he.vol, he.vel, he.count, he.smooth, within_sat01 hv, he.gated⟩

theorem within_sixty {x : F64} (hx : F64.isNaN x = false) : Within F64.zero F64.sixty (clamp x F64.zero F64.sixty) :=
  within_clamp hx (by decide) (by decide) (by decide) (by decide) (by decide +kernel)

/-- Smoothing stays in [0.0, 2.0]: it never moves below zero and never above the larger of what it was and the target plus
one (DEDUCED; 41_envelope.md R191 claims only that it is finite). -/
theorem within_smooth {a t s : F64} (ha : Within F64.zero F64.one a) (ht : Within F64.zero F64.one t)
    (hs : Within F64.zero 0x4000000000000000#64 s) :
    Within F64.zero 0x4000000000000000#64 (F64.add s (mul a (F64.sub t s))) := by
  have haf : F64.isFinite a = true := ha.isFinite (by decide)
  have htf : F64.isFinite t = true := ht.isFinite (by decide)
  have hsf : F64.isFinite s = true := hs.isFinite (by decide)
  have hnsf : F64.isFinite (neg s) = true := by rw [isFinite_neg]; exact hsf
  have ha0 := ha.nonneg
  have ha1 := ha.value_le
  have ht0 := ht.nonneg
  have ht1 := ht.value_le
  have hs0 := hs.nonneg
  have hs2 := hs.value_le
  have htwo : value 0x4000000000000000#64 = value F64.one + value F64.one := by decide +kernel
  have h1u : value F64.one = oneUnits := value_one
  have d_lo : -value s ≤ value (F64.sub t s) := by
    rw [← value_neg]
    exact le_value_add htf hnsf (isNaN_of_finite hnsf) (by rw [value_neg]; omega)
  have d_hi : value (F64.sub t s) ≤ value t :=
    value_add_le htf hnsf (isNaN_of_finite htf) (by rw [value_neg]; omega)
  have hdf : F64.isFinite (F64.sub t s) = true := isFinite_of_bounds hnsf htf (by rw [value_neg]; exact d_lo) d_hi
  have finish : ∀ m : F64, F64.isFinite m = true → 0 ≤ value s + value m →
      value s + value m ≤ value 0x4000000000000000#64 → Within F64.zero 0x4000000000000000#64 (F64.add s m) := by
    intro m hm h0 h2
    exact within_of_value (by decide) (by decide) (isNaN_add_of_finite hsf hm)
      (le_value_add hsf hm (by decide) (by rw [value_zero]; exact h0)) (value_add_le hsf hm (by decide) h2)
      (sign_add_of_nonneg hsf hm h0 (.inl hs.sign))
  generalize hd : F64.sub t s = d at *
  have prod_hi : ∀ c : F64, F64.isNaN c = false → 0 ≤ value c → value d ≤ value c → value (mul a d) ≤ value c := by
    intro c hc hc0 hdc
    refine value_mul_le haf hdf hc ?_
    rw [← h1u]
    calc value a * value d ≤ value a * value c := mul_le_mul_of_nonneg_left hdc ha0
      _ ≤ value F64.one * value c := mul_le_mul_of_nonneg_right ha1 hc0
      _ = value c * value F64.one := mul_comm _ _
  have prod_lo : ∀ c : F64, F64.isNaN c = false → value c ≤ 0 → value c ≤ value d → value c ≤ value (mul a d) := by
    intro c hc hc0 hdc
    refine le_value_mul haf hdf hc ?_
    rw [← h1u]
    calc value c * value F64.one = value F64.one * value c := mul_comm _ _
      _ ≤ value a * value c := mul_le_mul_of_nonpos_right ha1 hc0
      _ ≤ value a * value d := mul_le_mul_of_nonneg_left hdc ha0
  rcases le_total (value s) (value t) with hst | hst
  · have hd0 : value F64.zero ≤ value d := by
      rw [← hd]
      exact le_value_add htf hnsf (by decide) (by rw [value_zero, value_neg]; omega)
    have m_hi := prod_hi t (isNaN_of_finite htf) ht0 d_hi
    have m_lo := prod_lo F64.zero (by decide) (by rw [value_zero]) hd0
    have hmf : F64.isFinite (mul a d) = true := isFinite_of_bounds (by decide) htf m_lo m_hi
    rw [value_zero] at m_lo
    exact finish _ hmf (by omega) (by omega)
  · have hd0 : value d ≤ value F64.zero := by
      rw [← hd]
      exact value_add_le htf hnsf (by decide) (by rw [value_zero, value_neg]; omega)
    have m_hi := prod_hi F64.zero (by decide) (by rw [value_zero]) hd0
    have m_lo := prod_lo (neg s) (isNaN_of_finite hnsf) (by rw [value_neg]; omega) (by rw [value_neg]; exact d_lo)
    have hmf : F64.isFinite (mul a d) = true := isFinite_of_bounds hnsf (by decide) m_lo m_hi
    rw [value_zero] at m_hi
    rw [value_neg] at m_lo
    exact finish _ hmf (by omega) (by omega)

/-- The first three updates of a sample step at once; the fourth is the poll (41_envelope.md R180). -/
theorem envStep_eq (f : CregFile) (e : Envelope) :
    envStep f e = envPoll f
      { e with
        vol := F64.sat01 (F64.add e.vol e.vel)
        count := e.count - 1
        vel := if e.count = 1 then F64.zero else e.vel
        smooth := F64.add e.smooth (F64.mul f.smoothAlpha (F64.sub e.target e.smooth)) } := by
  unfold envStep envSmooth envCountdown envAdvance
  by_cases h0 : e.count = 0
  · simp [h0]
  · by_cases h1 : e.count = 1 <;> simp [h0, h1]

/-- The poll writes nothing but the velocity and the countdown (41_envelope.md R173, R192). -/
theorem envPoll_frame (f : CregFile) (e : Envelope) :
    envPoll f e = { e with vel := (envPoll f e).vel, count := (envPoll f e).count } := by
  unfold envPoll decayCheck; split_ifs <;> rfl

/-- The poll does nothing while a decay is scheduled (41_envelope.md R179). -/
theorem envPoll_counting {f : CregFile} {e : Envelope} (h : 0 < e.count) : envPoll f e = e := by
  unfold envPoll decayCheck
  have h0 : (e.count == 0) = false := by simpa using (by omega : e.count ≠ 0)
  simp [h0]

@[simp] theorem envStep_vol (f : CregFile) (e : Envelope) : (envStep f e).vol = F64.sat01 (F64.add e.vol e.vel) := by
  rw [envStep_eq, envPoll_frame]
@[simp] theorem envStep_smooth (f : CregFile) (e : Envelope) :
    (envStep f e).smooth = F64.add e.smooth (F64.mul f.smoothAlpha (F64.sub e.target e.smooth)) := by
  rw [envStep_eq, envPoll_frame]
@[simp] theorem envStep_attack (f : CregFile) (e : Envelope) : (envStep f e).attack = e.attack := by rw [envStep_eq, envPoll_frame]
@[simp] theorem envStep_decay (f : CregFile) (e : Envelope) : (envStep f e).decay = e.decay := by rw [envStep_eq, envPoll_frame]
@[simp] theorem envStep_sustain (f : CregFile) (e : Envelope) : (envStep f e).sustain = e.sustain := by
  rw [envStep_eq, envPoll_frame]
@[simp] theorem envStep_release (f : CregFile) (e : Envelope) : (envStep f e).release = e.release := by
  rw [envStep_eq, envPoll_frame]
@[simp] theorem envStep_target (f : CregFile) (e : Envelope) : (envStep f e).target = e.target := by rw [envStep_eq, envPoll_frame]
@[simp] theorem envStep_gate (f : CregFile) (e : Envelope) : (envStep f e).gate = e.gate := by rw [envStep_eq, envPoll_frame]

/-- Before its last step a countdown falls by one and keeps the velocity, in either poll mode (41_envelope.md R179, R180). -/
theorem envStep_counting {f : CregFile} {e : Envelope} (h : 1 < e.count) :
    (envStep f e).count = e.count - 1 ∧ (envStep f e).vel = e.vel := by
  rw [envStep_eq, envPoll_counting (by simp only; omega)]
  exact ⟨rfl, if_neg (by omega)⟩

theorem EnvelopeOk.step {f : CregFile} (hf : CregOk f) {e : Envelope} (he : EnvelopeOk f e) : EnvelopeOk f (envStep f e) := by
  have h1 : EnvelopeOk f (envAdvance e) :=
    ⟨he.attack, he.decay, he.sustain, he.release,
      within_sat01 (isNaN_add (he.vol.isFinite (by decide)) he.vel), he.vel, he.count, he.smooth, he.target, he.gated⟩
  have h2 : ∀ e1, EnvelopeOk f e1 → EnvelopeOk f (envCountdown e1) := by
    intro e1 h1
    unfold envCountdown
    split
    · exact h1
    · split
      · exact ⟨h1.attack, h1.decay, h1.sustain, h1.release, h1.vol, rfl, Nat.zero_le _, h1.smooth, h1.target, by simp⟩
      · exact ⟨h1.attack, h1.decay, h1.sustain, h1.release, h1.vol, h1.vel, by have := h1.count; simp only; omega,
          h1.smooth, h1.target, fun _ => h1.gated (by omega)⟩
  have h3 : ∀ e2, EnvelopeOk f e2 → EnvelopeOk f (envSmooth f e2) := fun e2 h2 =>
    ⟨h2.attack, h2.decay, h2.sustain, h2.release, h2.vol, h2.vel, h2.count,
      within_smooth hf.smoothAlpha h2.target h2.smooth, h2.target, h2.gated⟩
  have h4 : ∀ e3, EnvelopeOk f e3 → EnvelopeOk f (envPoll f e3) := by
    intro e3 he3
    unfold envPoll
    split
    · next hp => exact he3.decayCheck hf hp.2
    · exact he3
  exact h4 _ (h3 _ (h2 _ h1))

/-- The volume a sample step gives the oscillator lies in [0, target] (41_envelope.md R181, R197). -/
theorem within_outputVolume {f : CregFile} {e : Envelope} (he : EnvelopeOk f e) :
    Within F64.zero e.target (envOutputVolume e) :=
  within_clamp (isNaN_mul_of_finite (he.vol.isFinite (by decide)) (he.smooth.isFinite (by decide))) (by decide) he.target.isNaN
    (by decide) he.target.sign (by rw [value_zero]; exact he.target.nonneg)

/-- A value in [0, 1] is not changed by sat01. -/
theorem sat01_of_within {x : F64} (hx : Within F64.zero F64.one x) : sat01 x = x := by
  unfold sat01 clamp
  split
  · next h =>
    rw [le_iff hx.isNaN (by decide), value_zero] at h
    have := hx.nonneg
    exact eq_of_value (by rw [hx.sign]; decide) (by rw [value_zero]; omega)
  · split
    · next h =>
      rw [le_iff (by decide) hx.isNaN] at h
      have := hx.value_le
      exact eq_of_value (by rw [hx.sign]; decide) (by omega)
    · rfl

/-! The pipe -/

/-- Everything a pipe's sample step keeps: the pipe stays good, the sample is finite and at most the oscillator volume, which
is at most the target (10_state.md R50 I3, 40_oscillator.md R147, 41_envelope.md R197). -/
theorem PipeOk.next {pf : Platform} (hpf : PlatformOk pf) {f : CregFile} (hf : CregOk f) {n : Nat} {p : Pipe} (hp : PipeOk f n p) :
    PipeOk f n (pipeNext pf f p).2 ∧ F64.isFinite (pipeNext pf f p).1 = true
      ∧ |value (pipeNext pf f p).1| ≤ value (pipeNext pf f p).2.osc.vol
      ∧ Within F64.zero (pipeNext pf f p).2.env.target (pipeNext pf f p).2.osc.vol
      ∧ (pipeNext pf f p).2.env.target = p.env.target ∧ (pipeNext pf f p).2.env.gate = p.env.gate
      ∧ (pipeNext pf f p).2.freq0 = p.freq0 ∧ (pipeNext pf f p).2.acc = p.acc := by
  obtain ⟨c1, c2, c3⟩ := chainModF_ok hpf p.slots hp.slots (isNaN_of_finite hp.freq0)
  have he := hp.env.step hf
  have ho := hp.osc.oscFrequency hf c3
  have hw := within_outputVolume he
  have hd : OscillatorOk f (envDrive f (envStep f p.env) (oscFrequency f (chainModF pf f p.slots p.freq0).1 p.osc)) :=
    (ho.oscActivate _).oscVolume hw.isNaN
  obtain ⟨n1, n2, n3⟩ := hd.oscNext hpf
  obtain ⟨-, -, g3, -⟩ := oscNext_frame pf f
    (envDrive f (envStep f p.env) (oscFrequency f (chainModF pf f p.slots p.freq0).1 p.osc))
  have hvol : (envDrive f (envStep f p.env) (oscFrequency f (chainModF pf f p.slots p.freq0).1 p.osc)).vol
      = envOutputVolume (envStep f p.env) := by
    refine sat01_of_within ⟨hw.ge, ?_, hw.sign⟩
    rw [le_iff hw.isNaN (by decide)]
    exact le_trans hw.value_le he.target.value_le
  have htg : (envStep f p.env).target = p.env.target ∧ (envStep f p.env).gate = p.env.gate :=
    ⟨envStep_target f p.env, envStep_gate f p.env⟩
  simp only [pipeNext, envNext, chainModA_eq]
  refine ⟨⟨hp.freq0, n1, he, by rw [c2]; exact hp.slotCount, c1, hp.acc⟩, n2, ?_, ?_, htg.1, htg.2, trivial, trivial⟩
  · rw [g3]; exact n3
  · rw [g3, hvol]; exact hw

/-! The organ -/

theorem value_eight_pos : 0 < value F64.eight := by decide +kernel

/-- A drawbar's volume: k/8 for k in 0..8 (10_state.md R42). -/
theorem drawbar_division : ∀ d : Fin 9, Within F64.zero F64.one (F64.div (F64.ofInt d.val) F64.eight)
    ∧ value (F64.div (F64.ofInt d.val) F64.eight) = d.val * eighthUnits := by
  intro d
  have h : ∀ d : Fin 9, F64.le F64.zero (F64.div (F64.ofInt d.val) F64.eight) = true
      ∧ F64.le (F64.div (F64.ofInt d.val) F64.eight) F64.one = true
      ∧ F64.sign (F64.div (F64.ofInt d.val) F64.eight) = false
      ∧ value (F64.div (F64.ofInt d.val) F64.eight) = d.val * eighthUnits := by decide +kernel
  exact ⟨⟨(h d).1, (h d).2.1, (h d).2.2.1⟩, (h d).2.2.2⟩


end Sys2Proof.Machine
end

