-- ==== Sys2Proof/Laws/Organ.lean ====
section
/-! SUPPORT. Construction, the key transition and the sample step keep what exists in phase RUN good (10_state.md R42, R43, R49). -/

namespace Sys2Proof.Machine

open F64

/-! The accumulator -/

theorem roundMag_max_add_one : roundMag (unitsOfMag (infMag - 1) + oneUnits) 1 = infMag - 1 := by decide +kernel

/-- A finite value plus one of magnitude at most 1.0 is finite. -/
theorem isFinite_add_unit {a b : F64} (ha : F64.isFinite a = true) (hb : F64.isFinite b = true)
    (h : |value b| ≤ value F64.one) : F64.isFinite (F64.add a b) = true := by
  rw [add_of_finite ha hb]
  split
  · exact isFinite_ofMag (by decide)
  · have hle : (value a + value b).natAbs ≤ unitsOfMag (infMag - 1) + oneUnits := by
      have h1 : units a ≤ unitsOfMag (infMag - 1) := by
        rw [isFinite_iff] at ha
        exact unitsOfMag_strictMono.monotone (by omega)
      rw [← natAbs_value] at h1
      rw [value_one] at h
      generalize unitsOfMag (infMag - 1) = m at *
      generalize oneUnits = u at *
      rw [abs_le] at h
      omega
    refine isFinite_ofMag (lt_of_le_of_lt (b := infMag - 1) ?_ (by decide))
    rw [← roundMag_max_add_one]
    exact roundMag_mono Nat.one_pos Nat.one_pos (Nat.mul_le_mul_right 1 hle)

/-! The build constants -/

theorem CregOk.drawbar_range {f : CregFile} (h : CregOk f) (i : Fin 16) : 0 ≤ f.drawbar[i] ∧ f.drawbar[i] ≤ 8 := by
  simpa [IntReg.lo, IntReg.hi, CregFile.getInt] using h.int (.drawbar i)

/-- Every drawbar volume is k/8 for a k in 0..8 (10_state.md R42). -/
theorem mem_drawbarVolumes {f : CregFile} (hf : CregOk f) {v : F64} (hv : v ∈ drawbarVolumes f) :
    ∃ d : Fin 9, v = F64.div (F64.ofInt d.val) F64.eight := by
  unfold drawbarVolumes at hv
  obtain ⟨d, hd, rfl⟩ := List.mem_map.1 hv
  have hd' := List.mem_of_mem_take hd
  rw [Vector.mem_toList_iff] at hd'
  obtain ⟨i, hi, rfl⟩ := Vector.getElem_of_mem hd'
  have := hf.drawbar_range ⟨i, hi⟩
  simp only [Fin.getElem_fin] at this
  refine ⟨⟨f.drawbar[i].toNat, by omega⟩, ?_⟩
  simp only
  rw [Int.toNat_of_nonneg this.1]

theorem within_drawbarVolume {f : CregFile} (hf : CregOk f) {v : F64} (hv : v ∈ drawbarVolumes f) :
    Within F64.zero F64.one v := by
  obtain ⟨d, rfl⟩ := mem_drawbarVolumes hf hv
  exact (drawbar_division d).1

/-! Construction -/

theorem OscillatorOk.built {f : CregFile} (hf : CregOk f) : OscillatorOk f builtPipeOscillator := by
  have hz : Within F64.zero F64.twoPi F64.zero ∧ F64.lt F64.zero F64.twoPi = true :=
    ⟨within_zero (by decide) (by decide), by decide⟩
  exact ⟨hz, within_zero (by decide) (by decide), within_zero hf.maxFrequency.isNaN hf.maxFrequency.sign,
    within_zero (by decide) (by decide), by decide⟩

theorem SlotOk.built {f : CregFile} (hf : CregOk f) : SlotOk f builtSlot := by
  have hz : Within F64.zero F64.twoPi F64.zero ∧ F64.lt F64.zero F64.twoPi = true :=
    ⟨within_zero (by decide) (by decide), by decide⟩
  exact ⟨by decide, ⟨hz, within_zero (by decide) (by decide), within_zero hf.maxFrequency.isNaN hf.maxFrequency.sign,
    within_one, by decide⟩, ⟨rfl, rfl⟩⟩

theorem EnvelopeOk.built {f : CregFile} (hf : CregOk f) : EnvelopeOk f (builtEnvelope f) :=
  ⟨hf.f64 .organAttack, hf.f64 .organDecay, hf.f64 .organSustain, hf.f64 .organRelease,
    within_zero (by decide) (by decide), rfl, Nat.zero_le _, within_zero (by decide) (by decide),
    within_zero (by decide) (by decide), by simp [builtEnvelope]⟩

theorem PipeOk.built {pf : Platform} (hpf : PlatformOk pf) {f : CregFile} (hf : CregOk f) {c : Int} (h1 : -512 ≤ c) (h2 : c ≤ 511) :
    PipeOk f f.filterSlots.toNat (builtPipe pf f c) := by
  have hp := hpf.pitch c h1 h2
  refine ⟨hp, (OscillatorOk.built hf).oscFrequency hf (isNaN_of_finite hp), EnvelopeOk.built hf, by simp [builtPipe], ?_, rfl⟩
  intro q hq
  simp only [builtPipe, List.mem_replicate] at hq
  rw [hq.2]; exact SlotOk.built hf

theorem OrganOk.built {pf : Platform} (hpf : PlatformOk pf) {f : CregFile} (hf : CregOk f) (hm : configMismatch f = false) :
    OrganOk f (builtOrgan pf f) := by
  simp only [configMismatch, Bool.or_eq_false_iff, decide_eq_false_iff_not, not_not, not_lt] at hm
  have hlo := hf.int .pipeLo
  have hhi := hf.int .pipeHi
  have hfs := hf.int .filterSlots
  simp only [IntReg.lo, IntReg.hi, CregFile.getInt] at hlo hhi hfs
  refine ⟨rfl, ?_, hm.2, hm.1, by simp [builtOrgan]; omega, rfl, rfl, ?_⟩
  · simp [Organ.pipeHi, builtOrgan, pipeCodes]; omega
  · intro p hp
    obtain ⟨c, hc, rfl⟩ := List.mem_map.1 hp
    obtain ⟨n, hn, rfl⟩ := List.mem_map.1 hc
    rw [List.mem_range] at hn
    exact PipeOk.built hpf hf (by omega) (by omega)

/-! Rewriting pipes -/

theorem OrganOk.modifyPipe {f : CregFile} {o : Organ} (ho : OrganOk f o) (c : Int) {g : Pipe → Pipe}
    (hg : ∀ p, PipeOk f o.filterSlots p → PipeOk f o.filterSlots (g p)) : OrganOk f (o.modifyPipe c g) := by
  refine ⟨by simpa using ho.pipeLo, ?_, ho.somePipe, ho.sizes, by simpa using ho.filterSlots, by simpa using ho.dv,
    by simpa using ho.comp, ?_⟩
  · simpa [Organ.pipeHi] using ho.pipeHi
  · rw [Organ.modifyPipe_filterSlots]
    exact Organ.forall_modifyPipe ho.pipes hg

theorem OrganOk.mapPipes {f : CregFile} {o : Organ} (ho : OrganOk f o) {g : Pipe → Pipe}
    (hg : ∀ p, PipeOk f o.filterSlots p → PipeOk f o.filterSlots (g p)) : OrganOk f (o.mapPipes g) := by
  refine ⟨ho.pipeLo, ?_, ho.somePipe, ho.sizes, ho.filterSlots, ho.dv, ho.comp, ?_⟩
  · simpa [Organ.pipeHi, Organ.mapPipes] using ho.pipeHi
  · intro p hp
    obtain ⟨p', hp', rfl⟩ := List.mem_map.1 hp
    exact hg _ (ho.pipes _ hp')

theorem OrganOk.apply {f : CregFile} {o : Organ} (ho : OrganOk f o) (sel : PipeOperand) {g : Pipe → Pipe}
    (hg : ∀ p, PipeOk f o.filterSlots p → PipeOk f o.filterSlots (g p)) : OrganOk f (o.apply sel g) := by
  cases sel with
  | every => exact ho.mapPipes hg
  | one c => exact ho.modifyPipe c hg

theorem PipeOk.modifyEnv {f : CregFile} {n : Nat} {p : Pipe} (hp : PipeOk f n p) {g : Envelope → Envelope}
    (hg : ∀ e, EnvelopeOk f e → EnvelopeOk f (g e)) : PipeOk f n (p.modifyEnv g) :=
  ⟨hp.freq0, hp.osc, hg _ hp.env, hp.slotCount, hp.slots, hp.acc⟩

theorem PipeOk.modifySlot {f : CregFile} {n : Nat} {p : Pipe} (hp : PipeOk f n p) (k : Nat) {g : Slot → Slot}
    (hg : ∀ q, SlotOk f q → SlotOk f (g q)) : PipeOk f n (p.modifySlot k g) := by
  refine ⟨hp.freq0, hp.osc, hp.env, by simpa [Pipe.modifySlot] using hp.slotCount, ?_, hp.acc⟩
  intro q hq
  simp only [Pipe.modifySlot] at hq
  obtain ⟨i, hi, rfl⟩ := List.mem_iff_getElem.1 hq
  simp only [List.length_modify] at hi
  rw [List.getElem_modify]
  split
  · exact hg _ (hp.slots _ (List.getElem_mem _))
  · exact hp.slots _ (List.getElem_mem _)

/-! The key transition -/

theorem PipeOk.drawbarEffect {f : CregFile} (hf : CregOk f) (pressed : Bool) {dv : F64} (hd : Within F64.zero F64.one dv) {n : Nat}
    {p : Pipe} (hp : PipeOk f n p) : PipeOk f n (drawbarEffect f pressed dv p) := by
  have hdf : F64.isFinite dv = true := hd.isFinite (by decide)
  have habs : |value dv| ≤ value F64.one := by rw [abs_of_nonneg hd.nonneg]; exact hd.value_le
  have hacc : F64.isFinite (if pressed then F64.add p.acc dv else F64.sub p.acc dv) = true := by
    split
    · exact isFinite_add_unit hp.acc hdf habs
    · exact isFinite_add_unit hp.acc (by rw [isFinite_neg]; exact hdf) (by rw [value_neg, abs_neg]; exact habs)
  unfold Sys2Proof.Machine.drawbarEffect
  generalize (if pressed then F64.add p.acc dv else F64.sub p.acc dv) = acc at *
  dsimp only
  split
  · exact ⟨hp.freq0, hp.osc, hp.env.activate hf false, hp.slotCount, hp.slots, hacc⟩
  · exact ⟨hp.freq0, hp.osc, (hp.env.volume (within_sat01 (isNaN_of_finite hacc)).isNaN).activate hf true, hp.slotCount,
      hp.slots, hacc⟩

theorem OrganOk.drawbarLoop {f : CregFile} (hf : CregOk f) (pressed : Bool) (k : Int) :
    ∀ (drawbars : List (F64 × Int)) {o : Organ}, (∀ d ∈ drawbars, Within F64.zero F64.one d.1) → OrganOk f o →
      OrganOk f (drawbarLoop f pressed k drawbars o)
  | [], _, _, ho => ho
  | (dv, offset) :: rest, o, hd, ho => by
    unfold Sys2Proof.Machine.drawbarLoop
    exact OrganOk.drawbarLoop hf pressed k rest (fun d hd' => hd d (by simp [hd']))
      (ho.modifyPipe _ fun _ hp => hp.drawbarEffect hf pressed (hd (dv, offset) (by simp)))

theorem OrganOk.setKey {f : CregFile} {o : Organ} (ho : OrganOk f o) (k : CodeField) (b : Bool) : OrganOk f (o.setKey k b) :=
  ⟨ho.pipeLo, ho.pipeHi, ho.somePipe, ho.sizes, ho.filterSlots, ho.dv, ho.comp, ho.pipes⟩

theorem within_of_mem_drawbars {f : CregFile} (hf : CregOk f) {o : Organ} (ho : OrganOk f o) {d : F64 × Int}
    (hd : d ∈ o.drawbars f) : Within F64.zero F64.one d.1 := by
  obtain ⟨d1, d2⟩ := d
  have h := (List.of_mem_zip hd).1
  rw [ho.dv] at h
  exact within_drawbarVolume hf h

theorem OrganOk.keyTransition {f : CregFile} (hf : CregOk f) (k : CodeField) (pressed : Bool) {o : Organ} (ho : OrganOk f o) :
    OrganOk f (keyTransition f k pressed o) := by
  unfold Sys2Proof.Machine.keyTransition
  split
  · exact ho
  · exact OrganOk.drawbarLoop hf pressed _ _ (fun d hd => within_of_mem_drawbars hf ho hd) (ho.setKey k pressed)

/-! The sample step -/

theorem OrganOk.afterSample {pf : Platform} (hpf : PlatformOk pf) {f : CregFile} (hf : CregOk f) {o : Organ} (ho : OrganOk f o) :
    OrganOk f (o.afterSample pf f) := ho.mapPipes fun _ hp => (hp.next hpf hf).1

end Sys2Proof.Machine
end

