-- ==== Sys2Proof/Laws/Accounting.lean ====
section
/-! SUPPORT. Sums of eighths are exact (10_state.md R49), and what the drawbar loop does to one pipe (43_mixer.md R250). -/

namespace Sys2Proof.Machine

open F64

theorem eighthUnits_eq : eighthUnits = 2 ^ 1071 := by unfold eighthUnits; rfl

theorem eighthUnits_pos : 0 < eighthUnits := by rw [eighthUnits_eq]; exact Nat.pow_pos (by norm_num)

/-- A sum whose exact value is a nonnegative multiple of 1/8 below 2^50 is exact, and is not -0.0. -/
theorem add_eighths {a b : F64} {n : Nat} (ha : F64.isFinite a = true) (hb : F64.isFinite b = true)
    (h : value a + value b = n * eighthUnits) (hn : n < 2 ^ 53) (hs : sign a = false ∨ sign b = false) :
    F64.isFinite (F64.add a b) = true ∧ sign (F64.add a b) = false ∧ value (F64.add a b) = n * eighthUnits := by
  obtain ⟨m, hm⟩ : ∃ m, unitsOfMag m = n * eighthUnits := by
    rw [eighthUnits_eq]; exact exists_mag 1071 n hn
  have hlt : m < infMag := by
    rw [← unitsOfMag_strictMono.lt_iff_lt, hm]
    exact lt_trans (Nat.mul_lt_mul_of_pos_right hn eighthUnits_pos) (by decide +kernel)
  have hv : value (ofMag false m) = n * eighthUnits := by
    rw [value_ofMag (lt_trans hlt infMag_lt)]
    simp only [Bool.false_eq_true, if_false, hm]
    push_cast; rfl
  have hc : F64.isFinite (ofMag false m) = true := isFinite_ofMag hlt
  have hex := value_add_exact ha hb (isNaN_of_finite hc) (h.trans hv.symm)
  refine ⟨isFinite_of_bounds hc hc hex.ge hex.le, sign_add_of_nonneg ha hb ?_ hs, hex.trans hv⟩
  rw [h]; exact mul_nonneg (Int.natCast_nonneg n) (Int.natCast_nonneg _)

/-- The drawbar loop changes a pipe by the drawbars whose offset reaches it, in increasing order, and no other. -/
theorem pipe?_drawbarLoop (f : CregFile) (pressed : Bool) (k c : Int) :
    ∀ (drawbars : List (F64 × Int)) (o : Organ),
      (drawbarLoop f pressed k drawbars o).pipe? c
        = (o.pipe? c).map fun p =>
            (drawbars.filter fun d => decide (k + d.2 = c)).foldl (fun p d => drawbarEffect f pressed d.1 p) p
  | [], o => by simp [drawbarLoop]
  | (dv, offset) :: rest, o => by
    rw [drawbarLoop, pipe?_drawbarLoop f pressed k c rest, Organ.pipe?_modifyPipe]
    by_cases h : c = k + offset
    · simp [h, Option.map_map, Function.comp_def]
    · have h' : ¬k + offset = c := fun he => h he.symm
      simp [h, h']

theorem drawbarLoop_frame (f : CregFile) (pressed : Bool) (k : Int) :
    ∀ (drawbars : List (F64 × Int)) (o : Organ),
      (drawbarLoop f pressed k drawbars o).key = o.key ∧ (drawbarLoop f pressed k drawbars o).dv = o.dv
        ∧ (drawbarLoop f pressed k drawbars o).comp = o.comp ∧ (drawbarLoop f pressed k drawbars o).pipeLo = o.pipeLo
        ∧ (drawbarLoop f pressed k drawbars o).filterSlots = o.filterSlots
        ∧ (drawbarLoop f pressed k drawbars o).pipes.length = o.pipes.length
  | [], _ => ⟨rfl, rfl, rfl, rfl, rfl, rfl⟩
  | (_, _) :: rest, o => by
    have h := drawbarLoop_frame f pressed k rest
    simp [drawbarLoop, h]

@[simp] theorem drawbarEffect_acc (f : CregFile) (pressed : Bool) (dv : F64) (p : Pipe) :
    (drawbarEffect f pressed dv p).acc = if pressed then F64.add p.acc dv else F64.sub p.acc dv := by
  unfold drawbarEffect
  generalize (if pressed then F64.add p.acc dv else F64.sub p.acc dv) = acc
  dsimp only
  split <;> rfl

/-! Sums of the volumes (43_mixer.md R252) -/

/-- A finite value that is `n` eighths, with a sign bit of 0. -/
def IsEighths (x : F64) (n : Nat) : Prop := F64.isFinite x = true ∧ sign x = false ∧ value x = n * eighthUnits

theorem drawbarVolume_eighths {f : CregFile} (hf : CregOk f) {v : F64} (hv : v ∈ drawbarVolumes f) : ∃ n : Nat, n ≤ 8 ∧ IsEighths v n := by
  obtain ⟨d, rfl⟩ := mem_drawbarVolumes hf hv
  obtain ⟨h1, h2⟩ := drawbar_division d
  exact ⟨d.val, by omega, h1.isFinite (by decide), h1.sign, h2⟩

/-- Pressing adds, exactly, the volumes of the drawbars that reach the pipe. -/
theorem fold_press (f : CregFile) : ∀ (ds : List (F64 × Int)) (p : Pipe) (n : Nat), (∀ d ∈ ds, ∃ m : Nat, m ≤ 8 ∧ IsEighths d.1 m) →
    IsEighths p.acc n → n + 8 * ds.length < 2 ^ 53 →
    ∃ m : Nat, (m : Int) * eighthUnits = (ds.map fun d => value d.1).sum ∧ m ≤ 8 * ds.length ∧
      IsEighths (ds.foldl (fun p d => drawbarEffect f true d.1 p) p).acc (n + m)
  | [], p, n, _, hp, _ => ⟨0, by simp, by simp, by simpa using hp⟩
  | d :: rest, p, n, hd, hp, hn => by
    obtain ⟨m, hm, e⟩ := hd d (by simp)
    simp only [List.length_cons] at hn
    have hacc : IsEighths (drawbarEffect f true d.1 p).acc (n + m) := by
      simp only [drawbarEffect_acc, if_true]
      refine add_eighths hp.1 e.1 ?_ (by omega) (.inl hp.2.1)
      rw [hp.2.2, e.2.2]; push_cast; exact (add_mul _ _ _).symm
    obtain ⟨m', h1, h2, h3⟩ := fold_press f rest _ _ (fun d' h' => hd d' (by simp [h'])) hacc (by omega)
    refine ⟨m + m', ?_, by simp; omega, ?_⟩
    · rw [List.map_cons, List.sum_cons, ← h1, e.2.2]; push_cast; exact add_mul _ _ _
    · rw [← Nat.add_assoc]; exact h3

/-- Releasing takes away, exactly, the volumes of the drawbars that reach the pipe, where at least that much is there. -/
theorem fold_release (f : CregFile) : ∀ (ds : List (F64 × Int)) (p : Pipe) (n m : Nat), (∀ d ∈ ds, ∃ m : Nat, m ≤ 8 ∧ IsEighths d.1 m) →
    IsEighths p.acc n → n < 2 ^ 53 → (m : Int) * eighthUnits = (ds.map fun d => value d.1).sum → m ≤ n →
      IsEighths (ds.foldl (fun p d => drawbarEffect f false d.1 p) p).acc (n - m)
  | [], p, n, m, _, hp, _, hm, _ => by
    simp only [List.map_nil, List.sum_nil, mul_eq_zero] at hm
    have hm := hm.resolve_right (by have := eighthUnits_pos; omega)
    have hm : m = 0 := by exact_mod_cast hm
    rw [hm]; simpa using hp
  | d :: rest, p, n, m, hd, hp, hn, hs, hmn => by
    obtain ⟨k, hk, e⟩ := hd d (by simp)
    rw [List.map_cons, List.sum_cons, e.2.2] at hs
    have hpos : (0 : Int) < eighthUnits := by exact_mod_cast eighthUnits_pos
    have hrest : 0 ≤ (rest.map fun d => value d.1).sum := by
      apply List.sum_nonneg
      intro x hx
      obtain ⟨d', h', rfl⟩ := List.mem_map.1 hx
      obtain ⟨_, _, e'⟩ := hd d' (by simp [h'])
      exact value_nonneg_of_sign_false e'.2.1
    have hkm : k ≤ m := by
      by_contra hc
      have : (m : Int) + 1 ≤ k := by omega
      nlinarith
    have hacc : IsEighths (drawbarEffect f false d.1 p).acc (n - k) := by
      simp only [drawbarEffect_acc, Bool.false_eq_true, if_false]
      refine add_eighths hp.1 (by rw [isFinite_neg]; exact e.1) ?_ (by omega) (.inl hp.2.1)
      rw [hp.2.2, value_neg, e.2.2, ← sub_eq_add_neg, ← sub_mul]
      congr 1; omega
    have := fold_release f rest _ (n - k) (m - k) (fun d' h' => hd d' (by simp [h'])) hacc (by omega) (by
      rw [show ((m - k : Nat) : Int) = (m : Int) - k by omega, sub_mul]
      linarith) (by omega)
    rwa [show n - m = n - k - (m - k) by omega]

theorem keyShare_eq (ds : List (F64 × Int)) (k c : Int) :
    keyShare ds k c = ((ds.filter fun d => decide (k + d.2 = c)).map fun d => value d.1).sum := by
  unfold keyShare
  induction ds with
  | nil => rfl
  | cons d rest ih =>
    rw [List.map_cons, List.sum_cons, ih, List.filter_cons]
    by_cases h : k + d.2 = c <;> simp [h]

theorem sum_range_list (f : Nat → Int) (N : Nat) : ((List.range N).map f).sum = ∑ n ∈ Finset.range N, f n := by
  induction N with
  | zero => rfl
  | succ N ih => rw [List.range_succ, List.map_append, List.sum_append, ih, Finset.sum_range_succ]; simp

theorem pressedShare_eq (o : Organ) (ds : List (F64 × Int)) (c : Int) :
    pressedShare o ds c = ∑ n ∈ Finset.range 1024, if o.keyPressed (BitVec.ofNat 10 n) then keyShare ds (codeAt n) c else 0 := by
  unfold pressedShare
  rw [sum_range_list]

/-- Turning one key over changes what all pressed keys add by what that key adds. -/
theorem pressedShare_set (o o' : Organ) (ds : List (F64 × Int)) (c : Int) (k : CodeField) (b : Bool)
   (hne : o.keyPressed k ≠ b) (hk : ∀ k', o'.keyPressed k' = if k' = k then b else o.keyPressed k') :
   pressedShare o' ds c = if b then pressedShare o ds c + keyShare ds (codeOf k) c else pressedShare o ds c - keyShare ds (codeOf k) c := by
  rw [pressedShare_eq, pressedShare_eq]
  have hmem : k.toNat ∈ Finset.range 1024 := by have := k.isLt; simp; omega
  have hof : BitVec.ofNat 10 k.toNat = k := by simp
  rw [← Finset.add_sum_erase _ _ hmem, ← Finset.add_sum_erase _ _ hmem]
  have hcode : codeAt k.toNat = codeOf k := by rw [codeAt, hof]
  have hrest : ∀ n ∈ (Finset.range 1024).erase k.toNat, o'.keyPressed (BitVec.ofNat 10 n) = o.keyPressed (BitVec.ofNat 10 n) := by
    intro n hn
    rw [Finset.mem_erase, Finset.mem_range] at hn
    rw [hk, if_neg]
    intro he
    apply hn.1
    rw [← he, BitVec.toNat_ofNat]; omega
  rw [Finset.sum_congr rfl fun n hn => by rw [hrest n hn]]
  rw [hof, hk, hcode]
  cases b <;> cases hb : o.keyPressed k <;> simp_all
  ring

theorem keyShare_eighths {f : CregFile} (hf : CregOk f) {o : Organ} (ho : OrganOk f o) (k c : Int) :
    ∃ n : Nat, n ≤ 8 * 16 ∧ keyShare (o.drawbars f) k c = n * eighthUnits := by
  rw [keyShare_eq]
  have hall : ∀ d ∈ (o.drawbars f).filter (fun d => decide (k + d.2 = c)), ∃ m : Nat, m ≤ 8 ∧ value d.1 = m * eighthUnits := by
    intro d hd
    have h1 := (List.mem_filter.1 hd).1
    have h2 := (List.of_mem_zip (a := d.1) (b := d.2) h1).1
    rw [ho.dv] at h2
    obtain ⟨m, hm, e⟩ := drawbarVolume_eighths hf h2
    exact ⟨m, hm, e.2.2⟩
  have hlen : ((o.drawbars f).filter (fun d => decide (k + d.2 = c))).length ≤ 16 := by
    refine le_trans (List.length_filter_le _ _) ?_
    unfold Organ.drawbars
    rw [List.length_zip]; simp
  generalize (o.drawbars f).filter (fun d => decide (k + d.2 = c)) = ds at *
  have : ∃ n : Nat, n ≤ 8 * ds.length ∧ (ds.map fun d => value d.1).sum = n * eighthUnits := by
    clear hlen
    induction ds with
    | nil => exact ⟨0, by simp, by simp⟩
    | cons d rest ih =>
      obtain ⟨n, h1, h2⟩ := ih fun d' h' => hall d' (by simp [h'])
      obtain ⟨m, h3, h4⟩ := hall d (by simp)
      exact ⟨m + n, by simp; omega, by rw [List.map_cons, List.sum_cons, h2, h4]; push_cast; exact (add_mul _ _ _).symm⟩
  obtain ⟨n, h1, h2⟩ := this
  exact ⟨n, by omega, h2⟩

theorem pressedShare_eighths {f : CregFile} (hf : CregOk f) {o : Organ} (ho : OrganOk f o) (c : Int) :
    ∃ n : Nat, n ≤ 1024 * (8 * 16) ∧ pressedShare o (o.drawbars f) c = n * eighthUnits := by
  rw [pressedShare_eq]
  have : ∀ N : Nat, ∃ n : Nat, n ≤ N * (8 * 16) ∧ (∑ n ∈ Finset.range N, if o.keyPressed (BitVec.ofNat 10 n) then keyShare (o.drawbars f) (codeAt n) c else 0) = n * eighthUnits := by
    intro N
    induction N with
    | zero => exact ⟨0, by simp, by simp⟩
    | succ N ih =>
      obtain ⟨n, h1, h2⟩ := ih
      rw [Finset.sum_range_succ, h2]
      split
      · obtain ⟨m, h3, h4⟩ := keyShare_eighths hf ho (codeAt N) c
        rw [h4]
        exact ⟨n + m, by omega, by push_cast; exact (add_mul _ _ _).symm⟩
      · exact ⟨n, by omega, by simp⟩
  exact this 1024

theorem eighths_inj {a b : Nat} (h : (a : Int) * eighthUnits = b * eighthUnits) : a = b := by
  have := mul_right_cancel₀ (by have := eighthUnits_pos; omega) h
  exact_mod_cast this

end Sys2Proof.Machine
end

