-- ==== Sys2Proof/Laws/Encoding.lean ====
section
/-! SUPPORT. The bits of the encoded words, format by format (30_encoding.md R112), and the fields read back from them. -/

namespace Sys2Proof

theorem getLsbD_formatF (op : Opcode) (idx : CodeField) (sel sub : BitVec 4) (all b : Bool) (j : Nat) (h : j < 32) :
    (formatF op idx sel sub all b).getLsbD j
      = if j < 1 then b else if j < 2 then all else if j < 8 then false else if j < 12 then sub.getLsbD (j - 8)
        else if j < 16 then sel.getLsbD (j - 12) else if j < 26 then idx.getLsbD (j - 16) else op.number.getLsbD (j - 26) := by
  show BitVec.getLsbD (w := 6 + 10 + 4 + 4 + 6 + 1 + 1)
    (op.number ++ idx ++ sel ++ sub ++ (0 : BitVec 6) ++ bitOf all ++ bitOf b) j = _
  simp only [BitVec.getLsbD_append, bitOf, BitVec.getLsbD_ofBool]
  interval_cases j <;> simp

theorem formatP_eq (op : Opcode) (idx : CodeField) (sel : BitVec 4) (all b : Bool) :
    formatP op idx sel all b = formatF op idx sel 0 all b := rfl

theorem formatK_eq (op : Opcode) (idx : CodeField) (b : Bool) : formatK op idx b = formatF op idx 0 0 false b := by
  apply BitVec.eq_of_getLsbD_eq
  intro j hj
  rw [getLsbD_formatF _ _ _ _ _ _ _ hj]
  show BitVec.getLsbD (w := 6 + 10 + 15 + 1) (op.number ++ idx ++ (0 : BitVec 15) ++ bitOf b) j = _
  simp only [BitVec.getLsbD_append, bitOf, BitVec.getLsbD_ofBool]
  interval_cases j <;> simp

theorem formatN_eq (op : Opcode) : formatN op = formatF op 0 0 0 false false := by
  apply BitVec.eq_of_getLsbD_eq
  intro j hj
  rw [getLsbD_formatF _ _ _ _ _ _ _ hj]
  show BitVec.getLsbD (w := 6 + 26) (op.number ++ (0 : BitVec 26)) j = _
  simp only [BitVec.getLsbD_append]
  interval_cases j <;> simp

theorem matchWord_eq (op : Opcode) : op.matchWord = formatF op 0 0 0 false false := formatN_eq op

theorem formatC_eq (op : Opcode) (creg : BitVec 8) : formatC op creg = formatF op ((0 : BitVec 2) ++ creg) 0 0 false false := by
  apply BitVec.eq_of_getLsbD_eq
  intro j hj
  rw [getLsbD_formatF _ _ _ _ _ _ _ hj]
  show BitVec.getLsbD (w := 6 + 2 + 8 + 16) (op.number ++ (0 : BitVec 2) ++ creg ++ (0 : BitVec 16)) j = _
  show _ = (if j < 1 then false else if j < 2 then false else if j < 8 then false else if j < 12 then BitVec.getLsbD 0 (j - 8)
        else if j < 16 then BitVec.getLsbD 0 (j - 12) else if j < 26 then BitVec.getLsbD (w := 2 + 8) ((0 : BitVec 2) ++ creg) (j - 16)
        else op.number.getLsbD (j - 26))
  simp only [BitVec.getLsbD_append]
  interval_cases j <;> simp

@[simp] theorem opField_formatF (op : Opcode) (idx : CodeField) (sel sub : BitVec 4) (all b : Bool) :
    opField (formatF op idx sel sub all b) = op.number := by
  apply BitVec.eq_of_getLsbD_eq
  intro j hj
  simp only [opField, BitVec.getLsbD_extractLsb', hj, decide_true, Bool.true_and]
  rw [getLsbD_formatF _ _ _ _ _ _ _ (by omega)]
  interval_cases j <;> simp

@[simp] theorem idxField_formatF (op : Opcode) (idx : CodeField) (sel sub : BitVec 4) (all b : Bool) :
    idxField (formatF op idx sel sub all b) = idx := by
  apply BitVec.eq_of_getLsbD_eq
  intro j hj
  simp only [idxField, BitVec.getLsbD_extractLsb', hj, decide_true, Bool.true_and]
  rw [getLsbD_formatF _ _ _ _ _ _ _ (by omega)]
  interval_cases j <;> simp

@[simp] theorem selField_formatF (op : Opcode) (idx : CodeField) (sel sub : BitVec 4) (all b : Bool) :
    selField (formatF op idx sel sub all b) = sel := by
  apply BitVec.eq_of_getLsbD_eq
  intro j hj
  simp only [selField, BitVec.getLsbD_extractLsb', hj, decide_true, Bool.true_and]
  rw [getLsbD_formatF _ _ _ _ _ _ _ (by omega)]
  interval_cases j <;> simp

@[simp] theorem subField_formatF (op : Opcode) (idx : CodeField) (sel sub : BitVec 4) (all b : Bool) :
    subField (formatF op idx sel sub all b) = sub := by
  apply BitVec.eq_of_getLsbD_eq
  intro j hj
  simp only [subField, BitVec.getLsbD_extractLsb', hj, decide_true, Bool.true_and]
  rw [getLsbD_formatF _ _ _ _ _ _ _ (by omega)]
  interval_cases j <;> simp

@[simp] theorem allField_formatF (op : Opcode) (idx : CodeField) (sel sub : BitVec 4) (all b : Bool) :
    allField (formatF op idx sel sub all b) = all := by
  rw [allField, getLsbD_formatF _ _ _ _ _ _ _ (by omega)]; simp

@[simp] theorem bField_formatF (op : Opcode) (idx : CodeField) (sel sub : BitVec 4) (all b : Bool) :
    bField (formatF op idx sel sub all b) = b := by
  rw [bField, getLsbD_formatF _ _ _ _ _ _ _ (by omega)]; simp

theorem idxField_creg (w : Word) : cregField w = (idxField w).extractLsb' 0 8 := by
  apply BitVec.eq_of_getLsbD_eq
  intro j hj
  simp only [cregField, idxField, BitVec.getLsbD_extractLsb', hj, decide_true, Bool.true_and]
  interval_cases j <;> simp

@[simp] theorem cregField_formatC (op : Opcode) (creg : BitVec 8) : cregField (formatC op creg) = creg := by
  rw [idxField_creg, formatC_eq, idxField_formatF]
  apply BitVec.eq_of_getLsbD_eq
  intro j hj
  show BitVec.getLsbD (BitVec.extractLsb' 0 8 ((0 : BitVec 2) ++ creg)) j = _
  simp only [BitVec.getLsbD_extractLsb', BitVec.getLsbD_append]
  interval_cases j <;> simp

/-- A word is given back by its fields where its other bits are zero. -/
theorem formatF_fields (op : Opcode) (w : Word) (hop : opField w = op.number) (hrsv : ∀ j, 2 ≤ j → j < 8 → w.getLsbD j = false) :
    formatF op (idxField w) (selField w) (subField w) (allField w) (bField w) = w := by
  apply BitVec.eq_of_getLsbD_eq
  intro j hj
  rw [getLsbD_formatF _ _ _ _ _ _ _ hj, ← hop]
  simp only [opField, idxField, selField, subField, allField, bField, BitVec.getLsbD_extractLsb']
  by_cases hr : 2 ≤ j ∧ j < 8
  · have h0 := hrsv j hr.1 hr.2
    rw [h0]
    obtain ⟨h2, h8⟩ := hr
    interval_cases j <;> simp
  · interval_cases j <;> simp at hr ⊢

@[simp] theorem ofNumber_number (op : Opcode) : Opcode.ofNumber op.number = some op := by cases op <;> rfl

theorem number_of_ofNumber {n : BitVec 6} {op : Opcode} (h : Opcode.ofNumber n = some op) : op.number = n := by
  revert n; cases op <;> decide

end Sys2Proof
end

