-- ==== Sys2Proof/Laws/PerInstr.lean ====
section
/-! SUPPORT. The statements made of every instruction, one lemma for each constructor of Instr. -/

namespace Sys2Proof.Laws

/-- The word of a command passes the opcode's MASK test (30_encoding.md R122, R123): its must-be-zero bits are 0, whatever
its operands are. -/
def EncodingMask.Statement (i : Instr) : Prop := encode i &&& i.opcode.mask = i.opcode.matchWord

/-- A bit that is 0 where the MASK covers it is covered only where it is 0. -/
theorem maskBit {x m : Bool} (h : m = true → x = false) : x = true → m = false := by
  cases x <;> cases m <;> simp at h ⊢

/-- A word of the widest format passes a MASK that covers the opcode and only fields that are 0. -/
theorem maskTest_formatF (op : Opcode) (idx : CodeField) (sel sub : BitVec 4) (all b : Bool)
    (hb : op.mask.getLsbD 0 = true → b = false) (hall : op.mask.getLsbD 1 = true → all = false)
    (hsub : ∀ j, j < 4 → op.mask.getLsbD (j + 8) = true → sub.getLsbD j = false)
    (hsel : ∀ j, j < 4 → op.mask.getLsbD (j + 12) = true → sel.getLsbD j = false)
    (hidx : ∀ j, j < 10 → op.mask.getLsbD (j + 16) = true → idx.getLsbD j = false) :
    formatF op idx sel sub all b &&& op.mask = op.matchWord := by
  apply BitVec.eq_of_getLsbD_eq
  intro j hj
  rw [BitVec.getLsbD_and, matchWord_eq, getLsbD_formatF _ _ _ _ _ _ _ hj, getLsbD_formatF _ _ _ _ _ _ _ hj]
  have hop : ∀ j, j < 6 → op.mask.getLsbD (j + 26) = true := by
    intro j hj
    cases op <;> interval_cases j <;> rfl
  by_cases h0 : j < 1
  · obtain rfl : j = 0 := by omega
    simpa using maskBit hb
  by_cases h1 : j < 2
  · obtain rfl : j = 1 := by omega
    simpa using maskBit hall
  by_cases h8 : j < 8
  · simp [h0, h1, h8]
  by_cases h12 : j < 12
  · have h := hsub (j - 8) (by omega)
    rw [show j - 8 + 8 = j by omega] at h
    simp [h0, h1, h8, h12]
    exact maskBit h
  by_cases h16 : j < 16
  · have h := hsel (j - 12) (by omega)
    rw [show j - 12 + 12 = j by omega] at h
    simp [h0, h1, h8, h12, h16]
    exact maskBit h
  by_cases h26 : j < 26
  · have h := hidx (j - 16) (by omega)
    rw [show j - 16 + 16 = j by omega] at h
    simp [h0, h1, h8, h12, h16, h26]
    exact maskBit h
  · have h := hop (j - 26) (by omega)
    rw [show j - 26 + 26 = j by omega] at h
    simp [h0, h1, h8, h12, h16, h26, h]

theorem maskTest_formatN (op : Opcode) : formatN op &&& op.mask = op.matchWord := by
  rw [formatN_eq]; exact maskTest_formatF op 0 0 0 false false (by simp) (by simp) (by simp) (by simp) (by simp)

theorem maskTest_formatC (op : Opcode) (creg : BitVec 8) (h : ∀ j, j < 8 → op.mask.getLsbD (j + 16) = false) :
    formatC op creg &&& op.mask = op.matchWord := by
  rw [formatC_eq]
  refine maskTest_formatF op _ 0 0 false false (by simp) (by simp) (by simp) (by simp) ?_
  intro j hj hm
  show BitVec.getLsbD (w := 2 + 8) ((0 : BitVec 2) ++ creg) j = false
  rw [BitVec.getLsbD_append]
  by_cases hj8 : j < 8
  · rw [h j hj8] at hm; cases hm
  · simp [hj8]

theorem maskTest_formatK (op : Opcode) (idx : CodeField) (b : Bool) (hb : op.mask.getLsbD 0 = true → b = false)
    (hidx : ∀ j, j < 10 → op.mask.getLsbD (j + 16) = false) : formatK op idx b &&& op.mask = op.matchWord := by
  rw [formatK_eq]
  exact maskTest_formatF op idx 0 0 false b hb (by simp) (by simp) (by simp) fun j hj hm => by rw [hidx j hj] at hm; cases hm

theorem maskTest_formatP (op : Opcode) (idx : CodeField) (sel : BitVec 4) (all b : Bool)
    (hb : op.mask.getLsbD 0 = true → b = false) (hall : op.mask.getLsbD 1 = true → all = false)
    (hsel : ∀ j, j < 4 → op.mask.getLsbD (j + 12) = true → sel.getLsbD j = false)
    (hidx : ∀ j, j < 10 → op.mask.getLsbD (j + 16) = false) : formatP op idx sel all b &&& op.mask = op.matchWord := by
  rw [formatP_eq]
  exact maskTest_formatF op idx sel 0 all b hb hall (by simp) hsel fun j hj hm => by rw [hidx j hj] at hm; cases hm

theorem EncodingMask.nop : EncodingMask.Statement .nop := maskTest_formatN .nop
theorem EncodingMask.reset : EncodingMask.Statement .reset := maskTest_formatN .reset
theorem EncodingMask.build : EncodingMask.Statement .build := maskTest_formatN .build
theorem EncodingMask.clrst : EncodingMask.Statement .clrst := maskTest_formatN .clrst
theorem EncodingMask.next : EncodingMask.Statement .next := maskTest_formatN .next

theorem EncodingMask.cfgw (creg : BitVec 8) : EncodingMask.Statement (.cfgw creg) := maskTest_formatC .cfgw creg (by decide)
theorem EncodingMask.cfgr (creg : BitVec 8) : EncodingMask.Statement (.cfgr creg) := maskTest_formatC .cfgr creg (by decide)

theorem EncodingMask.setkey (idx : CodeField) (b : Bool) : EncodingMask.Statement (.setkey idx b) :=
  maskTest_formatK .setkey idx b (by simp [Opcode.mask]) (by decide)
theorem EncodingMask.keyq (idx : CodeField) : EncodingMask.Statement (.keyq idx) :=
  maskTest_formatK .keyq idx false (by simp) (by decide)

theorem EncodingMask.pact (idx : CodeField) (all b : Bool) : EncodingMask.Statement (.pact idx all b) :=
  maskTest_formatP .pact idx 0 all b (by simp [Opcode.mask]) (by simp [Opcode.mask]) (by simp) (by decide)
theorem EncodingMask.pvol (idx : CodeField) (all : Bool) : EncodingMask.Statement (.pvol idx all) :=
  maskTest_formatP .pvol idx 0 all false (by simp) (by simp [Opcode.mask]) (by simp) (by decide)
theorem EncodingMask.patk (idx : CodeField) (all : Bool) : EncodingMask.Statement (.patk idx all) :=
  maskTest_formatP .patk idx 0 all false (by simp) (by simp [Opcode.mask]) (by simp) (by decide)
theorem EncodingMask.pdec (idx : CodeField) (all : Bool) : EncodingMask.Statement (.pdec idx all) :=
  maskTest_formatP .pdec idx 0 all false (by simp) (by simp [Opcode.mask]) (by simp) (by decide)
theorem EncodingMask.psus (idx : CodeField) (all : Bool) : EncodingMask.Statement (.psus idx all) :=
  maskTest_formatP .psus idx 0 all false (by simp) (by simp [Opcode.mask]) (by simp) (by decide)
theorem EncodingMask.prel (idx : CodeField) (all : Bool) : EncodingMask.Statement (.prel idx all) :=
  maskTest_formatP .prel idx 0 all false (by simp) (by simp [Opcode.mask]) (by simp) (by decide)
theorem EncodingMask.pqry (idx : CodeField) (sel : BitVec 4) : EncodingMask.Statement (.pqry idx sel) :=
  maskTest_formatP .pqry idx sel false false (by simp) (by simp)
    (fun j hj h => by interval_cases j <;> simp [Opcode.mask] at h) (by decide)

theorem EncodingMask.pftype (idx : CodeField) (sel : BitVec 4) (all b : Bool) :
    EncodingMask.Statement (.pftype idx sel all b) :=
  maskTest_formatP .pftype idx sel all b (by simp [Opcode.mask]) (by simp [Opcode.mask])
    (fun j hj h => by interval_cases j <;> simp [Opcode.mask] at h) (by decide)
theorem EncodingMask.pvrate (idx : CodeField) (sel : BitVec 4) (all : Bool) : EncodingMask.Statement (.pvrate idx sel all) :=
  maskTest_formatP .pvrate idx sel all false (by simp) (by simp [Opcode.mask])
    (fun j hj h => by interval_cases j <;> simp [Opcode.mask] at h) (by decide)
theorem EncodingMask.pvint (idx : CodeField) (sel : BitVec 4) (all : Bool) : EncodingMask.Statement (.pvint idx sel all) :=
  maskTest_formatP .pvint idx sel all false (by simp) (by simp [Opcode.mask])
    (fun j hj h => by interval_cases j <;> simp [Opcode.mask] at h) (by decide)
theorem EncodingMask.pfq (idx : CodeField) (sel sub : BitVec 4) : EncodingMask.Statement (.pfq idx sel sub) :=
  maskTest_formatF .pfq idx sel sub false false (by simp) (by simp)
    (fun j hj h => by interval_cases j <;> simp [Opcode.mask] at h)
    (fun j hj h => by interval_cases j <;> simp [Opcode.mask] at h)
    (fun j hj h => by interval_cases j <;> simp [Opcode.mask] at h)

end Sys2Proof.Laws
end

