-- ==== Sys2Proof/Laws/Rounding.lean ====
section
/-! SUPPORT. The rounding of Machine/Float64.lean is the rounding to nearest, ties to even (00_scope.md R12). -/

namespace Sys2Proof.F64

/-- The magnitude of a rounded result: the rounded count of grid steps. -/
theorem unitsOfMag_steps {e n : Nat} (hn : n ≤ 2 ^ 53) (h : 0 < e → 2 ^ 52 ≤ n) : unitsOfMag (e * 2 ^ 52 + n) = n * 2 ^ e := by
  rcases Nat.lt_or_ge n (2 ^ 53) with hlt | hge
  · have hs : stepOf (e * 2 ^ 52 + n) = e := by
      unfold stepOf
      rcases Nat.eq_zero_or_pos e with rfl | hpos
      · omega
      · have := h hpos; omega
    have hsteps : stepsOf (e * 2 ^ 52 + n) = n := by unfold stepsOf; rw [hs]; omega
    rw [unitsOfMag_eq, hs, hsteps]
  · obtain rfl : n = 2 ^ 53 := by omega
    have hs : stepOf (e * 2 ^ 52 + 2 ^ 53) = e + 1 := by unfold stepOf; omega
    have hsteps : stepsOf (e * 2 ^ 52 + 2 ^ 53) = 2 ^ 52 := by unfold stepsOf; rw [hs]; omega
    rw [unitsOfMag_eq, hs, hsteps, pow_succ]; ring

/-- The nearest integer is nearer than every other, and even where another is as near. -/
theorem nearestEven_nearest (p : Nat) {d : Nat} (hd : 0 < d) (k : Int) :
    |(p : Int) - nearestEven p d * d| ≤ |(p : Int) - k * d|
      ∧ (k ≠ nearestEven p d → |(p : Int) - nearestEven p d * d| = |(p : Int) - k * d| → nearestEven p d % 2 = 0) := by
  obtain ⟨h1, h2⟩ := nearestEven_bounds p hd
  have htie : ∀ k : Nat, 2 * p = (2 * k + 1) * d → nearestEven p d % 2 = 0 := fun k hk => nearestEven_tie hd hk
  generalize hN : nearestEven p d = n at *
  have h1' : 2 * (p : Int) ≤ 2 * (n * d) + d := by exact_mod_cast (by linarith : 2 * p ≤ 2 * (n * d) + d)
  have h2' : 2 * ((n : Int) * d) ≤ 2 * p + d := by exact_mod_cast (by linarith : 2 * (n * d) ≤ 2 * p + d)
  have hd' : (0 : Int) < d := by exact_mod_cast hd
  rcases lt_trichotomy k n with hk | hk | hk
  · have : k * d ≤ n * d - d := by nlinarith
    refine ⟨?_, fun _ he => ?_⟩
    · rw [abs_le, abs_of_nonneg (by linarith : (0:Int) ≤ p - k * d)]; constructor <;> linarith
    · rw [abs_of_nonneg (by linarith : (0:Int) ≤ p - k * d)] at he
      have hkn : k * d = n * d - d := by
        rcases abs_cases ((p : Int) - n * d) with ⟨g1, g2⟩ | ⟨g1, g2⟩ <;> nlinarith
      have hn0 : 1 ≤ n := by
        by_contra hc
        have : n = 0 := by omega
        subst this
        rcases abs_cases ((p : Int) - (0:Nat) * d) with ⟨g1, g2⟩ | ⟨g1, g2⟩ <;> simp at * <;> nlinarith
      apply htie (n - 1)
      have : (2 * p : Int) = 2 * (n * d) - d := by
        rcases abs_cases ((p : Int) - n * d) with ⟨g1, g2⟩ | ⟨g1, g2⟩ <;> linarith
      zify [hn0]
      linarith
  · subst hk; exact ⟨le_rfl, fun h => absurd rfl h⟩
  · have : (n : Int) * d + d ≤ k * d := by nlinarith
    refine ⟨?_, fun _ he => ?_⟩
    · rw [abs_le, abs_of_nonpos (by linarith : (p:Int) - k * d ≤ 0)]; constructor <;> linarith
    · rw [abs_of_nonpos (by linarith : (p:Int) - k * d ≤ 0)] at he
      apply htie n
      have : (2 * p : Int) = 2 * (n * d) + d := by
        rcases abs_cases ((p : Int) - n * d) with ⟨g1, g2⟩ | ⟨g1, g2⟩ <;> linarith
      zify
      linarith

/-- No magnitude is nearer to the exact ratio than the rounded one, and where another is as near the rounded one is even. -/
theorem roundMag_nearest {p d : Nat} (hd : 0 < d) (hfin : roundMag p d < infMag) (m : Nat) :
    |(p : Int) - unitsOfMag (roundMag p d) * d| ≤ |(p : Int) - unitsOfMag m * d|
      ∧ (unitsOfMag m ≠ unitsOfMag (roundMag p d) →
          |(p : Int) - unitsOfMag (roundMag p d) * d| = |(p : Int) - unitsOfMag m * d| → roundMag p d % 2 = 0) := by
  have hr : roundMag p d = roundStep p d * 2 ^ 52 + nearestEven p (d * 2 ^ roundStep p d) := by
    rw [roundMag_eq] at hfin ⊢
    rcases Nat.le_total (roundStep p d * 2 ^ 52 + nearestEven p (d * 2 ^ roundStep p d)) infMag with hle | hle
    · exact Nat.min_eq_left hle
    · exact absurd (lt_of_eq_of_lt (Nat.min_eq_right hle).symm hfin) (lt_irrefl _)
  have hu := unitsOfMag_steps (nearestEven_roundStep_le (p := p) hd) (fun h => le_nearestEven_roundStep hd h)
  have hge := fun h => le_nearestEven_roundStep (p := p) hd h
  rw [← hr] at hu
  have hD : 0 < d * 2 ^ roundStep p d := by positivity
  have near := fun k => nearestEven_nearest p hD k
  have hpar : roundMag p d % 2 = nearestEven p (d * 2 ^ roundStep p d) % 2 := by rw [hr]; omega
  have hlow : 0 < roundStep p d → 2 ^ 52 * (d * 2 ^ roundStep p d) ≤ p := by
    intro h
    have hne : p / d ≠ 0 := by
      intro h0; unfold roundStep at h; rw [h0] at h; simp at h
    have g1 : 2 ^ Nat.log2 (p / d) ≤ p / d := Nat.log2_self_le hne
    have g2 : Nat.log2 (p / d) = 52 + roundStep p d := by unfold roundStep at *; omega
    rw [g2] at g1
    have g3 : 2 ^ (52 + roundStep p d) * d ≤ p := by rwa [Nat.le_div_iff_mul_le hd] at g1
    calc 2 ^ 52 * (d * 2 ^ roundStep p d) = 2 ^ (52 + roundStep p d) * d := by rw [pow_add]; ring
      _ ≤ p := g3
  rw [hu, hpar]
  generalize roundStep p d = e at *
  generalize nearestEven p (d * 2 ^ e) = n at *
  have hcast : (((n * 2 ^ e : Nat) : Int)) * d = n * ((d * 2 ^ e : Nat) : Int) := by push_cast; ring
  rw [hcast]
  by_cases hdiv : ∃ k, unitsOfMag m = k * 2 ^ e
  · obtain ⟨k, hk⟩ := hdiv
    have hkc : ((unitsOfMag m : Nat) : Int) * d = (k : Int) * ((d * 2 ^ e : Nat) : Int) := by rw [hk]; push_cast; ring
    rw [hkc]
    refine ⟨(near k).1, fun hne he => (near k).2 ?_ he⟩
    intro hkn
    apply hne
    rw [hk]
    have : k = n := by exact_mod_cast hkn
    rw [this]
  · have hlt : stepOf m < e := by
      by_contra hc
      exact hdiv ⟨stepsOf m * 2 ^ (stepOf m - e), by
        rw [unitsOfMag_eq, mul_assoc, ← pow_add]; congr 2; omega⟩
    have hm1 : unitsOfMag m < 2 ^ 52 * 2 ^ e := by
      rw [unitsOfMag_eq]
      calc stepsOf m * 2 ^ stepOf m < 2 ^ 53 * 2 ^ stepOf m := Nat.mul_lt_mul_of_pos_right (stepsOf_lt m) (by positivity)
        _ ≤ 2 ^ 53 * 2 ^ (e - 1) := Nat.mul_le_mul_left _ (Nat.pow_le_pow_right (by norm_num) (by omega))
        _ = 2 ^ 52 * 2 ^ e := by
          obtain ⟨e', rfl⟩ : ∃ e', e = e' + 1 := ⟨e - 1, by omega⟩
          simp [pow_succ]; ring
    have hp := hlow (by omega)
    have hmd : unitsOfMag m * d < 2 ^ 52 * (d * 2 ^ e) := by
      calc unitsOfMag m * d < 2 ^ 52 * 2 ^ e * d := Nat.mul_lt_mul_of_pos_right hm1 hd
        _ = _ := by ring
    have h52 := (near (2 ^ 52 : Nat)).1
    have hpi : (((2 ^ 52 : Nat) : Int)) * ((d * 2 ^ e : Nat) : Int) ≤ p := by exact_mod_cast hp
    have hmi : ((unitsOfMag m : Nat) : Int) * d < ((2 ^ 52 : Nat) : Int) * ((d * 2 ^ e : Nat) : Int) := by exact_mod_cast hmd
    have hstrict : |(p : Int) - ((2 ^ 52 : Nat) : Int) * ((d * 2 ^ e : Nat) : Int)| < |(p : Int) - unitsOfMag m * d| := by
      rw [abs_of_nonneg (by linarith), abs_of_nonneg (by linarith)]; linarith
    exact ⟨le_trans h52 hstrict.le, fun _ he => absurd he (ne_of_lt (lt_of_le_of_lt h52 hstrict))⟩
end Sys2Proof.F64
end

