-- ==== Sys2Proof/Tests/Slice0.lean ====
section
/-! SUPPORT. Tests. Expected values are the spec's own: the encodings of 30_encoding.md R134 and the vectors of
95_test_vectors.md, by their section. A theorem `witness_<Name>` shows values that meet the hypotheses of `Obligations.<Name>`
together. -/

namespace Sys2Proof.Tests

open Sys2Proof Sys2Proof.Machine

-- One theorem at a time: many kernel evaluations waiting at once hold a thread each.
set_option Elab.async false

/-! ## WellFormed and Decode -/

/-- Each check of WellFormed refuses a term it is there for, and admits the last defined value (30_encoding.md R124). -/
theorem test_wellFormed_refuses : Instr.wellFormed (.cfgw 0x30) = false ∧ Instr.wellFormed (.cfgr 0x30) = false
    ∧ Instr.wellFormed (.cfgw 0xFF) = false ∧ Instr.wellFormed (.pfq 69 0 6) = false ∧ Instr.wellFormed (.cfgw 0x2F) = true
    ∧ Instr.wellFormed (.cfgr 0x2F) = true ∧ Instr.wellFormed (.pfq 69 0 5) = true := by decide

/-! Every constructor, its word written out from its format (30_encoding.md R112, R121): OP, then the fields. -/

theorem test_decode_nop : decode 0b000000_0000000000_0000_0000_000000_0_0 = .ok .nop := by decide
theorem test_decode_reset : decode 0b000001_0000000000_0000_0000_000000_0_0 = .ok .reset := by decide
theorem test_decode_build : decode 0b000010_0000000000_0000_0000_000000_0_0 = .ok .build := by decide
theorem test_decode_clrst : decode 0b000011_0000000000_0000_0000_000000_0_0 = .ok .clrst := by decide
theorem test_decode_cfgw : decode 0b000100_00_00101111_0000_0000_000000_0_0 = .ok (.cfgw 0x2F) := by decide
theorem test_decode_cfgr : decode 0b000101_00_00001101_0000_0000_000000_0_0 = .ok (.cfgr 0x0D) := by decide
theorem test_decode_setkey : decode 0b001000_1111110100_0000_0000_000000_0_1 = .ok (.setkey (BitVec.ofInt 10 (-12)) true) := by
  decide
theorem test_decode_next : decode 0b001001_0000000000_0000_0000_000000_0_0 = .ok .next := by decide
theorem test_decode_keyq : decode 0b001010_0000111100_0000_0000_000000_0_0 = .ok (.keyq 60) := by decide
theorem test_decode_pact : decode 0b010000_0001000101_0000_0000_000000_1_0 = .ok (.pact 69 true false) := by decide
theorem test_decode_pvol : decode 0b010001_0001000101_0000_0000_000000_0_0 = .ok (.pvol 69 false) := by decide
theorem test_decode_patk : decode 0b010010_0000000000_0000_0000_000000_1_0 = .ok (.patk 0 true) := by decide
theorem test_decode_pdec : decode 0b010011_0001000101_0000_0000_000000_0_0 = .ok (.pdec 69 false) := by decide
theorem test_decode_psus : decode 0b010100_0001000101_0000_0000_000000_0_0 = .ok (.psus 69 false) := by decide
theorem test_decode_prel : decode 0b010101_0001000101_0000_0000_000000_1_0 = .ok (.prel 69 true) := by decide
theorem test_decode_pftype : decode 0b011000_0001000101_0011_0000_000000_0_1 = .ok (.pftype 69 3 false true) := by decide
theorem test_decode_pvrate : decode 0b011001_0000000000_0000_0000_000000_1_0 = .ok (.pvrate 0 0 true) := by decide
theorem test_decode_pvint : decode 0b011010_0001000101_0001_0000_000000_0_0 = .ok (.pvint 69 1 false) := by decide
theorem test_decode_pfq : decode 0b011110_0001000101_0000_0101_000000_0_0 = .ok (.pfq 69 0 5) := by decide
theorem test_decode_pqry : decode 0b011111_0001000101_1111_0000_000000_0_0 = .ok (.pqry 69 15) := by decide

/-- The illegal words of 95_test_vectors.md 2.1: must-be-zero bits, undefined field values and undefined opcodes. -/
theorem test_decode_illegal_fields : ([0x10300000, 0x11000000, 0x203C0002, 0x203C0004, 0x24000001, 0x283C0001, 0x40451000, 0x44450001,
    0x60450101, 0x78450600, 0x78450502, 0x7C459002] : List Nat).map (decodeTableWord 32) = List.replicate 12 none := by decide
theorem test_decode_illegal_opcodes : ([0x18000000, 0x2C000000, 0x58000000, 0x6C000000, 0x80000000, 0xFFFFFFFF] : List Nat).map
    (decodeTableWord 32) = List.replicate 6 none := by decide

/-- A fetched word runs: the step after `withFetchWord` is the command (20_memory.md R83). -/
theorem test_fetch : decodeTableWord 32 0x24000000 = some .next
    ∧ step (State.reset.withFetchWord 32 0x24000000) = exec .next State.reset := ⟨by decide, rfl⟩

/-! ## Concrete blocks -/

/-- The reference values of SIN at the four angles that 95_test_vectors.md uses, and 0 elsewhere. -/
def testSin (x : F64) : F64 :=
  if x = 0x3FE921FB54442D18#64 then 0x3FE6A09E667F3BCC#64
  else if x = 0x3FF921FB54442D18#64 then F64.one
  else if x = 0x400921FB54442D18#64 then 0x3CA1A62633145C07#64
  else if x = 0x4012D97C7F3321D2#64 then F64.minusOne
  else F64.zero

/-- The reference PITCH at code 57 (220 Hz), and 440 Hz elsewhere. -/
def testPitch (c : Int) : F64 := if c = 57 then 0x406B800000000000#64 else 0x407B800000000000#64

def testPlatform : Platform where
  sin := testSin
  pitch := testPitch

theorem testPlatform_ok : PlatformOk testPlatform := by
  have h : ∀ x, F64.le (F64.abs (testSin x)) F64.one = true := by
    intro x; unfold testSin; split_ifs <;> decide
  refine ⟨by decide, fun x _ => h x, fun x _ => isFinite_of_abs_le_one (h x), fun c _ _ => ?_⟩
  show F64.isFinite (testPitch c) = true
  unfold testPitch; split_ifs <;> decide

/-- The next state of a result. -/
def next? : Result → Option State
  | .next t => some t
  | .fault _ => none
  | .refused _ => none

/-- The STATUS that a command leaves. -/
def statusAfter (i : Instr) (s : State) : Option Word := (next? (exec i s)).map State.status

/-- The RESULT that a command leaves. -/
def resultAfter (i : Instr) (s : State) : Option Word64 := (next? (exec i s)).map State.result

/-- A field of pipe 69 that a command leaves. -/
def pipeAfter {α : Type} (g : Pipe → α) (i : Instr) (s : State) : Option α :=
  match next? (exec i s) with
  | some t =>
    match t.phase with
    | .run o => (o.pipe? 69).map g
    | .config => none
    | .failed => none
  | none => none

/-- Pipe 69 alone on one full drawbar at offset 0, at SAMPLE_RATE 1760 and SMOOTH_ALPHA 1.0, with D = S = 0.5. -/
def soloCreg : CregFile :=
  { CregFile.reset with
    sampleRate := 0x409B800000000000#64
    smoothAlpha := F64.one
    organDecay := 0x3FE0000000000000#64
    organSustain := 0x3FE0000000000000#64
    ndraw := 1
    nratio := 1
    pipeLo := 69
    pipeHi := 69
    drawbar := #v[8, 0, 0, 0, 0, 0, 0, 0, 0, 0, 0, 0, 0, 0, 0, 0]
    offset := #v[0, 0, 0, 0, 0, 0, 0, 0, 0, 0, 0, 0, 0, 0, 0, 0] }

def soloOrgan : Organ := builtOrgan testPlatform soloCreg

/-- The organ with key 69 down: its envelope is at 1.0 (A = 0). -/
def soundingOrgan : Organ := keyTransition soloCreg 69 true soloOrgan

/-- The sounding organ with a decay scheduled, by a second activate. -/
def decayingOrgan : Organ := soundingOrgan.apply (.one 69) fun p => p.modifyEnv (envActivate soloCreg true)

/-- A block in phase RUN. -/
def running (o : Organ) : State := { State.reset with creg := soloCreg, phase := .run o }

/-- The same block with an operand loaded. -/
def loaded (v : Word64) (o : Organ) : State := { running o with opd := v }

/-- A block in phase CONFIG with an operand loaded. -/
def configuring (v : Word64) : State := { State.reset with opd := v }

/-- A block whose BUILD found a mismatch: NDRAW is 3, NRATIO is 9. -/
def mismatched : State := { State.reset with creg := { CregFile.reset with ndraw := 3 } }

theorem soloCreg_ok : CregOk soloCreg := by
  refine ⟨fun r => ?_, fun r => ?_⟩
  · refine ⟨?_, ?_, ?_⟩ <;> cases r <;> decide
  · cases r with
    | drawbar i => revert i; decide
    | offset i => revert i; decide
    | _ => decide

theorem soloOrgan_ok : OrganOk soloCreg soloOrgan := OrganOk.built testPlatform_ok soloCreg_ok (by decide)

theorem soundingOrgan_ok : OrganOk soloCreg soundingOrgan := OrganOk.keyTransition soloCreg_ok 69 true soloOrgan_ok

theorem decayingOrgan_ok : OrganOk soloCreg decayingOrgan :=
  soundingOrgan_ok.apply _ fun _ hp => hp.modifyEnv fun _ he => he.activate soloCreg_ok true

theorem running_ok {o : Organ} (h : OrganOk soloCreg o) : StateOk (running o) where
  creg := soloCreg_ok
  errors := ⟨⟨fun _ e => by cases e <;> rfl, fun _ => rfl⟩, fun e he => by simp [running, State.reset, ErrorRecord.empty] at he,
    ⟨fun he => by simp [running, State.reset, ErrorRecord.empty] at he, fun he => by simp [running] at he⟩⟩
  organ := fun o' ho => by cases ho; exact h

/-- One pipe: what holds of it holds wherever there is a pipe. -/
theorem solo_pipe {o : Organ} (p : Pipe) (h : o.pipes = [p]) {c : Int} {p' : Pipe} (hp : o.pipe? c = some p') : p' = p := by
  have := Organ.mem_of_pipe? hp
  rw [h] at this; simpa using this

/-! ## One step of each command -/

/-- 95_test_vectors.md 2.7: NOP records nothing, in FAILED as in CONFIG. -/
theorem test_nop : statusAfter .nop State.reset = some 0x00000000
    ∧ statusAfter .nop { State.reset with phase := .failed } = some 0x00000002 := by decide

/-- 95_test_vectors.md 3.5: RESET clears E_CFG and FIRST_ERR and leaves FAILED. -/
theorem test_reset : (next? (exec .build mismatched)).bind (statusAfter .reset) = some 0x00000000 := by decide

/-- 95_test_vectors.md 2.5: BUILD at reset values, and with NDRAW 3. -/
theorem test_build_status : statusAfter .build State.reset = some 0x00000001
    ∧ statusAfter .build mismatched = some 0x00051002 := by decide +kernel

/-- 95_test_vectors.md 2.6: pipe 69 right after BUILD at SAMPLE_RATE 1760 has 440 Hz, dtheta fl(pi/2) and FLAGS 0. -/
theorem test_build_pipe : (soloOrgan.pipe? 69).map (fun p => (p.osc.freq, p.osc.dtheta, flagsWord p.osc p.env.gate))
    = some (0x407B800000000000#64, 0x3FF921FB54442D18#64, 0#64) := by decide +kernel

/-- 95_test_vectors.md 3.5: CLRST in FAILED after a NEXT keeps E_CFG, and FIRST_ERR becomes 5. -/
theorem test_clrst : ((next? (exec .build { mismatched with errors := ErrorRecord.empty.record .phase })).bind (statusAfter .clrst))
    = some 0x00051002 := by decide

/-- 95_test_vectors.md 2.6: SAMPLE_RATE 0.5 stores 1.0, EPSILON -0.0 stores +0.0. -/
theorem test_cfgw_float :
    (next? (exec (.cfgw 0x00) (configuring 0x3FE0000000000000))).map (fun t => t.creg.sampleRate) = some 0x3FF0000000000000
    ∧ (next? (exec (.cfgw 0x01) (configuring 0x8000000000000000))).map (fun t => t.creg.epsilon) = some 0 := by decide

/-- 95_test_vectors.md 2.6: PIPE_LO -1000 stores -512, ENV_DECAY_POLL -1 stores 1, DRAWBAR[0] 12 stores 8. -/
theorem test_cfgw_int :
    (next? (exec (.cfgw 0x0C) (configuring (BitVec.ofInt 64 (-1000))))).map (fun t => t.creg.pipeLo) = some (-512)
    ∧ (next? (exec (.cfgw 0x0E) (configuring (BitVec.ofInt 64 (-1))))).map (fun t => t.creg.envDecayPoll) = some 1
    ∧ (next? (exec (.cfgw 0x10) (configuring 12))).map (fun t => t.creg.drawbar[0]) = some 8 := by decide

/-- 10_state.md R40: PIPE_HI resets to 163 and OFFSET[0] to -12, which RESULT holds in two's complement. -/
theorem test_cfgr : resultAfter (.cfgr 0x0D) State.reset = some 0x00000000000000A3
    ∧ resultAfter (.cfgr 0x20) State.reset = some 0xFFFFFFFFFFFFFFF4 := by decide

/-- 95_test_vectors.md 2.5: a press adds DV to ACC, gates the pipe, sets its target and, with A = 0, its level. -/
theorem test_setkey_press :
    pipeAfter (fun p => (p.acc, p.env.gate, p.env.target, p.env.vol)) (.setkey 69 true) (running soloOrgan)
      = some (F64.one, true, F64.one, F64.one) := by decide +kernel

/-- 95_test_vectors.md 1.2 and 2.5: a press of a pressed key changes nothing; a release ends the gate and, with R = 0, the level. -/
theorem test_setkey_again_and_release :
    pipeAfter Pipe.acc (.setkey 69 true) (running soundingOrgan) = some F64.one
    ∧ pipeAfter (fun p => (p.acc, p.env.gate, p.env.vol)) (.setkey 69 false) (running soundingOrgan)
        = some (F64.zero, false, F64.zero) := by decide +kernel

/-- 95_test_vectors.md 3.1, steps 1 and 2: the first sample is +0.0, the second 1.0. -/
theorem test_next_samples : (nextCommand testPlatform soundingOrgan (running soundingOrgan)).result = F64.zero
    ∧ (soundingOrgan.afterSample testPlatform soloCreg).sample testPlatform soloCreg = F64.one := by decide +kernel

/-- 95_test_vectors.md 2.6, after two NEXT: FLAGS is 0x1D and theta fl(pi). -/
theorem test_next_pipe :
    (((soundingOrgan.afterSample testPlatform soloCreg).afterSample testPlatform soloCreg).pipe? 69).map
      (fun p => (flagsWord p.osc p.env.gate, p.osc.theta)) = some (0x1D#64, 0x400921FB54442D18#64) := by decide +kernel

/-- 95_test_vectors.md 2.6: KEYQ 69 gives 1 and KEYQ 70 gives 0; in CONFIG it records PHASE. -/
theorem test_keyq : resultAfter (.keyq 69) (running soundingOrgan) = some 1 ∧ resultAfter (.keyq 70) (running soundingOrgan) = some 0
    ∧ statusAfter (.keyq 69) State.reset = some 0x00020200 := by decide +kernel

/-- 95_test_vectors.md 2.3: a second activate at level 1.0 schedules the decay, (S - 1)/(D * SAMPLE_RATE) per sample; a
deactivate with R = 0 ends it. -/
theorem test_pact : pipeAfter (fun p => p.env.count) (.pact 69 false true) (running soundingOrgan) = some 880
    ∧ pipeAfter (fun p => (p.env.count, p.env.vol, p.env.gate)) (.pact 0 true false) (running decayingOrgan)
        = some (0, F64.zero, false) := by decide +kernel

/-- 95_test_vectors.md 2.7: PVOL of a pipe that is not there, with a NaN operand, records RANGE; of one that is, NONFINITE. -/
theorem test_pvol_errors : statusAfter (.pvol 300 false) (loaded 0x7FF8000000000000 soloOrgan) = some 0x00030401
    ∧ statusAfter (.pvol 69 false) (loaded 0x7FF8000000000000 soloOrgan) = some 0x00040801 := by decide +kernel

/-- 41_envelope.md R175: the target is the operand saturated to [0, 1]. -/
theorem test_pvol : pipeAfter (fun p => p.env.target) (.pvol 0 true) (loaded 0x3FF8000000000000 soloOrgan) = some F64.one := by
  decide +kernel

/-- 95_test_vectors.md 2.3: PATK with 75.0 stores 60.0. -/
theorem test_patk : pipeAfter (fun p => p.env.attack) (.patk 69 false) (loaded 0x4052C00000000000 soloOrgan)
    = some 0x404E000000000000 := by decide +kernel

/-- 95_test_vectors.md 2.3: PDEC with -1.0 stores 0.0. -/
theorem test_pdec : pipeAfter (fun p => p.env.decay) (.pdec 69 false) (loaded 0xBFF0000000000000 soloOrgan) = some 0 := by
  decide +kernel

/-- 95_test_vectors.md 2.3: PSUS with -0.0 stores +0.0, with 1.5 stores 1.0. -/
theorem test_psus : pipeAfter (fun p => p.env.sustain) (.psus 69 false) (loaded 0x8000000000000000 soloOrgan) = some 0
    ∧ pipeAfter (fun p => p.env.sustain) (.psus 69 false) (loaded 0x3FF8000000000000 soloOrgan) = some F64.one := by
  decide +kernel

/-- 95_test_vectors.md 2.3: PREL with 0.25 stores 0.25. -/
theorem test_prel : pipeAfter (fun p => p.env.release) (.prel 69 false) (loaded 0x3FD0000000000000 soloOrgan)
    = some 0x3FD0000000000000 := by decide +kernel

/-- 95_test_vectors.md 2.7: a slot that is not there records RANGE, with ALL too; slot 0 takes the type. -/
theorem test_pftype : statusAfter (.pftype 0 1 true true) (running soloOrgan) = some 0x00030401
    ∧ pipeAfter (fun p => p.slots.map Slot.type) (.pftype 69 0 false true) (running soloOrgan) = some [.vibrato] := by
  decide +kernel

/-- 95_test_vectors.md 2.4: at SAMPLE_RATE 1760 a rate of 440 Hz has the LFO increment fl(pi/2). -/
theorem test_pvrate : pipeAfter (fun p => p.slots.map fun q => (q.lfo.freq, q.lfo.dtheta)) (.pvrate 0 0 true)
    (loaded 0x407B800000000000 soloOrgan) = some [(0x407B800000000000, 0x3FF921FB54442D18)] := by decide +kernel

/-- 95_test_vectors.md 2.4: PVINT with -6.0 stores -6.0. -/
theorem test_pvint : pipeAfter (fun p => p.slots.map Slot.intensity) (.pvint 69 0 false) (loaded 0xC018000000000000 soloOrgan)
    = some [0xC018000000000000] := by decide +kernel

/-- 95_test_vectors.md 2.6: after two NEXT, LFO_FLAGS is 25; 44_control.md R288: before any, 8. -/
theorem test_pfq :
    resultAfter (.pfq 69 0 5) (running ((soloOrgan.afterSample testPlatform soloCreg).afterSample testPlatform soloCreg)) = some 25
    ∧ resultAfter (.pfq 69 0 5) (running soloOrgan) = some 8 := by decide +kernel

/-- 95_test_vectors.md 2.6: after SETKEY, TARGET (4) is 1.0 and FLAGS (9) is 4. -/
theorem test_pqry : resultAfter (.pqry 69 4) (running soundingOrgan) = some 0x3FF0000000000000
    ∧ resultAfter (.pqry 69 9) (running soundingOrgan) = some 4 := by decide +kernel

/-! ## The operations below the commands -/

/-- An oscillator at theta fl(3 pi/2), requested off while it sounds (95_test_vectors.md 2.2, sequence A, call 4). -/
def releasedOscillator : Oscillator where
  theta := 0x4012D97C7F3321D2#64
  dtheta := 0x3FF921FB54442D18#64
  freq := 0x407B800000000000#64
  vol := F64.one
  active := false
  wasActive := true
  persist := false

/-- 95_test_vectors.md 2.2, sequence A, calls 4 and 5: the tail gives -1.0 and wraps to exactly +0.0, then the oscillator goes
Silent with +0.0. -/
theorem test_oscillator_tail :
    oscNext testPlatform soloCreg releasedOscillator = (F64.minusOne, { releasedOscillator with theta := F64.zero, wasActive := false, persist := true })
    ∧ oscNext testPlatform soloCreg { releasedOscillator with theta := F64.zero, wasActive := false, persist := true }
        = (F64.zero, { releasedOscillator with theta := F64.zero, wasActive := false }) := by decide +kernel

/-- 95_test_vectors.md 2.2: at SAMPLE_RATE 1760, 25000 Hz is clamped to 20000 Hz, 2200 Hz gives an increment above TWO_PI, and
-5 Hz and -0.0 Hz give +0.0. -/
theorem test_oscFrequency :
    (oscFrequency soloCreg 0x40D86A0000000000 releasedOscillator).freq = 0x40D3880000000000
    ∧ (oscFrequency soloCreg 0x40A1300000000000 releasedOscillator).dtheta = 0x401F6A7A2955385E
    ∧ (oscFrequency soloCreg 0xC014000000000000 releasedOscillator).freq = 0
    ∧ (oscFrequency soloCreg 0x8000000000000000 releasedOscillator).freq = 0 := by decide +kernel

/-- An envelope at SAMPLE_RATE 8 (95_test_vectors.md 2.3). -/
def slowCreg : CregFile := { soloCreg with sampleRate := 0x4020000000000000#64, smoothAlpha := 0x3FE0000000000000#64 }

/-- 95_test_vectors.md 2.3: the attack of 0.5 s rises 0.25 per sample, the release of 0.25 s falls 0.5, the decay of 0.3 s to 0
lasts 3 samples. -/
theorem test_envelope_slopes :
    (envActivate slowCreg true { builtEnvelope slowCreg with attack := 0x3FE0000000000000 }).vel = 0x3FD0000000000000
    ∧ (envActivate slowCreg false { builtEnvelope slowCreg with release := 0x3FD0000000000000, gate := true }).vel = 0xBFE0000000000000
    ∧ (envActivate slowCreg true
        { builtEnvelope slowCreg with gate := true, vol := F64.one, decay := 0x3FD3333333333333, sustain := F64.zero }).count = 3 := by
  decide +kernel

/-- 95_test_vectors.md 2.3: a decay of 0.5 s with S = 1.0 has the velocity +0.0 and lasts 4 samples. -/
theorem test_decay_full_sustain :
    (let e := envActivate slowCreg true { builtEnvelope slowCreg with gate := true, vol := F64.one, sustain := F64.one };
      (e.vel, e.count)) = (0x0000000000000000#64, 4) := by decide +kernel

/-- 95_test_vectors.md 2.3, EnvNext: the third row (the countdown ends and locks the level), and the first (the sample is the
Silent to Active +0.0, the oscillator gets 0.75). -/
theorem test_envNext :
    (envStep slowCreg { builtEnvelope slowCreg with vol := 0x3FE4000000000000, vel := 0xBFC0000000000000, count := 1, gate := true })
      = { builtEnvelope slowCreg with vol := 0x3FE0000000000000, vel := F64.zero, count := 0, gate := true }
    ∧ (let r := envNext testPlatform slowCreg
        { builtEnvelope slowCreg with
          vol := 0x3FE8000000000000, vel := 0x3FD0000000000000, smooth := 0x3FE0000000000000, target := F64.one, gate := true }
        builtPipeOscillator;
      (r.1, r.2.1.vol, r.2.1.smooth, r.2.2.active, r.2.2.vol))
        = (F64.zero, F64.one, 0x3FE8000000000000#64, true, 0x3FE8000000000000#64) := by decide +kernel

/-- 95_test_vectors.md 3.2, step 4: with the poll on, the step that reaches level 1.0 schedules the decay, -0.125 per sample for 4
samples. -/
theorem test_envStep_poll :
    (let e := envStep { slowCreg with envDecayPoll := 1 }
      { builtEnvelope slowCreg with vol := 0x3FE8000000000000, vel := 0x3FD0000000000000, gate := true };
      (e.vol, e.vel, e.count)) = (F64.one, 0xBFC0000000000000#64, 4) := by decide +kernel

/-- 95_test_vectors.md 2.4, call 4: a VIBRATO slot at LFO sample -1.0 with intensity 220 takes 220 Hz to 0, and the LFO wraps. -/
theorem test_vibrato :
    (let r := filtModF testPlatform soloCreg
        { type := .vibrato, intensity := 0x406B800000000000
          lfo := { releasedOscillator with active := true } } 0x406B800000000000;
      (r.1, r.2.lfo.theta)) = (F64.zero, F64.zero) := by decide +kernel

/-- 95_test_vectors.md 1.4: COMP for the drawbars [3, 5, 7] is 0.5333333333333333, for one drawbar at 1 it is 1.0. -/
theorem test_compensation :
    compensationOf ([3, 5, 7].map fun d => F64.div (F64.ofInt d) F64.eight) = 0x3FE1111111111111
    ∧ compensationOf ([1].map fun d => F64.div (F64.ofInt d) F64.eight) = F64.one := by decide +kernel

/-- 95_test_vectors.md 3.1 and 3.5: the bus writes of three lines of assembly. -/
theorem test_assemble :
    assemble "CFG SAMPLE_RATE, 1760.0"
      = some [⟨0x00, 0x00000000⟩, ⟨0x04, 0x409B8000⟩, ⟨0x08, 0x10000000⟩]
    ∧ assemble "PFTYPE *, 0, VIBRATO ; every pipe" = some [⟨0x08, 0x60000003⟩]
    ∧ assemble "EVENTS 69, -76" = some [⟨0x08, 0x20450001⟩, ⟨0x08, 0x204C0000⟩] := by decide +kernel

/-! ## Witnesses: values that meet the hypotheses of each statement -/

theorem witness_DecodeEncode : Instr.wellFormed (.pfq (BitVec.ofInt 10 (-512)) 15 5) = true := by decide

theorem witness_EncodeDecode : decode 0x78450500 = .ok (.pfq 69 0 5) := by decide

/-- One word for each case of R124, at the boundary of its range: OP 0x06, OP 0x20, SETKEY with bit 1, CREG 0x30, SUB 6. The
last defined CREG and SUB are among the decode tests. -/
theorem witness_IllegalWords : ([0x18000000, 0x80000000, 0x20000002, 0x10300000, 0x78000600] : List Nat).map (decodeTableWord 32)
    = List.replicate 5 none := by decide

/-- A block with the host's inputs waiting. -/
def waiting (inputs : List HostInput) : State := { State.reset with pscBlock := 1, inputs := inputs }

theorem witness_StepRunsTheCommand :
    (waiting [.write 0x48 4 0x24000000]).inputs = .write ((waiting [.write 0x48 4 0x24000000]).pscBase + 0x08) 4 0x24000000 :: []
    ∧ decode (BitVec.ofNat 32 0x24000000) = .ok .next ∧ decodeTableWord 32 0x24000000 = some .next
    ∧ State.reset.inputs = [] := by decide

/-- The first and the last word of the window. -/
theorem witness_WindowReads :
    (waiting [.read 0x40 4]).inputs = .read ((waiting [.read 0x40 4]).pscBase + 4 * 0) 4 :: []
    ∧ (waiting [.read 0x7C 4]).inputs = .read ((waiting [.read 0x7C 4]).pscBase + 4 * 15) 4 :: [] := by decide

/-- OPD_LO, OPD_HI, STATUS and the last word of the window. -/
theorem witness_WindowWrites :
    (waiting [.write 0x40 4 1]).inputs = .write ((waiting [.write 0x40 4 1]).pscBase + 4 * 0) 4 (1 : Word).toNat :: []
    ∧ (waiting [.write 0x44 4 1]).inputs = .write ((waiting [.write 0x44 4 1]).pscBase + 4 * 1) 4 (1 : Word).toNat :: []
    ∧ (waiting [.write 0x4C 4 1]).inputs = .write ((waiting [.write 0x4C 4 1]).pscBase + 4 * 3) 4 (1 : Word).toNat :: []
    ∧ (waiting [.write 0x7C 4 1]).inputs = .write ((waiting [.write 0x7C 4 1]).pscBase + 4 * 15) 4 (1 : Word).toNat :: [] := by
  decide

/-- Not admitted: the byte before the window, the byte after it, a place between two words, a width of 2. Admitted: the last
word. -/
theorem witness_OnlyUnadmittedAccessesRefused :
    (waiting []).admitted 0x3C 4 = none ∧ (waiting []).admitted 0x80 4 = none ∧ (waiting []).admitted 0x42 4 = none
    ∧ (waiting []).admitted 0x40 2 = none ∧ (waiting []).admitted 0x7C 4 = some .reserved := by decide

theorem witness_OperandLoads :
    (waiting [.write 0x40 4 5, .write 0x44 4 7]).inputs
      = (opdWrites 0x0000000700000005).map (fun w => w.at (waiting [.write 0x40 4 5, .write 0x44 4 7])) ++ [] := by decide

theorem witness_ResetState : (waiting [.hardwareReset]).inputs = .hardwareReset :: [] := by decide

/-- Nothing pressed, nothing owed. -/
theorem accounting_solo : AccountingOk soloCreg soloOrgan := by
  intro c p hp
  have h := solo_pipe (builtPipe testPlatform soloCreg 69) (by rfl) hp
  subst h
  refine ⟨rfl, rfl, ?_⟩
  rw [pressedShare_eq, Finset.sum_eq_zero]
  · rfl
  · intro n _
    simp [soloOrgan, builtOrgan, Organ.keyPressed]

/-- Key 69 down on one full drawbar: ACC is 1.0. -/
theorem accounting_sounding : AccountingOk soloCreg soundingOrgan := by
  intro c p hp
  have h := solo_pipe (drawbarEffect soloCreg true F64.one (builtPipe testPlatform soloCreg 69)) (by decide +kernel) hp
  have hc : c = 69 := by
    have := Organ.hasPipe_of_pipe? hp
    rw [Organ.hasPipe_iff] at this
    have h1 : soundingOrgan.pipeLo = 69 := by decide +kernel
    have h2 : soundingOrgan.pipes.length = 1 := by decide +kernel
    omega
  subst hc
  rw [h]
  have hset : ∀ k', soundingOrgan.keyPressed k' = if k' = 69 then true else soloOrgan.keyPressed k' := by
    intro k'
    rw [← Organ.keyPressed_setKey]
    have : soundingOrgan.key = (soloOrgan.setKey 69 true).key :=
      (drawbarLoop_frame soloCreg true 69 (soloOrgan.drawbars soloCreg) (soloOrgan.setKey 69 true)).1
    unfold Organ.keyPressed
    simp only [this]
  have h0 := (accounting_solo 69 (builtPipe testPlatform soloCreg 69) (by decide +kernel)).2.2
  refine ⟨by decide +kernel, by decide +kernel, ?_⟩
  have hd : soundingOrgan.drawbars soloCreg = soloOrgan.drawbars soloCreg := by decide +kernel
  rw [hd, pressedShare_set soloOrgan soundingOrgan _ _ 69 true (by decide +kernel) hset, ← h0]
  decide +kernel

/-- A step that runs a NEXT from a sounding block, over the bus. -/
theorem witness_StepKeepsStateOk : StateOk { running soundingOrgan with inputs := [.write 0x08 4 0x24000000] }
    ∧ step { running soundingOrgan with inputs := [.write 0x08 4 0x24000000] }
      = .next (nextCommand platform soundingOrgan (running soundingOrgan)) :=
  ⟨⟨(running_ok soundingOrgan_ok).creg, ⟨(running_ok soundingOrgan_ok).errors.empty, (running_ok soundingOrgan_ok).errors.first,
    (running_ok soundingOrgan_ok).errors.fatal⟩, (running_ok soundingOrgan_ok).organ⟩, rfl⟩

/-- A step that releases the key of a sounding block, over the bus. -/
theorem witness_StepKeepsAccounting : StateOk { running soundingOrgan with inputs := [.write 0x08 4 0x20450000] }
    ∧ Accounted { running soundingOrgan with inputs := [.write 0x08 4 0x20450000] }
    ∧ step { running soundingOrgan with inputs := [.write 0x08 4 0x20450000] }
      = .next ((running soundingOrgan).setOrgan (keyTransition soloCreg 69 false soundingOrgan)) :=
  ⟨⟨(running_ok soundingOrgan_ok).creg, ⟨(running_ok soundingOrgan_ok).errors.empty, (running_ok soundingOrgan_ok).errors.first,
    (running_ok soundingOrgan_ok).errors.fatal⟩, (running_ok soundingOrgan_ok).organ⟩,
    fun o ho => by cases ho; exact accounting_sounding, rfl⟩

theorem witness_AccumulatorsAreEighths : StateOk (running soundingOrgan) ∧ Accounted (running soundingOrgan)
    ∧ (running soundingOrgan).phase = .run soundingOrgan
    ∧ soundingOrgan.pipe? 69 = some (drawbarEffect soloCreg true F64.one (builtPipe testPlatform soloCreg 69)) :=
  ⟨running_ok soundingOrgan_ok, fun o ho => by cases ho; exact accounting_sounding, rfl, by decide +kernel⟩

theorem witness_SilenceIsKept : StateOk (running soloOrgan) ∧ Silent (running soloOrgan)
    ∧ (∀ idx, Instr.next ≠ .setkey idx true) ∧ (∀ idx all, Instr.next ≠ .pact idx all true)
    ∧ exec .next (running soloOrgan) = .next (nextCommand platform soloOrgan (running soloOrgan))
    ∧ (running soloOrgan).phase.isRun = true := by
  refine ⟨running_ok soloOrgan_ok, fun o ho => ?_, fun _ => by simp, fun _ _ => by simp, rfl, rfl⟩
  cases ho
  refine ⟨fun k => by simp [soloOrgan, builtOrgan, Organ.keyPressed], fun p hp => ?_⟩
  have h : p = builtPipe testPlatform soloCreg 69 := by
    have : soloOrgan.pipes = [builtPipe testPlatform soloCreg 69] := rfl
    rw [this] at hp; simpa using hp
  rw [h]
  exact ⟨rfl, rfl, rfl, rfl, rfl, rfl, rfl⟩

/-- SETKEY in CONFIG is not admitted; NOP there is, also where PHASE is recorded already. -/
theorem witness_PhaseAdmission : Instr.wellFormed (.setkey 60 true) = true ∧ admittedIn (.setkey 60 true) State.reset.phase = false
    ∧ Instr.wellFormed .nop = true ∧ admittedIn .nop (State.reset.recordError .phase).phase = true
    ∧ exec .nop (State.reset.recordError .phase) = .next (State.reset.recordError .phase)
    ∧ (State.reset.recordError .phase).errors.ePhase = true := ⟨rfl, rfl, rfl, rfl, rfl, rfl⟩

/-- Each check is the first to fail for some word: an illegal word, PVOL in CONFIG, PVOL 300 with a NaN, PFTYPE *, 1, and PVOL 69
with a NaN; and PVOL 69 with 0.5 and a BUILD that records CFG pass. -/
theorem witness_CheckOrder : StateOk (loaded 0x3FE0000000000000 soloOrgan) ∧ StateOk mismatched
    ∧ exec .build mismatched = .next (buildCommand platform mismatched) ∧ (buildCommand platform mismatched).errors.has .cfg = true
    ∧ wordError 0x08000000 mismatched = none
    ∧ wordError 0x18000000 (configuring 0x7FF8000000000000) = some .illegal
    ∧ wordError 0x452C0000 (configuring 0x7FF8000000000000) = some .phase
    ∧ wordError 0x452C0000 (loaded 0x7FF8000000000000 soloOrgan) = some .range
    ∧ wordError 0x60001003 (loaded 0x7FF8000000000000 soloOrgan) = some .range
    ∧ wordError 0x44450000 (loaded 0x7FF8000000000000 soloOrgan) = some .nonfinite
    ∧ wordError 0x44450000 (loaded 0x3FE0000000000000 soloOrgan) = none :=
  ⟨⟨(running_ok soloOrgan_ok).creg, ⟨(running_ok soloOrgan_ok).errors.empty, (running_ok soloOrgan_ok).errors.first,
    (running_ok soloOrgan_ok).errors.fatal⟩, (running_ok soloOrgan_ok).organ⟩,
    ⟨cregOk_reset.setInt .ndraw 3, ⟨⟨fun _ e => by cases e <;> rfl, fun _ => rfl⟩, fun _ he => (nomatch he),
      ⟨fun he => (nomatch he), fun he => (nomatch he)⟩⟩, fun _ ho => (nomatch ho)⟩, rfl, by decide, by decide +kernel⟩

/-- NEXT in CONFIG newly records PHASE, and a BUILD with a mismatch newly records CFG. -/
theorem witness_ErrorsArePrecise :
    exec .next State.reset = .next (State.reset.recordError .phase) ∧ State.reset.errors.has .phase = false
    ∧ (State.reset.recordError .phase).errors.has .phase = true
    ∧ exec .build mismatched = .next (buildCommand platform mismatched) ∧ mismatched.errors.has .cfg = false
    ∧ (buildCommand platform mismatched).errors.has .cfg = true := ⟨rfl, rfl, rfl, rfl, rfl, by decide⟩

/-- The bits next to the fields of STATUS. -/
theorem witness_StatusLayout :
    ∀ n ∈ [2, 7, 13, 15, 24, 31], ¬(n < 2 ∨ (8 ≤ n ∧ n ≤ 12) ∨ (16 ≤ n ∧ n ≤ 23)) := by decide

/-- RESULT moves with KEYQ, SAMPLE_INDEX with NEXT, a configuration register with CFGW, and PHASE with BUILD. -/
theorem witness_WhoWritesWhat : resultAfter (.keyq 69) (running soundingOrgan) = some 1 ∧ (running soundingOrgan).result = 0
    ∧ (next? (exec .next (running soundingOrgan))).map State.sampleIndex = some 1 ∧ (running soundingOrgan).sampleIndex = 0
    ∧ (next? (exec (.cfgw 0x0A) (configuring 3))).map State.creg = some mismatched.creg ∧ (configuring 3).creg ≠ mismatched.creg
    ∧ (next? (exec .build mismatched)).map (fun t => t.phase.code) = some 2 ∧ mismatched.phase.code = 0 := by decide +kernel

theorem witness_QueriesWriteOnlyResult :
    exec (.keyq 69) (running soundingOrgan) = .next { running soundingOrgan with result := if soundingOrgan.keyPressed 69 then 1 else 0 }
    ∧ exec (.cfgr 0x0D) State.reset = .next { State.reset with result := BitVec.ofInt 64 163 } := ⟨rfl, rfl⟩

/-- The greatest finite operand, in CONFIG. -/
theorem witness_CfgwFloat : (configuring 0x7FEFFFFFFFFFFFFF).phase = .config
    ∧ F64.isFinite (configuring 0x7FEFFFFFFFFFFFFF).opd = true := by decide

theorem witness_CfgwInteger : (configuring (BitVec.ofInt 64 (-(2 ^ 63)))).phase = .config := by decide

theorem witness_CfgrReads : StateOk (running soundingOrgan) := running_ok soundingOrgan_ok

/-- The reset configuration, and the one with a single pipe. -/
theorem witness_BuildMakesTheOrgan : CregOk State.reset.creg ∧ State.reset.phase = .config
    ∧ State.reset.creg.ndraw = State.reset.creg.nratio ∧ State.reset.creg.pipeLo ≤ State.reset.creg.pipeHi
    ∧ CregOk soloCreg ∧ soloCreg.ndraw = soloCreg.nratio ∧ soloCreg.pipeLo ≤ soloCreg.pipeHi :=
  ⟨cregOk_reset, rfl, rfl, by decide, soloCreg_ok, rfl, by decide⟩

/-- Either mismatch, each alone, and a failed block. -/
theorem witness_BuildMismatchFails : mismatched.phase = .config ∧ mismatched.creg.ndraw ≠ mismatched.creg.nratio
    ∧ { CregFile.reset with pipeLo := 10, pipeHi := 9 }.pipeHi < { CregFile.reset with pipeLo := 10, pipeHi := 9 }.pipeLo
    ∧ { State.reset with phase := .failed }.phase = .failed := by decide

theorem witness_CompensationBound : StateOk (running soundingOrgan) ∧ (running soundingOrgan).phase = .run soundingOrgan :=
  ⟨running_ok soundingOrgan_ok, rfl⟩

/-- Key 69 is up in one organ and down in the other, whose drawbar reaches pipe 69. -/
theorem witness_SetkeyTransition : (running soloOrgan).phase = .run soloOrgan ∧ soloOrgan.keyPressed 69 ≠ true
    ∧ (running soundingOrgan).phase = .run soundingOrgan ∧ soundingOrgan.keyPressed 69 = true := by
  refine ⟨rfl, by decide +kernel, rfl, by decide +kernel⟩

/-- A block with key 69 down, and key 57, whose drawbar reaches no pipe, up; and one with key 69 up. -/
theorem witness_PressThenRelease : StateOk (running soundingOrgan) ∧ Accounted (running soundingOrgan)
    ∧ (running soundingOrgan).phase = .run soundingOrgan ∧ soundingOrgan.keyPressed 57 = false
    ∧ StateOk (running soloOrgan) ∧ Accounted (running soloOrgan) ∧ soloOrgan.keyPressed 69 = false :=
  ⟨running_ok soundingOrgan_ok, fun o ho => by cases ho; exact accounting_sounding, rfl, by decide +kernel,
    running_ok soloOrgan_ok, fun o ho => by cases ho; exact accounting_solo, by decide +kernel⟩

theorem witness_NextSumsThePipes : (running soundingOrgan).phase = .run soundingOrgan := rfl

theorem witness_SampleIsBounded : StateOk (running soundingOrgan) ∧ (running soundingOrgan).phase = .run soundingOrgan
    ∧ exec .next (running soundingOrgan) = .next (nextCommand platform soundingOrgan (running soundingOrgan)) :=
  ⟨running_ok soundingOrgan_ok, rfl, rfl⟩

theorem witness_OutputVolumeBelowTarget : StateOk (running soundingOrgan) ∧ (running soundingOrgan).phase.isRun = true
    ∧ exec .next (running soundingOrgan) = .next (nextCommand platform soundingOrgan (running soundingOrgan))
    ∧ (nextCommand platform soundingOrgan (running soundingOrgan)).phase = .run (soundingOrgan.afterSample platform soloCreg) :=
  ⟨running_ok soundingOrgan_ok, rfl, rfl, rfl⟩

/-- Two blocks that differ in OPD, RESULT and SAMPLE_INDEX. -/
theorem witness_SampleDependsOnOrganOnly :
    (running soundingOrgan).creg = { loaded 7 soundingOrgan with result := 1, sampleIndex := 5 }.creg
    ∧ (running soundingOrgan).phase = { loaded 7 soundingOrgan with result := 1, sampleIndex := 5 }.phase
    ∧ (running soundingOrgan).phase.isRun = true
    ∧ exec .next (running soundingOrgan) = .next (nextCommand platform soundingOrgan (running soundingOrgan)) :=
  ⟨rfl, rfl, rfl, rfl⟩

theorem witness_KeyqReads : (running soundingOrgan).phase = .run soundingOrgan := rfl

/-- The pipe of code 69. -/
theorem witness_PqryReads : (running soloOrgan).phase = .run soloOrgan
    ∧ soloOrgan.pipe? (69 : CodeField).toInt = some (builtPipe testPlatform soloCreg 69) := ⟨rfl, by decide +kernel⟩

/-- Slot 0 of one, with the last selector. -/
theorem witness_PfqReads : (running soloOrgan).phase = .run soloOrgan
    ∧ soloOrgan.pipe? (69 : CodeField).toInt = some (builtPipe testPlatform soloCreg 69) ∧ (0 : BitVec 4).toNat < soloOrgan.filterSlots
    ∧ (builtPipe testPlatform soloCreg 69).slots[(0 : BitVec 4).toNat]? = some builtSlot ∧ (5 : BitVec 4).toNat ≤ 5 :=
  ⟨rfl, by decide +kernel⟩

theorem witness_FlagsLayout : 6 ≤ 6 := le_rfl

/-- One pipe, and every pipe. -/
theorem witness_PactActivates : (running soloOrgan).phase = .run soloOrgan ∧ soloOrgan.admits (pipeOperand 69 false) = true
    ∧ soloOrgan.admits (pipeOperand 300 true) = true := ⟨rfl, by decide +kernel⟩

theorem witness_EnvelopeSettersStore : (loaded 0x3FE0000000000000 soloOrgan).phase = .run soloOrgan
    ∧ soloOrgan.admits (pipeOperand 69 false) = true ∧ F64.isFinite (loaded 0x3FE0000000000000 soloOrgan).opd = true :=
  ⟨rfl, by decide +kernel⟩

/-- With an operand that PVRATE and PVINT take, and with one they do not. -/
theorem witness_SlotSettersStore : (loaded 0x3FE0000000000000 soloOrgan).phase = .run soloOrgan
    ∧ soloOrgan.admits (pipeOperand 69 false) = true ∧ (0 : BitVec 4).toNat < soloOrgan.filterSlots
    ∧ F64.isFinite (loaded 0x3FE0000000000000 soloOrgan).opd = true
    ∧ F64.isFinite (loaded 0x7FF8000000000000 soloOrgan).opd = false := ⟨rfl, by decide +kernel⟩

/-- A broadcast that passes its checks; one whose operand is a NaN, and one whose slot is not there, which record NONFINITE and
RANGE. -/
theorem witness_BroadcastIsEveryPipe : StateOk (running soloOrgan) ∧ (running soloOrgan).phase = .run soloOrgan
    ∧ singleForm (.pact 0 true true) = some (fun c => .pact c false true)
    ∧ StateOk (loaded 0x7FF8000000000000 soloOrgan) ∧ (loaded 0x7FF8000000000000 soloOrgan).phase = .run soloOrgan
    ∧ singleForm (.pvol 0 true) = some (fun c => .pvol c false)
    ∧ statusAfter (.pvol 0 true) (loaded 0x7FF8000000000000 soloOrgan) = some 0x00040801
    ∧ singleForm (.pftype 0 1 true true) = some (fun c => .pftype c 1 false true)
    ∧ statusAfter (.pftype 0 1 true true) (running soloOrgan) = some 0x00030401 :=
  have h := running_ok soloOrgan_ok
  ⟨h, rfl, rfl, ⟨h.creg, ⟨h.errors.empty, h.errors.first, h.errors.fatal⟩, h.organ⟩, rfl, rfl, by decide +kernel, rfl,
    by decide +kernel⟩

/-- A concrete oscillator for each row of the table of 40_oscillator.md R145. -/
theorem witness_OscillatorTransitions :
    (let o := { builtPipeOscillator with active := true }; o.active = true ∧ o.wasActive = false ∧ o.persist = false)
    ∧ (let o := { releasedOscillator with active := true }; o.active = true ∧ (o.wasActive = true ∨ o.persist = true))
    ∧ (let o := releasedOscillator
      o.active = false ∧ (o.wasActive = true ∨ o.persist = true)
        ∧ F64.le soloCreg.epsilon (F64.abs (F64.mul o.vol (testPlatform.sin o.theta))) = true)
    ∧ (let o := { releasedOscillator with theta := F64.zero }
      o.active = false ∧ (o.wasActive = true ∨ o.persist = true)
        ∧ F64.le soloCreg.epsilon (F64.abs (F64.mul o.vol (testPlatform.sin o.theta))) = false)
    ∧ (builtPipeOscillator.active = false ∧ builtPipeOscillator.wasActive = false ∧ builtPipeOscillator.persist = false) := by
  decide +kernel

/-- At full volume, with a phase left from an earlier sound. -/
theorem witness_ClickFreeStart : PlatformOk testPlatform
    ∧ Within F64.zero F64.one { releasedOscillator with active := true, wasActive := false }.vol
    ∧ { releasedOscillator with active := true, wasActive := false }.active = true
    ∧ { releasedOscillator with active := true, wasActive := false }.wasActive = false
    ∧ { releasedOscillator with active := true, wasActive := false }.persist = false :=
  ⟨testPlatform_ok, within_one, rfl, rfl, rfl⟩

theorem witness_OscillatorMagnitude : PlatformOk testPlatform ∧ OscillatorOk soloCreg releasedOscillator :=
  ⟨testPlatform_ok, ⟨⟨⟨by decide +kernel, by decide +kernel, by decide +kernel⟩, by decide +kernel⟩,
    ⟨by decide +kernel, by decide +kernel, by decide +kernel⟩, ⟨by decide +kernel, by decide +kernel, by decide +kernel⟩,
    within_one, by decide⟩⟩

/-- The greatest increment; and a sum below TWO_PI. -/
theorem witness_AdvanceWraps : Within F64.zero F64.twoPi 0x4012D97C7F3321D2 ∧ Within F64.zero dthetaMax dthetaMax
    ∧ F64.lt (F64.add 0x3FF921FB54442D18 0x3FF921FB54442D18) F64.twoPi = true :=
  ⟨⟨by decide +kernel, by decide +kernel, by decide +kernel⟩, ⟨by decide +kernel, by decide +kernel, by decide +kernel⟩,
    by decide +kernel⟩

/-- A gated envelope at its peak, with a decay. -/
def peakEnvelope : Envelope := { builtEnvelope soloCreg with gate := true, vol := F64.one }

theorem peakEnvelope_ok : EnvelopeOk soloCreg peakEnvelope :=
  have h := EnvelopeOk.built soloCreg_ok
  ⟨h.attack, h.decay, h.sustain, h.release, within_one, rfl, Nat.zero_le _, h.smooth, h.target, fun _ => rfl⟩

/-- An envelope for each clause: gate up and down, and the trigger met at its boundary `vol = 1 - NEGLIGIBLE` and not met. -/
theorem witness_EnvelopeActivation : peakEnvelope.gate = true ∧ (builtEnvelope soloCreg).gate = false
    ∧ F64.le (F64.sub F64.one soloCreg.negligible) (F64.sub F64.one soloCreg.negligible) = true
    ∧ F64.lt soloCreg.negligible peakEnvelope.decay = true ∧ peakEnvelope.count = 0
    ∧ F64.le (F64.sub F64.one soloCreg.negligible) 0x3FE8000000000000 = false := by decide +kernel

theorem witness_DecayIsNotRestarted : StateOk (running decayingOrgan) ∧ (running decayingOrgan).phase = .run decayingOrgan
    ∧ ((decayingOrgan.pipe? (69 : CodeField).toInt).map fun p => p.env.count) = some 880 :=
  ⟨running_ok decayingOrgan_ok, rfl, by decide +kernel⟩

theorem witness_DecayLength : CregOk soloCreg ∧ EnvelopeOk soloCreg peakEnvelope ∧ peakEnvelope.gate = true ∧ peakEnvelope.count = 0
    ∧ F64.le (F64.sub F64.one soloCreg.negligible) peakEnvelope.vol = true ∧ F64.lt soloCreg.negligible peakEnvelope.decay = true :=
  ⟨soloCreg_ok, peakEnvelope_ok, rfl, rfl, by decide +kernel, by decide +kernel⟩

/-- The first, the last but one and the last step of a countdown of 4; without the poll, and with it where the last step finds
the trigger met and where the level is too low for it. -/
theorem witness_CountdownLocksTheLevel :
    (let e := { peakEnvelope with count := 4 }; 1 ≤ e.count ∧ 0 < 1 ∧ 3 < e.count ∧ 4 = e.count) ∧ soloCreg.envDecayPoll = 0
    ∧ (let f := { soloCreg with envDecayPoll := 1 }
      f.envDecayPoll = 1 ∧ peakEnvelope.gate = true ∧ F64.lt f.negligible peakEnvelope.decay = true
        ∧ F64.le (F64.sub F64.one f.negligible) ((envStep f)^[4] { peakEnvelope with count := 4 }).vol = true
        ∧ F64.le (F64.sub F64.one f.negligible)
          ((envStep f)^[4] { peakEnvelope with count := 4, vol := 0x3FE8000000000000 }).vol = false) := by decide +kernel

/-- A level that falls and one that rises. -/
theorem witness_LevelIsMonotonic : CregOk soloCreg ∧ EnvelopeOk soloCreg peakEnvelope
    ∧ EnvelopeOk soloCreg { peakEnvelope with vel := F64.minusOne } ∧ F64.le F64.zero peakEnvelope.vel = true
    ∧ F64.le F64.minusOne F64.zero = true :=
  have h := peakEnvelope_ok
  ⟨soloCreg_ok, h, ⟨h.attack, h.decay, h.sustain, h.release, h.vol, rfl, h.count, h.smooth, h.target, h.gated⟩, by decide, by decide⟩

theorem witness_LfosAlwaysRun : (running soundingOrgan).phase = .run soundingOrgan
    ∧ exec .next (running soundingOrgan) = .next (nextCommand platform soundingOrgan (running soundingOrgan))
    ∧ (nextCommand platform soundingOrgan (running soundingOrgan)).phase = .run (soundingOrgan.afterSample platform soloCreg)
    ∧ soundingOrgan.pipe? 69 = some (drawbarEffect soloCreg true F64.one (builtPipe testPlatform soloCreg 69)) :=
  ⟨rfl, rfl, rfl, by decide +kernel⟩

/-- 1.0, and 1.0 again, against 1.0 and its neighbour 1 + 2^-52. -/
theorem witness_RoundsToNearest : F64.isFinite F64.one = true ∧ F64.isFinite 0x3FF0000000000001 = true
    ∧ F64.isFinite (F64.add F64.one 0x3FF0000000000001) = true ∧ F64.isFinite (F64.mul F64.one 0x3FF0000000000001) = true
    ∧ 0 < F64.value F64.one ∧ F64.isFinite (F64.div F64.one F64.one) = true := by decide +kernel

end Sys2Proof.Tests
end

