-- ==== Sys2Proof/Proofs/RoundsToNearest.lean ====
section
/-! PROOF. The sums, products and quotients of finite values are the nearest binary64 values, ties to even (00_scope.md R12).
Each of them is `rounded b n d`, so the rounding of signed values is shown to be nearest once and used three times. -/

namespace Sys2Proof.F64

/-- What Obligations.RoundsToNearest asks of one result against one other value. -/
def IsNearestAgainst (c result : F64) (exact scale : Int) : Prop :=
  isFinite result = true →
    |exact - value result * scale| ≤ |exact - value c * scale|
    ∧ (value c ≠ value result → |exact - value result * scale| = |exact - value c * scale| → mag result % 2 = 0)

theorem signed_zero (s : Bool) : signed s 0 = 0 := by cases s <;> rfl

theorem signed_bne (s t : Bool) (n : Nat) : signed (s != t) n = if t then -signed s n else signed s n := by
  cases s <;> cases t <;> simp [signed]

/-- The nearest magnitude is nearest among the signed values too: below zero, every value is farther from a nonnegative ratio
than zero is. -/
theorem roundMag_nearest_signed {p d : Nat} (hd : 0 < d) (hfin : roundMag p d < infMag) (s : Bool) (m : Nat) :
    |(p : Int) - unitsOfMag (roundMag p d) * d| ≤ |(p : Int) - signed s (unitsOfMag m) * d|
      ∧ (signed s (unitsOfMag m) ≠ unitsOfMag (roundMag p d) →
          |(p : Int) - unitsOfMag (roundMag p d) * d| = |(p : Int) - signed s (unitsOfMag m) * d| → roundMag p d % 2 = 0) := by
  cases s with
  | false => simpa [signed] using roundMag_nearest hd hfin m
  | true =>
    have hzero := roundMag_nearest hd hfin 0
    rw [unitsOfMag_zero] at hzero
    rcases Nat.eq_zero_or_pos (unitsOfMag m) with hu | hu
    · rw [hu, signed_zero]
      exact_mod_cast hzero
    · have hpos : (0 : Int) < unitsOfMag m * d := by exact_mod_cast Nat.mul_pos hu hd
      have hp : (0 : Int) ≤ p := Int.natCast_nonneg p
      have hfar : |(p : Int) - (0 : Nat) * d| < |(p : Int) - signed true (unitsOfMag m) * d| := by
        simp only [signed, if_true, Nat.cast_zero, zero_mul, sub_zero, neg_mul, sub_neg_eq_add]
        rw [abs_of_nonneg hp, abs_of_pos (by linarith)]
        linarith
      have hlt := lt_of_le_of_lt hzero.1 hfar
      exact ⟨hlt.le, fun _ htie => absurd htie hlt.ne⟩

/-- A rounded result is nearest to the exact value it was rounded from. -/
theorem rounded_nearest (b : Bool) (n : Nat) {d : Nat} (hd : 0 < d) (c : F64) :
    IsNearestAgainst c (rounded b n d) (signed b n) d := by
  intro hfin
  rw [isFinite_iff, mag_rounded] at hfin
  have hnear := roundMag_nearest_signed hd hfin (sign c != b) (mag c)
  have hc : signed (sign c != b) (unitsOfMag (mag c)) = if b then -value c else value c := signed_bne _ _ _
  rw [hc] at hnear
  rw [mag_rounded, rounded, value_ofMag (roundMag_lt n d)]
  cases b with
  | false => exact hnear
  | true =>
    -- both distances are those of the negated values
    have hflip : ∀ x y : Int, |-x - y * d| = |x - -y * d| := fun x y => by rw [← abs_neg]; congr 1; ring
    simp only [signed, if_true] at hnear ⊢
    rw [hflip, hflip, neg_neg]
    exact ⟨hnear.1, fun hne => hnear.2 fun h => hne (by omega)⟩

/-- A finite sum is rounded from the exact sum, an exact zero too. -/
theorem add_eq_rounded {a b : F64} (ha : isFinite a = true) (hb : isFinite b = true) :
    ∃ s, add a b = rounded s (value a + value b).natAbs 1 ∧ signed s (value a + value b).natAbs = value a + value b := by
  rw [add_of_finite ha hb]
  split
  · next h0 => exact ⟨sign a && sign b, by rw [h0, rounded, Int.natAbs_zero, roundMag_zero], by rw [h0]; exact signed_zero _⟩
  · exact ⟨_, rfl, signed_natAbs _⟩

theorem add_nearest {a b : F64} (ha : isFinite a = true) (hb : isFinite b = true) (c : F64) :
    IsNearestAgainst c (add a b) (value a + value b) 1 := by
  obtain ⟨s, hadd, hexact⟩ := add_eq_rounded ha hb
  have hnear := rounded_nearest s (value a + value b).natAbs Nat.one_pos c
  rwa [hexact, ← hadd] at hnear

theorem mul_nearest {a b : F64} (ha : isFinite a = true) (hb : isFinite b = true) (c : F64) :
    IsNearestAgainst c (mul a b) (value a * value b) oneUnits := by
  rw [mul_of_finite ha hb, ← signed_mul]
  exact rounded_nearest _ _ oneUnits_pos c

theorem sign_of_value_pos {x : F64} (h : 0 < value x) : sign x = false := by
  by_contra hs
  rw [Bool.not_eq_false] at hs
  rw [value_of_sign_true hs] at h
  omega

theorem div_nearest {a b : F64} (ha : isFinite a = true) (hb : isFinite b = true) (hpos : 0 < value b) (c : F64) :
    IsNearestAgainst c (div a b) (value a * oneUnits) (value b) := by
  have hsign := sign_of_value_pos hpos
  have hunits : value b = units b := value_of_sign_false hsign
  have hnear := rounded_nearest (sign a != false) (units a * oneUnits) (d := units b) (by omega) c
  rwa [signed_scaled, ← hunits, ← hsign, ← div_of_finite ha hb hpos.ne'] at hnear

/-- Settles O60: each operation is one rounding of its exact result, and that rounding is nearest. -/
theorem roundsToNearest : Obligations.RoundsToNearest := fun _ _ c ha hb _ =>
  ⟨add_nearest ha hb c, mul_nearest ha hb c, fun hpos => div_nearest ha hb hpos c⟩

end Sys2Proof.F64
end

/-! PROOF. What one command can do to the state, said once (`Effect`), and what follows of it: every step keeps a state good
(10_state.md R40 to R52), and each register has the writers the spec lists (10_state.md R31 to R40). -/

namespace Sys2Proof.Machine

/-! The effect of a command -/

/-- The commands whose whole effect is a value in RESULT (44_control.md R284 to R289). -/
def isQuery : Instr → Bool
  | .cfgr _ | .keyq _ | .pqry _ _ | .pfq _ _ _ => true
  | .nop | .reset | .build | .clrst | .cfgw _ | .setkey _ _ | .next => false
  | .pact _ _ _ | .pvol _ _ | .patk _ _ | .pdec _ _ | .psus _ _ | .prel _ _ => false
  | .pftype _ _ _ _ | .pvrate _ _ _ | .pvint _ _ _ => false

/-- How a command of format P or F rewrites each pipe its pipe operand names (41_envelope.md R182 to R188, 42_filter.md R220 to
R222). -/
def pipeRule (s : State) : Instr → Option (Pipe → Pipe)
  | .pact _ _ b => some fun p => p.modifyEnv (envActivate s.creg b)
  | .pvol _ _ => some fun p => p.modifyEnv (envVolume s.opd)
  | .patk _ _ => some fun p => p.modifyEnv (envSetA s.opd)
  | .pdec _ _ => some fun p => p.modifyEnv (envSetD s.opd)
  | .psus _ _ => some fun p => p.modifyEnv (envSetS s.opd)
  | .prel _ _ => some fun p => p.modifyEnv (envSetR s.opd)
  | .pftype _ sel _ b => some fun p => p.modifySlot sel.toNat fun q => { q with type := FilterType.ofBit b }
  | .pvrate _ sel _ => some fun p => p.modifySlot sel.toNat fun q => { q with lfo := oscFrequency s.creg s.opd q.lfo }
  | .pvint _ sel _ => some fun p => p.modifySlot sel.toNat fun q => { q with intensity := s.opd }
  | .nop | .reset | .build | .clrst | .cfgw _ | .cfgr _ | .setkey _ _ | .next | .keyq _ | .pfq _ _ _ | .pqry _ _ => none

/-- Everything a command can do: `Effect s i t` has a form for each kind of write, with the checks that let it happen. -/
inductive Effect (s : State) : Instr → State → Prop
  | nop : Effect s .nop s
  | reset : Effect s .reset (resetState s)
  /-- only BUILD records CFG, by the form `mismatch` -/
  | failed {i : Instr} {e : ErrorKind} (he : e ≠ .cfg) : Effect s i (s.recordError e)
  | clrst : Effect s .clrst (s.setErrors s.errors.clearNonFatal)
  | mismatch (hphase : s.phase = .config) (hm : configMismatch s.creg = true) :
      Effect s .build ((s.recordError .cfg).setPhase .failed)
  | built (hphase : s.phase = .config) (hm : configMismatch s.creg = false) :
      Effect s .build ((s.setSampleIndex 0).setOrgan (builtOrgan platform s.creg))
  | cfgwF64 {n : BitVec 8} {r : F64Reg} (hr : Creg.ofNumber n = some (.f64 r)) (hphase : s.phase = .config)
      (hv : F64.isFinite s.opd = true) : Effect s (.cfgw n) (s.setCreg (s.creg.setF64 r (r.stored s.opd)))
  | cfgwInt {n : BitVec 8} {r : IntReg} (hr : Creg.ofNumber n = some (.int r)) (hphase : s.phase = .config) :
      Effect s (.cfgw n) (s.setCreg (s.creg.setInt r (r.stored s.opdInt)))
  | query {i : Instr} (hi : isQuery i = true) (v : Word64) : Effect s i (s.setResult v)
  | setkey {o : Organ} (hphase : s.phase = .run o) (k : CodeField) (b : Bool) :
      Effect s (.setkey k b) (s.setOrgan (keyTransition s.creg k b o))
  | next {o : Organ} (hphase : s.phase = .run o) : Effect s .next (nextCommand platform o s)
  | pipes {i : Instr} {o : Organ} {sel : PipeOperand} {g : Pipe → Pipe} (hphase : s.phase = .run o)
      (hsel : pipeOperand? i = some sel) (hrule : pipeRule s i = some g) (hrange : outOfRange i (.run o) = false)
      (hv : readsF64 i = true → F64.isFinite s.opd = true) : Effect s i (s.setOrgan (o.apply sel g))

section
variable {i : Instr} {s t : State}

theorem Effect.of_raise {e : ErrorKind} (he : e ≠ .cfg) (h : raise e s = .next t) : Effect s i t := by
  obtain rfl := Host.Outcome.next.inj h
  exact .failed he

/-- A command of phase RUN has the effect of its body there, and records PHASE elsewhere. -/
theorem Effect.of_inRun {body : Organ → Result} (h : inRun s body = .next t)
    (hbody : ∀ o, s.phase = .run o → body o = .next t → Effect s i t) : Effect s i t := by
  rcases inRun_cases s body with ⟨o, ho, hrun⟩ | ⟨-, hraise⟩
  · exact hbody o ho (hrun ▸ h)
  · exact .of_raise (by decide) (hraise ▸ h)

/-- A command of phase CONFIG has the effect of its body there, and records PHASE elsewhere. -/
theorem Effect.of_inConfig {body : Result} (h : inConfig s body = .next t)
    (hbody : s.phase = .config → body = .next t → Effect s i t) : Effect s i t := by
  rcases inConfig_cases s body with ⟨hc, hrun⟩ | ⟨-, hraise⟩
  · exact hbody hc (hrun ▸ h)
  · exact .of_raise (by decide) (hraise ▸ h)

theorem Effect.of_pipeCommand {idx : CodeField} {all : Bool} {g : Pipe → Pipe} (h : pipeCommand idx all g s = .next t)
    (hrule : pipeRule s i = some g) (hsel : pipeOperand? i = some (pipeOperand idx all)) (hslot : slotOperand? i = none)
    (hreads : readsF64 i = false) : Effect s i t := by
  rcases pipeCommand_cases idx all g s with ⟨o, ho, ha, heq⟩ | ⟨e, heq, he⟩
  · obtain rfl := Host.Outcome.next.inj (heq ▸ h)
    exact .pipes ho hsel hrule (by simp [outOfRange, hsel, hslot, ha]) (by simp [hreads])
  · exact .of_raise (by rcases he with rfl | rfl <;> decide) (heq ▸ h)

theorem Effect.of_pipeValueCommand {idx : CodeField} {all : Bool} {g : F64 → Pipe → Pipe}
    (h : pipeValueCommand idx all g s = .next t) (hrule : pipeRule s i = some (g s.opd))
    (hsel : pipeOperand? i = some (pipeOperand idx all)) (hslot : slotOperand? i = none) : Effect s i t := by
  rcases pipeValueCommand_cases idx all g s with ⟨o, ho, ha, hv, heq⟩ | ⟨e, heq, he⟩
  · obtain rfl := Host.Outcome.next.inj (heq ▸ h)
    exact .pipes ho hsel hrule (by simp [outOfRange, hsel, hslot, ha]) fun _ => hv
  · exact .of_raise (by rcases he with rfl | rfl | rfl <;> decide) (heq ▸ h)

theorem Effect.of_slotCommand {idx : CodeField} {k : BitVec 4} {all : Bool} {g : Slot → Slot}
    (h : slotCommand idx k all g s = .next t) (hrule : pipeRule s i = some fun p => p.modifySlot k.toNat g)
    (hsel : pipeOperand? i = some (pipeOperand idx all)) (hslot : slotOperand? i = some k) (hreads : readsF64 i = false) :
    Effect s i t := by
  rcases slotCommand_cases idx k all g s with ⟨o, ho, ha, hk, heq⟩ | ⟨e, heq, he⟩
  · obtain rfl := Host.Outcome.next.inj (heq ▸ h)
    exact .pipes ho hsel hrule (by simp [outOfRange, hsel, hslot, ha, hk]) (by simp [hreads])
  · exact .of_raise (by rcases he with rfl | rfl <;> decide) (heq ▸ h)

theorem Effect.of_slotValueCommand {idx : CodeField} {k : BitVec 4} {all : Bool} {g : F64 → Slot → Slot}
    (h : slotValueCommand idx k all g s = .next t) (hrule : pipeRule s i = some fun p => p.modifySlot k.toNat (g s.opd))
    (hsel : pipeOperand? i = some (pipeOperand idx all)) (hslot : slotOperand? i = some k) : Effect s i t := by
  rcases slotValueCommand_cases idx k all g s with ⟨o, ho, ha, hk, hv, heq⟩ | ⟨e, heq, he⟩
  · obtain rfl := Host.Outcome.next.inj (heq ▸ h)
    exact .pipes ho hsel hrule (by simp [outOfRange, hsel, hslot, ha, hk]) fun _ => hv
  · exact .of_raise (by rcases he with rfl | rfl | rfl <;> decide) (heq ▸ h)

theorem Effect.of_execBuild (h : execBuild s = .next t) : Effect s .build t := by
  refine .of_inConfig h fun hc hbody => ?_
  obtain rfl := Host.Outcome.next.inj hbody
  unfold buildCommand
  split
  · next hm => exact .mismatch hc hm
  · next hm => exact .built hc (by simpa using hm)

theorem Effect.of_execCfgw {n : BitVec 8} (h : execCfgw n s = .next t) : Effect s (.cfgw n) t := by
  unfold execCfgw at h
  split at h
  · exact .of_raise (by decide) h
  · next r hr =>
    refine .of_inConfig h fun hc hbody => ?_
    cases r with
    | int r =>
      obtain rfl := Host.Outcome.next.inj hbody
      exact .cfgwInt hr hc
    | f64 r =>
      by_cases hv : F64.isFinite s.opd = true
      · obtain rfl := Host.Outcome.next.inj (by simpa only [writeCreg, checkFinite, hv, if_true] using hbody)
        exact .cfgwF64 hr hc hv
      · exact .of_raise (e := .nonfinite) (by decide) (by simpa only [writeCreg, checkFinite, if_neg hv] using hbody)

theorem Effect.of_execCfgr {n : BitVec 8} (h : execCfgr n s = .next t) : Effect s (.cfgr n) t := by
  unfold execCfgr at h
  split at h
  · exact .of_raise (by decide) h
  · obtain rfl := Host.Outcome.next.inj h
    exact .query rfl _

theorem Effect.of_execPqry {k : CodeField} {sel : BitVec 4} (h : execPqry k sel s = .next t) : Effect s (.pqry k sel) t := by
  refine .of_inRun h fun o _ hbody => ?_
  split at hbody
  · exact .of_raise (by decide) hbody
  · obtain rfl := Host.Outcome.next.inj hbody
    exact .query rfl _

theorem Effect.of_execPfq {k : CodeField} {sel sub : BitVec 4} (h : execPfq k sel sub s = .next t) :
    Effect s (.pfq k sel sub) t := by
  unfold execPfq at h
  split at h
  · exact .of_raise (by decide) h
  · refine .of_inRun h fun o _ hbody => ?_
    split at hbody
    · exact .of_raise (by decide) hbody
    · unfold checkSlot at hbody
      split at hbody
      · split at hbody
        · exact .of_raise (by decide) hbody
        · obtain rfl := Host.Outcome.next.inj hbody
          exact .query rfl _
      · exact .of_raise (by decide) hbody

/-- Every command that gives a next state has one of the effects. -/
theorem effect_of_exec (h : exec i s = .next t) : Effect s i t := by
  cases i with
  | nop => obtain rfl := Host.Outcome.next.inj h; exact .nop
  | reset => obtain rfl := Host.Outcome.next.inj h; exact .reset
  | clrst => obtain rfl := Host.Outcome.next.inj h; exact .clrst
  | build => exact .of_execBuild h
  | cfgw n => exact .of_execCfgw h
  | cfgr n => exact .of_execCfgr h
  | setkey k b => exact .of_inRun h fun o ho hbody => by obtain rfl := Host.Outcome.next.inj hbody; exact .setkey ho k b
  | next => exact .of_inRun h fun o ho hbody => by obtain rfl := Host.Outcome.next.inj hbody; exact .next ho
  | keyq k => exact .of_inRun h fun o _ hbody => by obtain rfl := Host.Outcome.next.inj hbody; exact .query rfl _
  | pqry k sel => exact .of_execPqry h
  | pfq k sel sub => exact .of_execPfq h
  | pact k all b => exact .of_pipeCommand h rfl rfl rfl rfl
  | pvol k all => exact .of_pipeValueCommand h rfl rfl rfl
  | patk k all => exact .of_pipeValueCommand h rfl rfl rfl
  | pdec k all => exact .of_pipeValueCommand h rfl rfl rfl
  | psus k all => exact .of_pipeValueCommand h rfl rfl rfl
  | prel k all => exact .of_pipeValueCommand h rfl rfl rfl
  | pftype k sel all b => exact .of_slotCommand h rfl rfl rfl rfl
  | pvrate k sel all => exact .of_slotValueCommand h rfl rfl rfl
  | pvint k sel all => exact .of_slotValueCommand h rfl rfl rfl

/-! Who writes what: each register's writers are read off the forms of `Effect` -/

theorem Effect.opd_eq (h : Effect s i t) (hi : i ≠ .reset) : t.opd = s.opd := by
  cases h with
  | reset => exact absurd rfl hi
  | _ => rfl

theorem Effect.own_fields_eq (h : Effect s i t) : t.pscBlock = s.pscBlock ∧ t.inputs = s.inputs ∧ t.reply = s.reply := by
  cases h <;> exact ⟨rfl, rfl, rfl⟩

theorem Effect.result_writer (h : Effect s i t) (hi : i ≠ .reset) (hw : t.result ≠ s.result) : i = .next ∨ isQuery i = true := by
  cases h with
  | reset => exact absurd rfl hi
  | next => exact .inl rfl
  | query hq => exact .inr hq
  | _ => exact absurd rfl hw

theorem Effect.sampleIndex_writer (h : Effect s i t) (hi : i ≠ .reset) (hw : t.sampleIndex ≠ s.sampleIndex) :
    i = .next ∨ i = .build := by
  cases h with
  | reset => exact absurd rfl hi
  | next => exact .inl rfl
  | built => exact .inr rfl
  | _ => exact absurd rfl hw

theorem Effect.creg_writer (h : Effect s i t) (hi : i ≠ .reset) (hw : t.creg ≠ s.creg) : ∃ r, i = .cfgw r := by
  cases h with
  | reset => exact absurd rfl hi
  | cfgwF64 => exact ⟨_, rfl⟩
  | cfgwInt => exact ⟨_, rfl⟩
  | _ => exact absurd rfl hw

/-- The commands that rewrite the organ stay in RUN. -/
theorem Effect.phase_writer (h : Effect s i t) (hi : i ≠ .reset) (hw : t.phase.code ≠ s.phase.code) : i = .build := by
  cases h with
  | reset => exact absurd rfl hi
  | mismatch => rfl
  | built => rfl
  | setkey hphase => exact absurd (by rw [hphase]; rfl) hw
  | next hphase => exact absurd (by rw [hphase]; rfl) hw
  | pipes hphase => exact absurd (by rw [hphase]; rfl) hw
  | _ => exact absurd rfl hw

theorem isQuery_iff : isQuery i = true ↔
    (∃ r, i = .cfgr r) ∨ (∃ k, i = .keyq k) ∨ (∃ c k, i = .pqry c k) ∨ ∃ c k u, i = .pfq c k u := by
  cases i <;> simp [isQuery]

end

/-- Settles O23: the writers of each register, read off the forms of `Effect`. -/
theorem whoWritesWhat : Obligations.WhoWritesWhat := fun _ _ _ hexec hi =>
  have h := effect_of_exec hexec
  ⟨h.opd_eq hi, fun hw => (h.result_writer hi hw).imp_right isQuery_iff.1, h.sampleIndex_writer hi, h.creg_writer hi,
    h.phase_writer hi, h.own_fields_eq⟩

/-! The error record -/

theorem ErrorsOk.congr {s t : State} (h : ErrorsOk s) (herr : t.errors = s.errors) (hfailed : t.phase = .failed ↔ s.phase = .failed) :
    ErrorsOk t := ⟨by rw [herr]; exact h.empty, by rw [herr]; exact h.first, by rw [herr, hfailed]; exact h.fatal⟩

/-- A record that an error was just added to names a kind whose bit is set (60_exceptions.md R323). -/
theorem ErrorRecord.record_first {r : ErrorRecord} (hfirst : ∀ e, r.firstErr = some e → r.has e = true) (e : ErrorKind) :
    ((r.record e).firstErr = none ↔ ∀ e', (r.record e).has e' = false)
      ∧ ∀ e', (r.record e).firstErr = some e' → (r.record e).has e' = true := by
  simp only [ErrorRecord.firstErr_record, ErrorRecord.has_record]
  refine ⟨⟨fun h => by simp at h, fun h => by simpa using h e⟩, fun e' he' => ?_⟩
  cases hf : r.firstErr with
  | none =>
    obtain rfl : e = e' := by simpa [hf] using he'
    rw [beq_self_eq_true, Bool.or_true]
  | some e1 =>
    have hsame : e1 = e' := by simpa [hf] using he'
    rw [hfirst e' (hsame ▸ hf), Bool.true_or]

theorem ErrorsOk.recordError {s : State} (h : ErrorsOk s) {e : ErrorKind} (he : e ≠ .cfg) : ErrorsOk (s.recordError e) := by
  obtain ⟨hempty, hfirst⟩ := ErrorRecord.record_first h.first e
  have hcfg : (s.errors.record e).eCfg = s.errors.eCfg := by simp [ErrorRecord.record, he]
  exact ⟨hempty, hfirst, by rw [State.recordError_errors, hcfg]; exact h.fatal⟩

/-- A mismatch found by BUILD records CFG and enters FAILED together (43_mixer.md R241). -/
theorem ErrorsOk.mismatch {s : State} (h : ErrorsOk s) : ErrorsOk ((s.recordError .cfg).setPhase .failed) := by
  obtain ⟨hempty, hfirst⟩ := ErrorRecord.record_first h.first .cfg
  exact ⟨hempty, hfirst, by simp [ErrorRecord.record]⟩

theorem ErrorsOk.clrst {s : State} (h : ErrorsOk s) : ErrorsOk (s.setErrors s.errors.clearNonFatal) := by
  refine ⟨?_, ?_, h.fatal⟩
  · simp only [State.setErrors_errors, ErrorRecord.has_clearNonFatal]
    cases hc : s.errors.eCfg <;> simp [ErrorRecord.clearNonFatal, hc]
  · intro e hfirst
    simp only [State.setErrors_errors, ErrorRecord.clearNonFatal] at hfirst ⊢
    split at hfirst
    · next hc => cases hfirst; exact hc
    · cases hfirst

theorem errorsOk_resetState (s : State) : ErrorsOk (resetState s) := by
  refine ⟨⟨fun _ e => ?_, fun _ => rfl⟩, fun e h => ?_, by simp [ErrorRecord.empty]⟩
  · cases e <;> rfl
  · cases h

/-! The good state -/

/-- `StateOk` reads the configuration, the error record and the phase only. -/
theorem StateOk.congr {s t : State} (h : StateOk s) (hcreg : t.creg = s.creg) (herr : t.errors = s.errors)
    (hphase : t.phase = s.phase) : StateOk t :=
  ⟨hcreg ▸ h.creg, h.errors.congr herr (by rw [hphase]), by rw [hcreg, hphase]; exact h.organ⟩

theorem stateOk_resetState (s : State) : StateOk (resetState s) :=
  ⟨cregOk_reset, errorsOk_resetState s, fun _ h => by cases h⟩

/-- Replacing the organ by a good one, outside FAILED. -/
theorem StateOk.setOrgan {s : State} (h : StateOk s) (hphase : s.phase ≠ .failed) {o : Organ} (ho : OrganOk s.creg o) :
    StateOk (s.setOrgan o) :=
  ⟨h.creg, h.errors.congr rfl (by simp [hphase]), fun _ he => by cases he; exact ho⟩

theorem StateOk.recordError {s : State} (h : StateOk s) {e : ErrorKind} (he : e ≠ .cfg) : StateOk (s.recordError e) :=
  ⟨h.creg, h.errors.recordError he, h.organ⟩

theorem StateOk.setCreg {s : State} (h : StateOk s) (hphase : s.phase = .config) {f : CregFile} (hf : CregOk f) :
    StateOk (s.setCreg f) :=
  ⟨hf, h.errors.congr rfl .rfl, fun _ ho => by rw [State.setCreg_phase, hphase] at ho; cases ho⟩

/-- The rule of every pipe and slot command keeps a pipe good: what it stores is activated, clamped or finite. -/
theorem PipeOk.pipeRule {s : State} (hf : CregOk s.creg) {i : Instr} {g : Pipe → Pipe} (hrule : pipeRule s i = some g)
    (hv : readsF64 i = true → F64.isFinite s.opd = true) {n : Nat} {p : Pipe} (hp : PipeOk s.creg n p) :
    PipeOk s.creg n (g p) := by
  have hnan : readsF64 i = true → F64.isNaN s.opd = false := fun hr => F64.isNaN_of_finite (hv hr)
  cases i with
  | pact k all b => cases hrule; exact hp.modifyEnv fun _ he => he.activate hf b
  | pvol k all => cases hrule; exact hp.modifyEnv fun _ he => he.volume (hnan rfl)
  | patk k all => cases hrule; exact hp.modifyEnv fun _ he => { he with attack := within_sixty (hnan rfl) }
  | pdec k all => cases hrule; exact hp.modifyEnv fun _ he => { he with decay := within_sixty (hnan rfl) }
  | psus k all => cases hrule; exact hp.modifyEnv fun _ he => { he with sustain := within_sat01 (hnan rfl) }
  | prel k all => cases hrule; exact hp.modifyEnv fun _ he => { he with release := within_sixty (hnan rfl) }
  | pftype k sel all b => cases hrule; exact hp.modifySlot _ fun _ hq => ⟨hq.intensity, hq.lfo, hq.running⟩
  | pvrate k sel all => cases hrule; exact hp.modifySlot _ fun _ hq => { hq with lfo := hq.lfo.oscFrequency hf (hnan rfl) }
  | pvint k sel all => cases hrule; exact hp.modifySlot _ fun _ hq => { hq with intensity := hv rfl }
  | _ => cases hrule

/-- Every effect of a command keeps a state good. -/
theorem Effect.stateOk {s t : State} {i : Instr} (h : Effect s i t) (hs : StateOk s) : StateOk t := by
  have hrun : ∀ {o}, s.phase = .run o → s.phase ≠ .failed := fun hphase => by simp [hphase]
  cases h with
  | nop => exact hs
  | reset => exact stateOk_resetState s
  | failed he => exact hs.recordError he
  | clrst => exact ⟨hs.creg, hs.errors.clrst, hs.organ⟩
  | mismatch => exact ⟨hs.creg, hs.errors.mismatch, fun _ ho => by cases ho⟩
  | built hphase hm =>
    have hindex : StateOk (s.setSampleIndex 0) := hs.congr rfl rfl rfl
    exact hindex.setOrgan (by simp [hphase]) (OrganOk.built platformOk hs.creg hm)
  | cfgwF64 hr hphase hv => exact hs.setCreg hphase (hs.creg.setF64 _ (F64.isNaN_of_finite hv))
  | cfgwInt hr hphase => exact hs.setCreg hphase (hs.creg.setInt _ _)
  | query => exact hs.congr rfl rfl rfl
  | setkey hphase k b => exact hs.setOrgan (hrun hphase) ((hs.organ _ hphase).keyTransition hs.creg k b)
  | next hphase =>
    exact (hs.setOrgan (hrun hphase) ((hs.organ _ hphase).afterSample platformOk hs.creg)).congr rfl rfl rfl
  | pipes hphase hsel hrule hrange hv =>
    exact hs.setOrgan (hrun hphase) ((hs.organ _ hphase).apply _ fun _ hp => hp.pipeRule hs.creg hrule hv)

/-! The step -/

/-- Everything a step can do: it resets, runs a command, records ILLEGAL for a word that is none, or touches only OPD and the
model's own fields. -/
theorem step_cases {s t : State} (h : step s = .next t) :
    (t.creg = s.creg ∧ t.errors = s.errors ∧ t.phase = s.phase)
    ∨ ∃ rest, t = resetState { s with inputs := rest } ∨ t = State.recordError .illegal { s with inputs := rest }
      ∨ ∃ i, exec i { s with inputs := rest } = .next t := by
  unfold step at h
  split at h
  · obtain rfl := Host.Outcome.next.inj h
    exact .inl ⟨rfl, rfl, rfl⟩
  · next input rest _ =>
    cases input with
    | hardwareReset => exact .inr ⟨rest, .inl (Host.Outcome.next.inj h).symm⟩
    | read addr bytes =>
      simp only [deliver] at h
      split at h
      · cases h
      · obtain rfl := Host.Outcome.next.inj h
        exact .inl ⟨rfl, rfl, rfl⟩
    | write addr bytes data =>
      simp only [deliver] at h
      split at h
      · cases h
      · next word _ =>
        cases word with
        | cmd =>
          simp only [State.windowWrite, executeCommand] at h
          split at h
          · exact .inr ⟨rest, .inr (.inl (Host.Outcome.next.inj h).symm)⟩
          · next i _ => exact .inr ⟨rest, .inr (.inr ⟨i, h⟩)⟩
        | _ =>
          obtain rfl := Host.Outcome.next.inj h
          exact .inl ⟨rfl, rfl, rfl⟩

/-- Settles O13: a step is one effect of a command, or leaves what `StateOk` reads alone. -/
theorem stepKeepsStateOk : Obligations.StepKeepsStateOk := by
  intro s t hs hstep
  rcases step_cases hstep with ⟨hcreg, herr, hphase⟩ | ⟨rest, hcommand⟩
  · exact hs.congr hcreg herr hphase
  · have hs' : StateOk { s with inputs := rest } := hs.congr rfl rfl rfl
    rcases hcommand with rfl | rfl | ⟨i, hexec⟩
    · exact stateOk_resetState _
    · exact hs'.recordError (by decide)
    · exact (effect_of_exec hexec).stateOk hs'

/-- Settles O12: reset is good, and it has no organ to account for. -/
theorem resetIsGood : Obligations.ResetIsGood := ⟨stateOk_resetState State.reset, fun _ h => by cases h⟩

/-- Settles O15: what the pressed keys add up to is a number of eighths, and the accounting makes it the accumulator's value. -/
theorem accumulatorsAreEighths : Obligations.AccumulatorsAreEighths := by
  intro s o c p hs hacc ho hp
  obtain ⟨-, hsign, hvalue⟩ := hacc o ho c p hp
  obtain ⟨n, hn, hshare⟩ := pressedShare_eighths hs.creg (hs.organ o ho) c
  exact ⟨n, hn, hvalue.trans hshare, hsign⟩

/-! STATUS -/

theorem bitAt_eq (k : Nat) (b : Bool) : bitAt k b = b.toNat * 2 ^ k := by cases b <;> simp [bitAt]

theorem Phase.code_lt (p : Phase) : p.code < 3 := by cases p <;> simp [Phase.code]

theorem ErrorRecord.firstErrCode_lt (r : ErrorRecord) : r.firstErrCode < 6 := by
  unfold ErrorRecord.firstErrCode
  split
  · omega
  · next e _ => cases e <;> simp [ErrorKind.code]

theorem ErrorRecord.bits_le_one (r : ErrorRecord) : r.eIllegal.toNat ≤ 1 ∧ r.ePhase.toNat ≤ 1 ∧ r.eRange.toNat ≤ 1
    ∧ r.eNonfinite.toNat ≤ 1 ∧ r.eCfg.toNat ≤ 1 :=
  ⟨Bool.toNat_le _, Bool.toNat_le _, Bool.toNat_le _, Bool.toNat_le _, Bool.toNat_le _⟩

/-- STATUS as a number: no field overflows into the next. -/
theorem State.status_toNat (s : State) :
    s.status.toNat = s.phase.code + s.errors.eIllegal.toNat * 2 ^ 8 + s.errors.ePhase.toNat * 2 ^ 9
      + s.errors.eRange.toNat * 2 ^ 10 + s.errors.eNonfinite.toNat * 2 ^ 11 + s.errors.eCfg.toNat * 2 ^ 12
      + s.errors.firstErrCode * 2 ^ 16 := by
  have hp := s.phase.code_lt
  have hf := s.errors.firstErrCode_lt
  have hbits := s.errors.bits_le_one
  simp only [State.status, bitAt_eq, BitVec.toNat_ofNat]
  omega

theorem getLsbD_eq_of_toNat {w n : Nat} {x : BitVec w} {b : Bool} (h : x.toNat / 2 ^ n % 2 = b.toNat) : x.getLsbD n = b := by
  rw [BitVec.getLsbD, Nat.testBit_eq_decide_div_mod_eq, h]
  cases b <;> rfl

/-- Settles O21: each field is a quotient and a remainder of the number STATUS is. -/
theorem statusLayout : Obligations.StatusLayout := by
  intro s
  have hN := s.status_toNat
  have hp := s.phase.code_lt
  have hf := s.errors.firstErrCode_lt
  have hbits := s.errors.bits_le_one
  refine ⟨?_, getLsbD_eq_of_toNat ?_, getLsbD_eq_of_toNat ?_, getLsbD_eq_of_toNat ?_, getLsbD_eq_of_toNat ?_,
    getLsbD_eq_of_toNat ?_, ?_, ?_⟩
  case refine_1 =>
    have hfield : (s.status.extractLsb' 0 2).toNat = s.phase.code := by
      rw [BitVec.extractLsb'_toNat, Nat.shiftRight_eq_div_pow]; omega
    rw [hfield]; cases s.phase <;> rfl
  case refine_7 =>
    have hfield : (s.status.extractLsb' 16 8).toNat = s.errors.firstErrCode := by
      rw [BitVec.extractLsb'_toNat, Nat.shiftRight_eq_div_pow]; omega
    rw [hfield, ErrorRecord.firstErrCode]
    cases s.errors.firstErr with
    | none => rfl
    | some e => cases e <;> rfl
  case refine_8 =>
    intro n hn
    by_cases h32 : 32 ≤ n
    · exact BitVec.getLsbD_of_ge _ _ h32
    · apply getLsbD_eq_of_toNat
      rw [Bool.toNat_false]
      interval_cases n <;> omega
  all_goals omega

/-! The configuration registers -/

/-- A number below 0x30 names a register, which has that number; no other number names one (10_state.md R40). -/
theorem Creg.number_ofNumber : ∀ n : BitVec 8, (Creg.ofNumber n).map Creg.number = if n.toNat < 0x30 then some n else none := by
  decide +kernel

theorem Creg.ofNumber_drawbar : ∀ i : Fin 16, Creg.ofNumber (BitVec.ofNat 8 (0x10 + i.val)) = some (.int (.drawbar i)) := by
  decide

theorem Creg.ofNumber_offset : ∀ i : Fin 16, Creg.ofNumber (BitVec.ofNat 8 (0x20 + i.val)) = some (.int (.offset i)) := by
  decide

theorem Creg.ofNumber_number (r : Creg) : Creg.ofNumber r.number = some r := by
  match r with
  | .int (.drawbar i) => exact Creg.ofNumber_drawbar i
  | .int (.offset i) => exact Creg.ofNumber_offset i
  | .f64 r => cases r <;> rfl
  | .int .ndraw | .int .nratio | .int .pipeLo | .int .pipeHi | .int .envDecayPoll | .int .filterSlots => rfl

theorem Creg.exists_number_iff (n : BitVec 8) : (∃ r, Creg.ofNumber n = some r ∧ r.number = n) ↔ n.toNat < 0x30 := by
  have h := Creg.number_ofNumber n
  by_cases hn : n.toNat < 0x30
  · rw [if_pos hn, Option.map_eq_some_iff] at h
    exact iff_of_true h hn
  · rw [if_neg hn, Option.map_eq_none_iff] at h
    simp [h, hn]

/-- Settles O30: the single registers compute; the two banks and the numbers have lemmas of their own. -/
theorem registerNumbers : Obligations.RegisterNumbers := by
  refine ⟨?_, ?_, ?_, ?_, ?_, ?_, ?_, ?_, ?_, ?_, ?_, ?_, ?_, ?_, ?_, ?_,
    fun i => ⟨Creg.ofNumber_drawbar i, rfl, rfl, fun _ => rfl⟩, fun i => ⟨Creg.ofNumber_offset i, rfl, rfl, fun _ => rfl⟩,
    Creg.ofNumber_number, Creg.exists_number_iff⟩
  all_goals exact ⟨rfl, rfl, rfl, fun _ => rfl⟩

end Sys2Proof.Machine

/-! PROOF. The register window (20_memory.md R80 to R95): which accesses reach a word, what a step does with a read and with a
write, and that the bus refuses nothing else because every command completes. -/

namespace Sys2Proof.Machine

/-! Every command completes (60_exceptions.md R320) -/

theorem inRun_completes {s : State} {body : Organ → Result} (h : ∀ o, ∃ t, body o = .next t) : ∃ t, inRun s body = .next t := by
  rcases inRun_cases s body with ⟨o, -, hrun⟩ | ⟨-, hraise⟩
  · rw [hrun]; exact h o
  · exact ⟨_, hraise⟩

theorem inConfig_completes {s : State} {body : Result} (h : ∃ t, body = .next t) : ∃ t, inConfig s body = .next t := by
  rcases inConfig_cases s body with ⟨-, hconfig⟩ | ⟨-, hraise⟩
  · rw [hconfig]; exact h
  · exact ⟨_, hraise⟩

theorem pipeCommand_completes (idx : CodeField) (all : Bool) (f : Pipe → Pipe) (s : State) :
    ∃ t, pipeCommand idx all f s = .next t := by
  rcases pipeCommand_cases idx all f s with ⟨_, _, _, h⟩ | ⟨_, h, _⟩ <;> exact ⟨_, h⟩

theorem pipeValueCommand_completes (idx : CodeField) (all : Bool) (f : F64 → Pipe → Pipe) (s : State) :
    ∃ t, pipeValueCommand idx all f s = .next t := by
  rcases pipeValueCommand_cases idx all f s with ⟨_, _, _, _, h⟩ | ⟨_, h, _⟩ <;> exact ⟨_, h⟩

theorem slotCommand_completes (idx : CodeField) (k : BitVec 4) (all : Bool) (f : Slot → Slot) (s : State) :
    ∃ t, slotCommand idx k all f s = .next t := by
  rcases slotCommand_cases idx k all f s with ⟨_, _, _, _, h⟩ | ⟨_, h, _⟩ <;> exact ⟨_, h⟩

theorem slotValueCommand_completes (idx : CodeField) (k : BitVec 4) (all : Bool) (f : F64 → Slot → Slot) (s : State) :
    ∃ t, slotValueCommand idx k all f s = .next t := by
  rcases slotValueCommand_cases idx k all f s with ⟨_, _, _, _, _, h⟩ | ⟨_, h, _⟩ <;> exact ⟨_, h⟩

theorem writeCreg_completes (s : State) (r : Creg) : ∃ t, writeCreg s r = .next t := by
  cases r with
  | int r => exact ⟨_, rfl⟩
  | f64 r =>
    simp only [writeCreg, checkFinite]
    split <;> exact ⟨_, rfl⟩

theorem execCfgw_completes (n : BitVec 8) (s : State) : ∃ t, execCfgw n s = .next t := by
  unfold execCfgw
  split
  · exact ⟨_, rfl⟩
  · exact inConfig_completes (writeCreg_completes s _)

theorem execCfgr_completes (n : BitVec 8) (s : State) : ∃ t, execCfgr n s = .next t := by
  unfold execCfgr; split <;> exact ⟨_, rfl⟩

theorem execPqry_completes (k : CodeField) (sel : BitVec 4) (s : State) : ∃ t, execPqry k sel s = .next t :=
  inRun_completes fun o => by split <;> exact ⟨_, rfl⟩

theorem execPfq_completes (k : CodeField) (sel sub : BitVec 4) (s : State) : ∃ t, execPfq k sel sub s = .next t := by
  unfold execPfq
  split
  · exact ⟨_, rfl⟩
  · refine inRun_completes fun o => ?_
    split
    · exact ⟨_, rfl⟩
    · unfold checkSlot
      split
      · split <;> exact ⟨_, rfl⟩
      · exact ⟨_, rfl⟩

theorem exec_completes (i : Instr) (s : State) : ∃ t, exec i s = .next t := by
  cases i with
  | nop | reset | clrst => exact ⟨_, rfl⟩
  | build => exact inConfig_completes ⟨_, rfl⟩
  | cfgw n => exact execCfgw_completes n s
  | cfgr n => exact execCfgr_completes n s
  | setkey | next | keyq => exact inRun_completes fun _ => ⟨_, rfl⟩
  | pqry k sel => exact execPqry_completes k sel s
  | pfq k sel sub => exact execPfq_completes k sel sub s
  | pact => exact pipeCommand_completes _ _ _ s
  | pvol | patk | pdec | psus | prel => exact pipeValueCommand_completes _ _ _ s
  | pftype => exact slotCommand_completes _ _ _ _ s
  | pvrate | pvint => exact slotValueCommand_completes _ _ _ _ s

theorem executeCommand_completes (w : Word) (s : State) : ∃ t, executeCommand w s = .next t := by
  unfold executeCommand
  split
  · exact ⟨_, rfl⟩
  · exact exec_completes _ s

/-! Admitted accesses -/

/-- The places of the window are those `State.admitted` tests for (20_memory.md R81, R86). -/
theorem State.inWindow_iff (s : State) (addr : Nat) :
    (s.pscBase ≤ addr ∧ addr < s.pscBase + 0x40 ∧ (addr - s.pscBase) % 4 = 0) ↔ ∃ k < 16, addr = s.pscBase + 4 * k := by
  constructor
  · rintro ⟨hlo, hhi, hmod⟩
    exact ⟨(addr - s.pscBase) / 4, by omega, by omega⟩
  · rintro ⟨k, hk, rfl⟩
    omega

theorem State.admitted_eq_none_iff (s : State) (addr bytes : Nat) :
    s.admitted addr bytes = none ↔ ¬(bytes = 4 ∧ ∃ k < 16, addr = s.pscBase + 4 * k) := by
  rw [← s.inWindow_iff, State.admitted, ite_eq_right_iff]
  simp

@[simp] theorem State.admitted_word (s : State) {k : Nat} (hk : k < 16) :
    s.admitted (s.pscBase + 4 * k) 4 = some (WindowWord.ofIndex k) := by
  have hplace := s.inWindow_iff _ |>.2 ⟨k, hk, rfl⟩
  rw [State.admitted, if_pos ⟨rfl, hplace⟩, show (s.pscBase + 4 * k - s.pscBase) / 4 = k by omega]

/-- Which accesses are admitted does not depend on what the host has still to send. -/
@[simp] theorem State.admitted_inputs (s : State) (rest : List HostInput) (addr bytes : Nat) :
    State.admitted { s with inputs := rest } addr bytes = s.admitted addr bytes := rfl

/-! The step, by the input the bus delivers -/

section
variable {s : State} {rest : List HostInput} {addr bytes data : Nat} {word : WindowWord}

theorem step_of_nil (h : s.inputs = []) : step s = .next s := by
  rw [step, h]

theorem step_of_cons {input : HostInput} (h : s.inputs = input :: rest) : step s = deliver input { s with inputs := rest } := by
  rw [step, h]

theorem step_of_read (h : s.inputs = .read addr bytes :: rest) (hword : s.admitted addr bytes = some word) :
    step s = .next { s with inputs := rest, reply := some (s.windowRead word) } := by
  rw [step_of_cons h, deliver, State.admitted_inputs, hword]
  cases word <;> rfl

theorem step_of_write (h : s.inputs = .write addr bytes data :: rest) (hword : s.admitted addr bytes = some word) :
    step s = State.windowWrite { s with inputs := rest } word (BitVec.ofNat 32 data) := by
  rw [step_of_cons h, deliver, State.admitted_inputs, hword]

theorem step_of_unadmitted_read (h : s.inputs = .read addr bytes :: rest) (hword : s.admitted addr bytes = none) :
    step s = .refused .accessNotAdmitted := by
  rw [step_of_cons h, deliver, State.admitted_inputs, hword]

theorem step_of_unadmitted_write (h : s.inputs = .write addr bytes data :: rest) (hword : s.admitted addr bytes = none) :
    step s = .refused .accessNotAdmitted := by
  rw [step_of_cons h, deliver, State.admitted_inputs, hword]

/-- CMD is the window word 2 (20_memory.md R83). -/
theorem step_of_cmdWrite (h : s.inputs = .write s.cmdAddress 4 data :: rest) :
    step s = executeCommand (BitVec.ofNat 32 data) { s with inputs := rest } :=
  step_of_write h (s.admitted_word (k := 2) (by decide))

end

theorem State.windowWrite_completes (s : State) (word : WindowWord) (data : Word) : ∃ t, s.windowWrite word data = .next t := by
  cases word with
  | cmd => exact executeCommand_completes data s
  | _ => exact ⟨_, rfl⟩

/-- Settles O8: the bus refuses where `State.admitted` gives no word, and an admitted access, a hardware reset and an idle step
all give a next state. -/
theorem onlyUnadmittedAccessesRefused : Obligations.OnlyUnadmittedAccessesRefused := by
  intro s admitted unadmitted
  constructor
  · rintro ⟨rest, ⟨addr, bytes, hin, hno⟩ | ⟨addr, bytes, data, hin, hno⟩⟩
    · exact step_of_unadmitted_read hin ((s.admitted_eq_none_iff addr bytes).2 hno)
    · exact step_of_unadmitted_write hin ((s.admitted_eq_none_iff addr bytes).2 hno)
  · intro hadm
    match hin : s.inputs with
    | [] => exact ⟨s, step_of_nil hin⟩
    | .hardwareReset :: rest => exact ⟨_, step_of_cons hin⟩
    | .read addr bytes :: rest =>
      cases hword : s.admitted addr bytes with
      | none => exact absurd ⟨rest, .inl ⟨addr, bytes, hin, (s.admitted_eq_none_iff addr bytes).1 hword⟩⟩ hadm
      | some word => exact ⟨_, step_of_read hin hword⟩
    | .write addr bytes data :: rest =>
      cases hword : s.admitted addr bytes with
      | none => exact absurd ⟨rest, .inr ⟨addr, bytes, data, hin, (s.admitted_eq_none_iff addr bytes).1 hword⟩⟩ hadm
      | some word => rw [step_of_write hin hword]; exact State.windowWrite_completes _ word _

/-! Commands -/

theorem executeCommand_of_decode {w : Word} {i : Instr} (h : decode w = .ok i) (s : State) : executeCommand w s = exec i s := by
  rw [executeCommand, h]

theorem decode_of_decodeTableWord {nbits w : Nat} {i : Instr} (h : decodeTableWord nbits w = some i) :
    decode (BitVec.ofNat 32 (w % 2 ^ nbits)) = .ok i := by
  unfold decodeTableWord at h
  split at h
  · next hw => rw [hw, Option.some.inj h]
  · cases h

/-- The step after `withFetchWord` runs the word it placed, on the state it started from. -/
theorem step_withFetchWord (s : State) (nbits w : Nat) :
    step (s.withFetchWord nbits w) = executeCommand (BitVec.ofNat 32 (w % 2 ^ nbits)) s := by
  have hstep : step (s.withFetchWord nbits w) = executeCommand (BitVec.ofNat 32 (BitVec.ofNat 32 (w % 2 ^ nbits)).toNat) s :=
    step_of_cmdWrite (s := s.withFetchWord nbits w) rfl
  rw [hstep, BitVec.ofNat_toNat, BitVec.setWidth_eq]

/-- Settles O5: a write to CMD is the execution of its word, and the word decodes. -/
theorem stepRunsTheCommand : Obligations.StepRunsTheCommand := by
  refine ⟨fun s data rest i hin hdecode => ?_, fun s nbits w i htable => ?_, fun s => step_of_nil⟩
  · rw [step_of_cmdWrite hin, executeCommand_of_decode hdecode]
  · rw [step_withFetchWord, executeCommand_of_decode (decode_of_decodeTableWord htable)]

/-! Reads and writes of the window words -/

theorem State.windowRead_ofIndex (s : State) {k : Nat} (hk : k < 16) :
    s.windowRead (WindowWord.ofIndex k)
      = ([s.opd.extractLsb' 0 32, s.opd.extractLsb' 32 32, 0, s.status, s.result.extractLsb' 0 32, s.result.extractLsb' 32 32,
          s.sampleIndex.extractLsb' 0 32, s.sampleIndex.extractLsb' 32 32, 0x50534307] : List Word).getD k 0 := by
  interval_cases k <;> rfl

/-- Every word but CMD, which is word 2. -/
theorem State.windowWrite_ofIndex (s : State) {k : Nat} (hk : k < 16) (hcmd : k ≠ 2) (data : Word) :
    s.windowWrite (WindowWord.ofIndex k) data = .next { s with
      opd := if k = 0 then highWord s.opd ++ data else if k = 1 then data ++ lowWord s.opd else s.opd } := by
  interval_cases k
  · rfl
  · rfl
  · exact absurd rfl hcmd
  all_goals rfl

/-- Settles O6: the read reaches word k, and each word returns its entry of the list. -/
theorem windowReads : Obligations.WindowReads := by
  intro s k rest hk hin
  rw [step_of_read hin (s.admitted_word hk), s.windowRead_ofIndex hk]

/-- Settles O7: the write reaches word k, which is not CMD. -/
theorem windowWrites : Obligations.WindowWrites := by
  intro s k data rest hk hcmd hin
  rw [step_of_write hin (s.admitted_word hk), State.windowWrite_ofIndex _ hk hcmd, BitVec.ofNat_toNat, BitVec.setWidth_eq]
  rfl

theorem lowWord_append (high low : Word) : lowWord (high ++ low) = low := BitVec.extractLsb'_append_eq_right

theorem highWord_append_lowWord (v : Word64) : (highWord v ++ lowWord v : Word64) = v :=
  (BitVec.extractLsb'_append_extractLsb'_eq_extractLsb' rfl).trans BitVec.extractLsb'_eq_self

/-- Settles O9: the first write fills the low half, which the second, to the high half, keeps. -/
theorem operandLoads : Obligations.OperandLoads := by
  intro s v rest hin
  refine ⟨_, windowWrites s 0 (lowWord v) _ (by decide) (by decide) hin, ?_⟩
  calc step { s with inputs := .write (s.pscBase + 4) 4 (highWord v).toNat :: rest, opd := highWord s.opd ++ lowWord v }
    _ = .next { s with inputs := rest, opd := highWord v ++ lowWord (highWord s.opd ++ lowWord v) } :=
        windowWrites _ 1 (highWord v) rest (by decide) (by decide) rfl
    _ = .next { s with inputs := rest, opd := v } := by rw [lowWord_append, highWord_append_lowWord]

end Sys2Proof.Machine

/-! PROOF. The decoder and the encoder (30_encoding.md R110 to R125, R133): they are inverse to each other on the well-formed
commands, and the words that decode to none are those R124 lists. -/

namespace Sys2Proof

/-! What Decode answers (30_encoding.md R122) -/

theorem checkFields_of_wellFormed {i : Instr} (h : i.wellFormed = true) : checkFields i = .ok i := by
  cases i with
  | cfgw | cfgr | pfq => exact if_pos h
  | _ => rfl

theorem checkFields_of_not_wellFormed {i : Instr} (h : i.wellFormed = false) : ∃ e, checkFields i = .error e := by
  cases i with
  | cfgw | cfgr | pfq => exact ⟨_, if_neg (by simpa [Instr.wellFormed] using h)⟩
  | _ => cases h

/-- A word decodes to a command exactly when it has a defined opcode, passes its MASK test and holds defined fields. -/
theorem decode_eq_ok_iff (w : Word) (i : Instr) : decode w = .ok i ↔
    ∃ op, Opcode.ofNumber (opField w) = some op ∧ w &&& op.mask = op.matchWord ∧ op.assemble w = i ∧ i.wellFormed = true := by
  unfold decode
  cases Opcode.ofNumber (opField w) with
  | none => simp
  | some op =>
    by_cases hmask : w &&& op.mask = op.matchWord
    · simp only [if_pos hmask, Option.some.injEq, exists_eq_left']
      cases hwf : (op.assemble w).wellFormed with
      | true =>
        rw [checkFields_of_wellFormed hwf, Except.ok.injEq]
        exact ⟨fun hi => ⟨hmask, hi, hi ▸ hwf⟩, fun ⟨_, hi, _⟩ => hi⟩
      | false =>
        obtain ⟨e, he⟩ := checkFields_of_not_wellFormed hwf
        rw [he]
        exact ⟨nofun, fun ⟨_, hi, hi'⟩ => absurd (hi ▸ hi') (by simp [hwf])⟩
    · simp [hmask]

theorem decode_eq_error_iff (w : Word) : (∃ e, decode w = .error e) ↔
    Opcode.ofNumber (opField w) = none ∨ ∃ op, Opcode.ofNumber (opField w) = some op
      ∧ (w &&& op.mask ≠ op.matchWord ∨ (op.assemble w).wellFormed = false) := by
  unfold decode
  cases Opcode.ofNumber (opField w) with
  | none => simp
  | some op =>
    by_cases hmask : w &&& op.mask = op.matchWord
    · cases hwf : (op.assemble w).wellFormed with
      | true => simp [hmask, checkFields_of_wellFormed hwf, hwf]
      | false => simpa [hmask, hwf] using checkFields_of_not_wellFormed hwf
    · simp [hmask]

/-! Decoding an encoded command -/

theorem encodingMask (i : Instr) : encode i &&& i.opcode.mask = i.opcode.matchWord := by
  cases i with
  | nop => exact Laws.EncodingMask.nop
  | reset => exact Laws.EncodingMask.reset
  | build => exact Laws.EncodingMask.build
  | clrst => exact Laws.EncodingMask.clrst
  | cfgw creg => exact Laws.EncodingMask.cfgw creg
  | cfgr creg => exact Laws.EncodingMask.cfgr creg
  | setkey idx b => exact Laws.EncodingMask.setkey idx b
  | next => exact Laws.EncodingMask.next
  | keyq idx => exact Laws.EncodingMask.keyq idx
  | pact idx all b => exact Laws.EncodingMask.pact idx all b
  | pvol idx all => exact Laws.EncodingMask.pvol idx all
  | patk idx all => exact Laws.EncodingMask.patk idx all
  | pdec idx all => exact Laws.EncodingMask.pdec idx all
  | psus idx all => exact Laws.EncodingMask.psus idx all
  | prel idx all => exact Laws.EncodingMask.prel idx all
  | pftype idx sel all b => exact Laws.EncodingMask.pftype idx sel all b
  | pvrate idx sel all => exact Laws.EncodingMask.pvrate idx sel all
  | pvint idx sel all => exact Laws.EncodingMask.pvint idx sel all
  | pfq idx sel sub => exact Laws.EncodingMask.pfq idx sel sub
  | pqry idx sel => exact Laws.EncodingMask.pqry idx sel

/-- Every format is the widest one with some fields 0. -/
theorem exists_encode_eq_formatF (i : Instr) : ∃ idx sel sub all b, encode i = formatF i.opcode idx sel sub all b := by
  cases i with
  | nop | reset | build | clrst | next => exact ⟨_, _, _, _, _, formatN_eq _⟩
  | cfgw | cfgr => exact ⟨_, _, _, _, _, formatC_eq _ _⟩
  | setkey | keyq => exact ⟨_, _, _, _, _, formatK_eq _ _ _⟩
  | pact | pvol | patk | pdec | psus | prel | pqry => exact ⟨_, _, _, _, _, formatP_eq _ _ _ _ _⟩
  | pftype | pvrate | pvint | pfq => exact ⟨_, _, _, _, _, rfl⟩

theorem opField_encode (i : Instr) : opField (encode i) = i.opcode.number := by
  obtain ⟨idx, sel, sub, all, b, h⟩ := exists_encode_eq_formatF i
  rw [h, opField_formatF]

/-- The fields of an encoded command are its operands. -/
theorem assemble_encode (i : Instr) : i.opcode.assemble (encode i) = i := by
  cases i with
  | nop | reset | build | clrst | next => rfl
  | cfgw | cfgr => simp [Instr.opcode, Opcode.assemble, encode]
  | setkey | keyq => simp [Instr.opcode, Opcode.assemble, encode, formatK_eq]
  | pact | pvol | patk | pdec | psus | prel | pqry => simp [Instr.opcode, Opcode.assemble, encode, formatP_eq]
  | pftype | pvrate | pvint | pfq => simp [Instr.opcode, Opcode.assemble, encode]

/-- Settles O1: the opcode, the MASK test, the fields and their checks all answer for the encoded command. -/
theorem decodeEncode : Obligations.DecodeEncode := fun i hwf =>
  (decode_eq_ok_iff _ _).2
    ⟨i.opcode, by rw [opField_encode, ofNumber_number], encodingMask i, assemble_encode i, hwf⟩

/-! Encoding a decoded word: a field that the MASK covers is 0 -/

theorem idxField_and (v w : Word) : idxField (v &&& w) = idxField v &&& idxField w := BitVec.extractLsb'_and
theorem selField_and (v w : Word) : selField (v &&& w) = selField v &&& selField w := BitVec.extractLsb'_and
theorem subField_and (v w : Word) : subField (v &&& w) = subField v &&& subField w := BitVec.extractLsb'_and
theorem allField_and (v w : Word) : allField (v &&& w) = (allField v && allField w) := BitVec.getLsbD_and
theorem bField_and (v w : Word) : bField (v &&& w) = (bField v && bField w) := BitVec.getLsbD_and

section
variable {op : Opcode} {w : Word} (h : w &&& op.mask = op.matchWord)
include h

theorem idxField_and_mask : idxField w &&& idxField op.mask = 0 := by
  rw [← idxField_and, h, matchWord_eq, idxField_formatF]

theorem idxField_eq_zero (hm : idxField op.mask = BitVec.allOnes 10) : idxField w = 0 := by
  rw [← idxField_and_mask h, hm, BitVec.and_allOnes]

theorem selField_eq_zero (hm : selField op.mask = BitVec.allOnes 4) : selField w = 0 := by
  rw [← BitVec.and_allOnes (x := selField w), ← hm, ← selField_and, h, matchWord_eq, selField_formatF]

theorem subField_eq_zero (hm : subField op.mask = BitVec.allOnes 4) : subField w = 0 := by
  rw [← BitVec.and_allOnes (x := subField w), ← hm, ← subField_and, h, matchWord_eq, subField_formatF]

theorem allField_eq_false (hm : allField op.mask = true) : allField w = false := by
  rw [← Bool.and_true (allField w), ← hm, ← allField_and, h, matchWord_eq, allField_formatF]

theorem bField_eq_false (hm : bField op.mask = true) : bField w = false := by
  rw [← Bool.and_true (bField w), ← hm, ← bField_and, h, matchWord_eq, bField_formatF]

/-- Bits 7:2 must be zero in every format (30_encoding.md R112). -/
theorem reserved_eq_false (j : Nat) (h2 : 2 ≤ j) (h8 : j < 8) : w.getLsbD j = false := by
  have hmask : op.mask.getLsbD j = true := by cases op <;> interval_cases j <;> rfl
  have hbit := congrArg (fun x : Word => x.getLsbD j) h
  simp only [matchWord_eq, getLsbD_formatF _ _ _ _ _ _ j (by omega), BitVec.getLsbD_and, hmask, Bool.and_true] at hbit
  rw [hbit, if_neg (by omega), if_neg (by omega), if_pos h8]

end

/-- In format C the two bits above CREG must be zero, so that CREG is the whole of IDX. -/
theorem append_cregField {w : Word} (h : idxField w &&& 0x300 = 0) : (0 : BitVec 2) ++ cregField w = idxField w := by
  rw [idxField_creg]
  generalize idxField w = idx at h
  revert idx
  decide +kernel

/-- A word that passes the MASK test of its opcode is the encoding of that opcode with the word's fields. -/
theorem encode_assemble {op : Opcode} {w : Word} (hop : opField w = op.number) (h : w &&& op.mask = op.matchWord) :
    encode (op.assemble w) = w := by
  have hfields := formatF_fields op w hop (reserved_eq_false h)
  cases op with
  | nop | reset | build | clrst | next =>
    rw [idxField_eq_zero h rfl, selField_eq_zero h rfl, subField_eq_zero h rfl, allField_eq_false h rfl,
      bField_eq_false h rfl] at hfields
    exact (formatN_eq _).trans hfields
  | cfgw | cfgr =>
    rw [← append_cregField (idxField_and_mask h), selField_eq_zero h rfl, subField_eq_zero h rfl, allField_eq_false h rfl,
      bField_eq_false h rfl] at hfields
    exact (formatC_eq _ _).trans hfields
  | setkey =>
    rw [selField_eq_zero h rfl, subField_eq_zero h rfl, allField_eq_false h rfl] at hfields
    exact (formatK_eq _ _ _).trans hfields
  | keyq =>
    rw [selField_eq_zero h rfl, subField_eq_zero h rfl, allField_eq_false h rfl, bField_eq_false h rfl] at hfields
    exact (formatK_eq _ _ _).trans hfields
  | pact =>
    rwa [selField_eq_zero h rfl, subField_eq_zero h rfl] at hfields
  | pvol | patk | pdec | psus | prel =>
    rwa [selField_eq_zero h rfl, subField_eq_zero h rfl, bField_eq_false h rfl] at hfields
  | pqry =>
    rwa [subField_eq_zero h rfl, allField_eq_false h rfl, bField_eq_false h rfl] at hfields
  | pftype =>
    rwa [subField_eq_zero h rfl] at hfields
  | pvrate | pvint =>
    rwa [subField_eq_zero h rfl, bField_eq_false h rfl] at hfields
  | pfq =>
    rwa [allField_eq_false h rfl, bField_eq_false h rfl] at hfields

/-- Settles O2: the MASK test and the fields give every bit of the word back. -/
theorem encodeDecode : Obligations.EncodeDecode := by
  intro w i hdecode
  obtain ⟨op, hop, hmask, rfl, hwf⟩ := (decode_eq_ok_iff w i).1 hdecode
  exact ⟨hwf, encode_assemble (number_of_ofNumber hop).symm hmask⟩

/-! Illegal words (30_encoding.md R124) -/

/-- The undefined OP values. -/
theorem ofNumber_eq_none_iff : ∀ n : BitVec 6, Opcode.ofNumber n = none ↔
    n.toNat ∈ [0x06, 0x07, 0x0B, 0x0C, 0x0D, 0x0E, 0x0F, 0x16, 0x17, 0x1B, 0x1C, 0x1D] ∨ 0x20 ≤ n.toNat := by
  decide

theorem ofNumber_eq_some_iff (n : BitVec 6) (op : Opcode) : Opcode.ofNumber n = some op ↔ op.number.toNat = n.toNat := by
  rw [BitVec.toNat_inj]
  exact ⟨number_of_ofNumber, fun h => h ▸ ofNumber_number op⟩

/-- The opcodes in the order of their numbers, as 30_encoding.md R123 lists their MASKs. -/
def Opcode.table : List Opcode :=
  [.nop, .reset, .build, .clrst, .cfgw, .cfgr, .setkey, .next, .keyq, .pact, .pvol, .patk, .pdec, .psus, .prel, .pftype, .pvrate,
    .pvint, .pfq, .pqry]

theorem Opcode.mem_table (op : Opcode) : op ∈ Opcode.table := by cases op <;> decide

theorem maskTest_iff_toNat (op : Opcode) (w : Word) :
    w &&& op.mask = op.matchWord ↔ w.toNat &&& op.mask.toNat = op.number.toNat * 2 ^ 26 := by
  have hmatch : op.matchWord.toNat = op.number.toNat * 2 ^ 26 := by cases op <;> rfl
  rw [← BitVec.toNat_inj, BitVec.toNat_and, hmatch]

/-- A word whose opcode is defined and whose MASK test fails, by the numbers of the MASK table. -/
theorem exists_maskTest_fails_iff (w : Word) :
    (∃ op, Opcode.ofNumber (opField w) = some op ∧ w &&& op.mask ≠ op.matchWord) ↔
      ∃ m ∈ Opcode.table.map fun op => (op.number.toNat, op.mask.toNat),
        m.1 = (opField w).toNat ∧ w.toNat &&& m.2 ≠ (opField w).toNat * 2 ^ 26 := by
  simp only [List.mem_map, exists_exists_eq_and, Opcode.mem_table, true_and, ofNumber_eq_some_iff, ne_eq, maskTest_iff_toNat]
  exact exists_congr fun op => and_congr_right fun hop => by rw [hop]

theorem wellFormed_assemble_eq_false_iff (op : Opcode) (w : Word) : (op.assemble w).wellFormed = false ↔
    ((op = .cfgw ∨ op = .cfgr) ∧ 0x30 ≤ (cregField w).toNat) ∨ (op = .pfq ∧ 6 ≤ (subField w).toNat) := by
  cases op with
  | cfgw | cfgr => simp [Opcode.assemble, Instr.wellFormed, cregDefined]
  | pfq => simp [Opcode.assemble, Instr.wellFormed, subDefined, Nat.lt_iff_add_one_le]
  | _ => simp [Opcode.assemble, Instr.wellFormed]

/-- A word whose opcode is defined and holds an undefined CREG or SUB, by OP number. -/
theorem exists_undefinedField_iff (w : Word) :
    (∃ op, Opcode.ofNumber (opField w) = some op ∧ (op.assemble w).wellFormed = false) ↔
      (((opField w).toNat = 0x04 ∨ (opField w).toNat = 0x05) ∧ 0x30 ≤ (cregField w).toNat)
        ∨ ((opField w).toNat = 0x1E ∧ 6 ≤ (subField w).toNat) := by
  simp only [wellFormed_assemble_eq_false_iff, ofNumber_eq_some_iff]
  constructor
  · rintro ⟨op, hop, ⟨rfl | rfl, hcreg⟩ | ⟨rfl, hsub⟩⟩
    · exact .inl ⟨.inl hop.symm, hcreg⟩
    · exact .inl ⟨.inr hop.symm, hcreg⟩
    · exact .inr ⟨hop.symm, hsub⟩
  · rintro (⟨hop | hop, hcreg⟩ | ⟨hop, hsub⟩)
    · exact ⟨.cfgw, hop.symm, .inl ⟨.inl rfl, hcreg⟩⟩
    · exact ⟨.cfgr, hop.symm, .inl ⟨.inr rfl, hcreg⟩⟩
    · exact ⟨.pfq, hop.symm, .inr ⟨rfl, hsub⟩⟩

theorem executeCommand_of_error {w : Word} {e : DecodeError} (h : decode w = .error e) (s : Machine.State) :
    Machine.executeCommand w s = .next (s.recordError .illegal) := by
  rw [Machine.executeCommand, h]; rfl

/-- Settles O3: Decode fails on the opcode, on the MASK test or on a field, and each failure is one by its numbers. -/
theorem illegalWords : Obligations.IllegalWords := by
  unfold Obligations.IllegalWords
  intro masks illegal
  have hmasks : masks = Opcode.table.map fun op => (op.number.toNat, op.mask.toNat) := rfl
  have herror (w : Word) : (∃ e, decode w = .error e) ↔ illegal w := by
    simp only [decode_eq_error_iff, and_or_left, exists_or, exists_maskTest_fails_iff, exists_undefinedField_iff,
      ofNumber_eq_none_iff, ← hmasks]
    exact or_assoc
  refine ⟨herror, fun w s hw => ?_, fun c sel => ⟨encode (.pqry c sel), decodeEncode _ rfl⟩⟩
  obtain ⟨e, he⟩ := (herror w).2 hw
  exact executeCommand_of_error he s

/-! The examples of the specification -/

/-- The words of R134 that Decode refuses: a must-be-zero bit of NEXT, SETKEY and PQRY, a CREG number, and an OP value. -/
theorem exampleWords_illegal {w : Word} (h : w ∈ ([0x24000001, 0x203C0004, 0x10300000, 0x18000000, 0x7C459002] : List Word)) :
    ∃ e, decode w = .error e := by
  simp only [List.mem_cons, List.not_mem_nil, or_false] at h
  rcases h with rfl | rfl | rfl | rfl | rfl
  · exact ⟨.mustBeZero, rfl⟩
  · exact ⟨.mustBeZero, rfl⟩
  · exact ⟨.undefinedCreg, rfl⟩
  · exact ⟨.undefinedOpcode, rfl⟩
  · exact ⟨.mustBeZero, rfl⟩

/-- Settles O4: Decode computes on each word. -/
theorem exampleWords : Obligations.ExampleWords := by
  refine ⟨?_, ?_, ?_, ?_, ?_, ?_, ?_, ?_, ?_, ?_, ?_, ?_, ?_, ?_, fun w hw => exampleWords_illegal hw⟩
  all_goals rfl

/-! The pseudo-instructions of waiting (30_encoding.md R133) -/

theorem cmdWrite_encode_next : Machine.cmdWrite (encode .next) = { offset := 0x08, data := 0x24000000 } := rfl

/-- Settles O10: both lines expand to copies of the one write of NEXT. -/
theorem waitsAreNexts : Obligations.WaitsAreNexts := fun n _ _ =>
  ⟨congrArg (fun w => some (List.replicate n w)) cmdWrite_encode_next, rfl⟩

end Sys2Proof

/-! PROOF. A broadcast command is its single-pipe form for every pipe (30_encoding.md R114): the operand checks answer alike for
both, an error recorded again changes nothing, and rewriting the pipes one after another rewrites them all. -/

namespace Sys2Proof.Machine

/-! A command of format P or F whose pipe operand names pipes -/

/-- The NONFINITE check, made by the commands that read OPD as f64 (60_exceptions.md R326). -/
def valueCheck (i : Instr) (s : State) (body : Result) : Result :=
  if readsF64 i then checkFinite s fun _ => body else body

/-- The checks after the one on the pipe operand: RANGE on the slot, then NONFINITE (60_exceptions.md R326). -/
def operandChecks (i : Instr) (o : Organ) (s : State) (body : Result) : Result :=
  match slotOperand? i with
  | some k => checkSlot o k s (valueCheck i s body)
  | none => valueCheck i s body

theorem valueCheck_cases (i : Instr) (opd : F64) :
    (∀ s body, s.opd = opd → valueCheck i s body = body)
    ∨ ∀ s body, s.opd = opd → valueCheck i s body = raise .nonfinite s := by
  cases hreads : readsF64 i with
  | false => exact .inl fun s body _ => by simp [valueCheck, hreads]
  | true =>
    cases hv : F64.isFinite opd with
    | false => right; rintro s body rfl; simp [valueCheck, hreads, checkFinite, hv]
    | true => left; rintro s body rfl; simp [valueCheck, hreads, checkFinite, hv]

/-- The checks read OPD and the number of slots only, so all states that agree on those get one answer. -/
theorem operandChecks_cases (i : Instr) (opd : F64) (slots : Nat) :
    (∀ o s body, s.opd = opd → o.filterSlots = slots → operandChecks i o s body = body)
    ∨ ∃ e, ∀ o s body, s.opd = opd → o.filterSlots = slots → operandChecks i o s body = raise e s := by
  by_cases hslot : ∃ k, slotOperand? i = some k ∧ ¬k.toNat < slots
  · obtain ⟨k, hk, hout⟩ := hslot
    refine .inr ⟨.range, ?_⟩
    rintro o s body - rfl
    simp only [operandChecks, hk, checkSlot, if_neg hout]
  · have hvalue (o : Organ) (s : State) (body : Result) (ho : o.filterSlots = slots) :
        operandChecks i o s body = valueCheck i s body := by
      unfold operandChecks
      cases hk : slotOperand? i with
      | none => rfl
      | some k => exact if_pos (by_contra fun hout => hslot ⟨k, hk, ho ▸ hout⟩)
    rcases valueCheck_cases i opd with hpass | hfail
    · exact .inl fun o s body hs ho => (hvalue o s body ho).trans (hpass s body hs)
    · exact .inr ⟨.nonfinite, fun o s body hs ho => (hvalue o s body ho).trans (hfail s body hs)⟩

/-- The commands that rewrite pipes differ only in their pipe operand, their checks and their rule. -/
theorem exec_of_admits {s : State} {o : Organ} {i : Instr} {sel : PipeOperand} {g : Pipe → Pipe} (hphase : s.phase = .run o)
    (hsel : pipeOperand? i = some sel) (ha : o.admits sel = true) (hrule : pipeRule s i = some g) :
    exec i s = operandChecks i o s (.next (s.setOrgan (o.apply sel g))) := by
  have hrun (body : Organ → Result) (hbody : body o = checkPipe o sel s (operandChecks i o s (.next (s.setOrgan (o.apply sel g))))) :
      inRun s body = operandChecks i o s (.next (s.setOrgan (o.apply sel g))) := by
    rw [inRun_run hphase, hbody, checkPipe, if_pos ha]
  cases i with
  | pact | pvol | patk | pdec | psus | prel | pftype | pvrate | pvint => cases hsel; cases hrule; exact hrun _ rfl
  | _ => cases hrule

/-! Single forms -/

/-- What a broadcast command and its single-pipe form have in common: all but the pipe operand. -/
structure IsSingleForm (i : Instr) (single : CodeField → Instr) : Prop where
  every : pipeOperand? i = some .every
  one : ∀ c, pipeOperand? (single c) = some (.one (codeOf c))
  slot : ∀ c, slotOperand? (single c) = slotOperand? i
  reads : ∀ c, readsF64 (single c) = readsF64 i
  rule : ∀ s c, pipeRule s (single c) = pipeRule s i
  hasRule : ∀ s, ∃ g, pipeRule s i = some g

theorem isSingleForm_of_singleForm {i : Instr} {single : CodeField → Instr} (h : singleForm i = some single) :
    IsSingleForm i single := by
  cases i with
  | pact _ all _ | pvol _ all | patk _ all | pdec _ all | psus _ all | prel _ all | pftype _ _ all _ | pvrate _ _ all
  | pvint _ _ all =>
    cases all with
    | false => cases h
    | true =>
      cases h
      exact ⟨rfl, fun _ => rfl, fun _ => rfl, fun _ => rfl, fun _ _ => rfl, fun _ => ⟨_, rfl⟩⟩
  | _ => cases h

/-- The rule of a command reads the configuration and OPD only. -/
theorem pipeRule_congr {s t : State} (hcreg : t.creg = s.creg) (hopd : t.opd = s.opd) (i : Instr) :
    pipeRule t i = pipeRule s i := by
  cases i <;> simp only [pipeRule, hcreg, hopd]

section
variable {i : Instr} {single : CodeField → Instr} {s t : State} {o : Organ} {g : Pipe → Pipe}

theorem IsSingleForm.exec_broadcast (h : IsSingleForm i single) (hphase : s.phase = .run o) (hrule : pipeRule s i = some g) :
    exec i s = operandChecks i o s (.next (s.setOrgan (o.mapPipes g))) :=
  exec_of_admits hphase h.every rfl hrule

/-- On a code that has a pipe the single form makes the checks of the broadcast. -/
theorem IsSingleForm.exec_single (h : IsSingleForm i single) (hphase : s.phase = .run o) (hrule : pipeRule s i = some g)
    {c : CodeField} (hc : o.hasPipe (codeOf c) = true) :
    exec (single c) s = operandChecks i o s (.next (s.setOrgan (o.modifyPipe (codeOf c) g))) := by
  rw [exec_of_admits hphase (h.one c) hc ((h.rule s c).trans hrule), operandChecks, valueCheck, h.slot, h.reads]; rfl

/-! Running commands one after another -/

theorem execAll_cons {is : List Instr} (h : exec i s = .next t) : execAll (i :: is) s = execAll is t := by
  rw [execAll, h]

theorem execAll_of_forall_unchanged {is : List Instr} (h : ∀ i ∈ is, exec i s = .next s) : execAll is s = .next s := by
  induction is with
  | nil => rfl
  | cons i is ih =>
    rw [execAll_cons (h i List.mem_cons_self)]
    exact ih fun i' hi' => h i' (List.mem_cons_of_mem i hi')

/-- An error recorded again changes nothing. -/
theorem State.recordError_recordError (e : ErrorKind) (s : State) : (s.recordError e).recordError e = s.recordError e := by
  simp only [State.recordError, ErrorRecord.record, Bool.or_assoc, Bool.or_self]
  cases s.errors.firstErr <;> rfl

/-- Commands that all raise one error leave it recorded once. -/
theorem execAll_of_forall_raise {e : ErrorKind} {is : List Instr} (hne : is ≠ []) (hs : ∀ i ∈ is, exec i s = raise e s)
    (hrecorded : ∀ i ∈ is, exec i (s.recordError e) = raise e (s.recordError e)) : execAll is s = raise e s := by
  cases is with
  | nil => exact absurd rfl hne
  | cons i is =>
    rw [execAll_cons (hs i List.mem_cons_self)]
    refine execAll_of_forall_unchanged fun i' hi' => ?_
    rw [hrecorded i' (List.mem_cons_of_mem i hi'), raise, State.recordError_recordError]

/-- Single forms that pass the checks rewrite their pipes in turn. -/
theorem IsSingleForm.execAll_singles (h : IsSingleForm i single) (hrule : pipeRule s i = some g)
    (hpass : ∀ o' t body, t.opd = s.opd → o'.filterSlots = o.filterSlots → operandChecks i o' t body = body)
    {cs : List CodeField} (hcs : ∀ c ∈ cs, o.hasPipe (codeOf c) = true) :
    execAll (cs.map single) (s.setOrgan o)
      = .next (s.setOrgan ((cs.map codeOf).foldl (fun o' c => o'.modifyPipe c g) o)) := by
  induction cs generalizing o with
  | nil => rfl
  | cons c cs ih =>
    have hexec : exec (single c) (s.setOrgan o) = .next (s.setOrgan (o.modifyPipe (codeOf c) g)) := by
      rw [h.exec_single (s := s.setOrgan o) rfl ((pipeRule_congr rfl rfl i).trans hrule) (hcs c List.mem_cons_self)]
      exact hpass _ _ _ rfl rfl
    have hpipes (c' : Int) : (o.modifyPipe (codeOf c) g).hasPipe c' = o.hasPipe c' := Organ.hasPipe_congr (by simp) (by simp) c'
    rw [List.map_cons, execAll_cons hexec]
    refine ih (fun o' t body hopd hslots => hpass o' t body hopd (by rw [hslots, Organ.modifyPipe_filterSlots])) fun c' hc' => ?_
    rw [hpipes]
    exact hcs c' (List.mem_cons_of_mem c hc')

end

/-! Rewriting every pipe, one after another -/

theorem Organ.modifyPipe_pipeLo_add {o : Organ} {n : Nat} (hn : n < o.pipes.length) (g : Pipe → Pipe) :
    o.modifyPipe (o.pipeLo + n) g = { o with pipes := o.pipes.modify n g } := by
  have hpipe : o.hasPipe (o.pipeLo + n) = true := by rw [Organ.hasPipe_iff]; omega
  have hplace : o.place (o.pipeLo + n) = n := by unfold Organ.place; omega
  rw [Organ.modifyPipe, if_pos hpipe, hplace]

theorem Organ.foldl_modifyPipe {o : Organ} (g : Pipe → Pipe) {ns : List Nat} (hns : ∀ n ∈ ns, n < o.pipes.length) :
    (ns.map fun (n : Nat) => o.pipeLo + (n : Int)).foldl (fun o' c => o'.modifyPipe c g) o
      = { o with pipes := ns.foldl (fun ps n => ps.modify n g) o.pipes } := by
  induction ns generalizing o with
  | nil => rfl
  | cons n ns ih =>
    rw [List.map_cons, List.foldl_cons, Organ.modifyPipe_pipeLo_add (hns n List.mem_cons_self) g]
    exact ih (o := { o with pipes := o.pipes.modify n g }) fun n' hn' => by
      rw [List.length_modify]; exact hns n' (List.mem_cons_of_mem n hn')

theorem getElem?_foldl_modify_range {α : Type} (g : α → α) (l : List α) (n m : Nat) :
    ((List.range n).foldl (fun l' k => l'.modify k g) l)[m]? = if m < n then l[m]?.map g else l[m]? := by
  induction n with
  | zero => rfl
  | succ n ih =>
    rw [List.range_succ, List.foldl_append, List.foldl_cons, List.foldl_nil, List.getElem?_modify, ih]
    rcases Nat.lt_trichotomy m n with hlt | rfl | hgt
    · simp [hlt, Nat.lt_succ_of_lt hlt, hlt.ne']
    · simp
    · simp [hgt.ne, Nat.not_lt.2 hgt.le, Nat.not_lt.2 hgt]

theorem foldl_modify_range_length {α : Type} (g : α → α) (l : List α) :
    (List.range l.length).foldl (fun l' k => l'.modify k g) l = l.map g := by
  refine List.ext_getElem? fun m => ?_
  rw [getElem?_foldl_modify_range, List.getElem?_map]
  split
  · rfl
  · next hm => rw [List.getElem?_eq_none (Nat.not_lt.1 hm)]; rfl

theorem Organ.foldl_modifyPipe_range (o : Organ) (g : Pipe → Pipe) :
    ((List.range o.pipes.length).map fun (n : Nat) => o.pipeLo + (n : Int)).foldl (fun o' c => o'.modifyPipe c g) o
      = o.mapPipes g := by
  rw [Organ.foldl_modifyPipe g fun n hn => List.mem_range.1 hn, foldl_modify_range_length]; rfl

/-! The codes of the pipes of a good organ -/

theorem codeOf_ofInt {c : Int} (hlo : -512 ≤ c) (hhi : c ≤ 511) : codeOf (BitVec.ofInt 10 c) = c :=
  BitVec.toInt_ofInt_eq_self (by decide) (by omega) (by omega)

section
variable {f : CregFile} {o : Organ} (hf : CregOk f) (ho : OrganOk f o)
include hf ho

/-- PIPE_LO and PIPE_HI are codes, and there is a pipe (10_state.md R40, 43_mixer.md R241). -/
theorem OrganOk.codes_bounds : -512 ≤ o.pipeLo ∧ o.pipeLo + o.pipes.length - 1 ≤ 511 ∧ 0 < o.pipes.length := by
  have hlo : -512 ≤ f.pipeLo := (hf.int .pipeLo).1
  have hhi : f.pipeHi ≤ 511 := (hf.int .pipeHi).2
  have hpipeLo := ho.pipeLo
  have hpipeHi : o.pipeLo + o.pipes.length - 1 = f.pipeHi := ho.pipeHi
  have hsome := ho.somePipe
  omega

/-- Every code of a pipe fits in IDX. -/
theorem OrganOk.map_codeOf_codeFields :
    o.codeFields.map codeOf = (List.range o.pipes.length).map fun (n : Nat) => o.pipeLo + (n : Int) := by
  obtain ⟨hlo, hhi, -⟩ := ho.codes_bounds hf
  rw [Organ.codeFields, List.map_map]
  refine List.map_congr_left fun n hn => ?_
  rw [List.mem_range] at hn
  exact codeOf_ofInt (by omega) (by omega)

theorem OrganOk.hasPipe_of_mem_codeFields {c : CodeField} (hc : c ∈ o.codeFields) : o.hasPipe (codeOf c) = true := by
  have hmem := List.mem_map_of_mem (f := codeOf) hc
  rw [ho.map_codeOf_codeFields hf, List.mem_map] at hmem
  obtain ⟨n, hn, hcode⟩ := hmem
  rw [List.mem_range] at hn
  rw [Organ.hasPipe_iff]
  omega

theorem OrganOk.codeFields_ne_nil : o.codeFields ≠ [] := by
  have hsome := (ho.codes_bounds hf).2.2
  simp [Organ.codeFields, List.length_pos_iff.1 hsome]

end

/-- Settles O48: where the checks pass both rewrite every pipe, and where one fails both record its error. -/
theorem broadcastIsEveryPipe : Obligations.BroadcastIsEveryPipe := by
  intro s o i single hs hphase hsingle
  have h := isSingleForm_of_singleForm hsingle
  have ho := hs.organ o hphase
  have hpipe : ∀ c ∈ o.codeFields, o.hasPipe (codeOf c) = true := fun c hc => ho.hasPipe_of_mem_codeFields hs.creg hc
  obtain ⟨g, hrule⟩ := h.hasRule s
  rw [h.exec_broadcast hphase hrule]
  rcases operandChecks_cases i s.opd o.filterSlots with hpass | ⟨e, hfail⟩
  · have hself : s.setOrgan o = s := by rw [State.setOrgan, State.setPhase, ← hphase]
    calc operandChecks i o s (.next (s.setOrgan (o.mapPipes g)))
      _ = .next (s.setOrgan (o.mapPipes g)) := hpass o s _ rfl rfl
      _ = .next (s.setOrgan ((o.codeFields.map codeOf).foldl (fun o' c => o'.modifyPipe c g) o)) := by
        rw [ho.map_codeOf_codeFields hs.creg, o.foldl_modifyPipe_range]
      _ = execAll (o.codeFields.map single) s := by rw [← h.execAll_singles hrule hpass hpipe, hself]
  · have hraise (t : State) (hrun : t.phase = .run o) (hcreg : t.creg = s.creg) (hopd : t.opd = s.opd) :
        ∀ i' ∈ o.codeFields.map single, exec i' t = raise e t := by
      refine List.forall_mem_map.2 fun c hc => ?_
      rw [h.exec_single hrun ((pipeRule_congr hcreg hopd i).trans hrule) (hpipe c hc), hfail o t _ hopd rfl]
    rw [hfail o s _ rfl rfl, execAll_of_forall_raise _ (hraise s hphase rfl rfl) (hraise _ hphase rfl rfl)]
    exact fun hnil => ho.codeFields_ne_nil hs.creg (List.map_eq_nil_iff.1 hnil)

end Sys2Proof.Machine

/-! PROOF. The phase-continuous oscillator (40_oscillator.md R144 to R151): the sample and the next state by mode, the click-free
start and the bound of every sample, and the wrapping of the phase. -/

namespace Sys2Proof.F64

/-! The arithmetic of the sample and of the phase -/

/-- Without the sign bit 0 it fails: a negative factor, or -0.0, gives -0.0. -/
theorem mul_zero_of_sign_false {x : F64} (hfin : isFinite x = true) (hsign : sign x = false) : mul x zero = zero := by
  have hunits : units zero = 0 := by decide
  rw [mul_of_finite hfin (by decide), hsign, hunits, Nat.mul_zero, rounded, roundMag_zero]
  decide

theorem isNaN_someNaN (source : Config.NaNSource) (a b : F64) : isNaN (someNaN source a b) = true := by
  have hmag (x : F64) : mag x = (x.setWidth 63).toNat := (BitVec.toNat_setWidth 63 x).symm
  have hquiet : 0x7FF8000000000000 ≤ mag (someNaN source a b) := by
    rw [hmag, someNaN, BitVec.setWidth_or, BitVec.toNat_or]
    exact Nat.right_le_or
  rw [isNaN, decide_eq_true_iff]
  exact lt_of_lt_of_le (by decide) hquiet

/-- A remainder that is a number has its dividend in the domain of `fmod` (00_scope.md R12). -/
theorem fmod_domain {x y : F64} (h : isNaN (fmod x y) = false) : isFinite x = true ∧ 0 ≤ value x := by
  unfold fmod at h
  split at h
  · next hdom =>
    simp only [Bool.and_eq_true] at hdom
    obtain ⟨⟨⟨hfin, -⟩, hle⟩, -⟩ := hdom
    rw [le_iff (by decide) (isNaN_of_finite hfin), value_zero] at hle
    exact ⟨hfin, hle⟩
  · rw [isNaN_someNaN] at h
    contradiction

/-- A value below the divisor is its own remainder. -/
theorem fmod_of_lt {x y : F64} (hx : isFinite x = true) (hy : isFinite y = true) (hsign : sign x = false)
    (hlt : value x < value y) : fmod x y = x := by
  have hnonneg := value_nonneg_of_sign_false hsign
  obtain ⟨-, hs, hv⟩ := fmod_exact hx hy hnonneg (lt_of_le_of_lt hnonneg hlt)
  exact eq_of_value (hs.trans hsign.symm) (hv.trans (Int.emod_eq_of_lt hnonneg hlt))

end Sys2Proof.F64

namespace Sys2Proof.Machine

open F64

/-! OscNext by the mode it finds (40_oscillator.md R145) -/

section
variable {pf : Platform} {f : CregFile} {o : Oscillator}

/-- Row 1: a sound starts at phase 0. -/
theorem oscNext_of_start (ha : o.active = true) (hw : o.wasActive = false) (hp : o.persist = false) :
    oscNext pf f o = (F64.mul o.vol (pf.sin F64.zero),
      { o with theta := advance F64.zero o.dtheta, wasActive := true, persist := false }) := by
  simp [oscNext, ha, hw, hp]

/-- Rows 2 and 3: a sound goes on where it is. -/
theorem oscNext_of_sounding (ha : o.active = true) (h : o.wasActive = true ∨ o.persist = true) :
    oscNext pf f o = (F64.mul o.vol (pf.sin o.theta),
      { o with theta := advance o.theta o.dtheta, wasActive := true, persist := false }) := by
  have hkeep : (!o.wasActive && !o.persist) = false := by simpa [← Bool.not_or] using h
  simp [oscNext, ha, hkeep]

/-- Rows 4 and 5: the tail goes on while the sample is at least EPSILON, and ends with +0.0 in place of the first one below. -/
theorem oscNext_of_tail (ha : o.active = false) (h : o.wasActive = true ∨ o.persist = true) :
    oscNext pf f o =
      if F64.le f.epsilon (F64.abs (F64.mul o.vol (pf.sin o.theta))) then
        (F64.mul o.vol (pf.sin o.theta), { o with theta := advance o.theta o.dtheta, wasActive := false, persist := true })
      else (F64.zero, { o with wasActive := false, persist := false }) := by
  have htail : (o.wasActive || o.persist) = true := by simpa using h
  simp [oscNext, ha, htail]

/-- Row 6: silence stays. -/
theorem oscNext_of_silent (ha : o.active = false) (hw : o.wasActive = false) (hp : o.persist = false) :
    oscNext pf f o = (F64.zero, o) := by
  simp [oscNext, ha, hw, hp]

end

/-- Settles O49, from the lemma of each mode. -/
theorem oscillatorTransitions : Obligations.OscillatorTransitions := fun _ _ _ =>
  ⟨oscNext_of_start, oscNext_of_sounding,
    fun ha h hloud => (oscNext_of_tail ha h).trans (if_pos hloud),
    fun ha h hquiet => (oscNext_of_tail ha h).trans (if_neg (Bool.eq_false_iff.1 hquiet)),
    oscNext_of_silent⟩

/-! The sample -/

/-- Settles O50: the sine of the phase the start resets is +0.0 (S1 of 00_scope.md R13), and the volume's sign bit is 0. -/
theorem clickFreeStart : Obligations.ClickFreeStart := by
  intro pf f o hpf hvol ha hw hp
  calc (oscNext pf f o).1
    _ = mul o.vol (pf.sin zero) := by rw [oscNext_of_start ha hw hp]
    _ = mul o.vol zero := by rw [hpf.s1]
    _ = zero := mul_zero_of_sign_false (hvol.isFinite (by decide)) hvol.sign

/-- Settles O51: the bound that the sample step keeps (`OscillatorOk.oscNext`), read as comparisons. -/
theorem oscillatorMagnitude : Obligations.OscillatorMagnitude := by
  intro pf f o hpf ho
  obtain ⟨-, hfin, hbound⟩ := ho.oscNext hpf
  have hnum : isNaN (F64.abs (oscNext pf f o).1) = false := (isNaN_abs _).trans (isNaN_of_finite hfin)
  rw [le_iff hnum ho.vol.isNaN, value_abs]
  exact ⟨hbound, ho.vol.le⟩

/-! The phase -/

/-- Settles O52: the remainder lies in [0, TWO_PI), so it is a number and the rounded sum lies in the domain of `fmod`. -/
theorem advanceWraps : Obligations.AdvanceWraps := by
  intro theta dtheta ht hd
  obtain ⟨hin, hlt⟩ := advance_bounds ht hd
  obtain ⟨hfin, hnonneg⟩ := fmod_domain hin.isNaN
  have hsign : sign (add theta dtheta) = false :=
    sign_add_of_nonneg (ht.isFinite (by decide)) (hd.isFinite (by decide)) (add_nonneg ht.nonneg hd.nonneg) (.inl ht.sign)
  obtain ⟨-, -, hvalue⟩ := fmod_exact hfin (y := twoPi) (by decide) hnonneg value_twoPi_pos
  refine ⟨hfin, hvalue, hin.ge, hlt, fun hsmall => fmod_of_lt hfin (by decide) hsign ?_⟩
  rwa [lt_iff (isNaN_of_finite hfin) (by decide)] at hsmall

end Sys2Proof.Machine

/-! PROOF. The ADSR envelope (41_envelope.md R170 to R200): EnvActivate and the decay trigger, the commands of format P, the
countdown of a decay and its length, and the monotonic level. -/

namespace Sys2Proof.F64

/-! Sums with an infinity, clamped values and the ceiling -/

/-- An infinity absorbs a finite addend. -/
theorem add_of_infinite {a b : F64} (ha : isFinite a = true) (hb : isNaN b = false) (hinf : isFinite b = false) :
    add a b = b := by
  have hi : isInf b = true := isInf_iff.2 (le_antisymm (isNaN_false_iff.1 hb) (isFinite_false_iff.1 hinf))
  simp [add, isNaN_of_finite ha, hb, isInf_of_finite ha, hi]

theorem natAbs_value_le_of_infinite {a b : F64} (ha : isFinite a = true) (hinf : isFinite b = false) :
    (value a).natAbs ≤ (value b).natAbs := by
  rw [natAbs_value, natAbs_value]
  exact unitsOfMag_strictMono.monotone ((isFinite_iff.1 ha).le.trans (isFinite_false_iff.1 hinf))

/-- Rounding does not carry a sum below its finite addend, and an infinity lies above it. -/
theorem le_value_add_of_nonneg {a b : F64} (ha : isFinite a = true) (hb : isNaN b = false) (h : 0 ≤ value b) :
    value a ≤ value (add a b) := by
  cases hfin : isFinite b with
  | true => exact le_value_add ha hfin (isNaN_of_finite ha) (by omega)
  | false =>
    have habs := natAbs_value_le_of_infinite ha hfin
    rw [add_of_infinite ha hb hfin]
    omega

theorem value_add_le_of_nonpos {a b : F64} (ha : isFinite a = true) (hb : isNaN b = false) (h : value b ≤ 0) :
    value (add a b) ≤ value a := by
  cases hfin : isFinite b with
  | true => exact value_add_le ha hfin (isNaN_of_finite ha) (by omega)
  | false =>
    have habs := natAbs_value_le_of_infinite ha hfin
    rw [add_of_infinite ha hb hfin]
    omega

theorem value_clamp {x lo hi : F64} (hx : isNaN x = false) (hlo : isNaN lo = false) (hhi : isNaN hi = false)
    (h : value lo ≤ value hi) : value (clamp x lo hi) = max (value lo) (Min.min (value x) (value hi)) := by
  unfold clamp
  split
  · next hle => rw [le_iff hx hlo] at hle; omega
  · next hlo' =>
    rw [le_iff hx hlo] at hlo'
    split
    · next hge => rw [le_iff hhi hx] at hge; omega
    · next hhi' => rw [le_iff hhi hx] at hhi'; omega

theorem value_sat01 {x : F64} (hx : isNaN x = false) : value (sat01 x) = max 0 (Min.min (value x) oneUnits) := by
  rw [sat01, value_clamp hx (by decide) (by decide) (by rw [value_zero, value_one]; positivity), value_zero, value_one]

/-- The ceiling is the least integer at or above the value (00_scope.md R12). -/
theorem ceil_bounds {x : F64} (hx : isFinite x = true) :
    (ceil x - 1) * oneUnits < value x ∧ value x ≤ ceil x * oneUnits := by
  have hpos : (0 : Int) < oneUnits := by exact_mod_cast oneUnits_pos
  have hle := Int.ediv_mul_le (-value x) hpos.ne'
  have hlt := Int.lt_ediv_add_one_mul_self (-value x) hpos
  rw [ceil, if_pos hx]
  constructor <;> linarith

end Sys2Proof.F64

namespace Sys2Proof.Machine

open F64

/-! EnvActivate, case by case -/

/-- The three conditions of DecayCheck (41_envelope.md R173). -/
def DecayTriggered (f : CregFile) (e : Envelope) : Prop :=
  F64.le (F64.sub F64.one f.negligible) e.vol = true ∧ F64.lt f.negligible e.decay = true ∧ e.count = 0

section
variable {f : CregFile} {e : Envelope}

theorem decayCheck_of_triggered (h : DecayTriggered f e) :
    decayCheck f e =
      { e with
        vel := F64.div (F64.sub e.sustain F64.one) (F64.mul e.decay f.sampleRate)
        count := (F64.ceil (F64.mul e.decay f.sampleRate)).toNat } := by
  obtain ⟨hvol, hdecay, hcount⟩ := h
  simp [decayCheck, hvol, hdecay, hcount]

theorem decayCheck_of_not_triggered (h : ¬DecayTriggered f e) : decayCheck f e = e := by
  unfold decayCheck
  refine if_neg fun hc => h ?_
  simpa [DecayTriggered, and_assoc] using hc

/-- A second activate obeys only the decay trigger (41_envelope.md R172). -/
theorem envActivate_on_of_gate (hg : e.gate = true) : envActivate f true e = decayCheck f e := by
  simp [envActivate, envActivateOn, hg]

/-- The rising edge: an instant or a ramped attack (41_envelope.md R172). -/
theorem envActivate_on_of_not_gate (hg : e.gate = false) :
    envActivate f true e =
      if F64.lt e.attack f.negligible = true then { e with gate := true, vol := F64.one, vel := F64.zero }
      else { e with gate := true, vel := F64.div F64.one (F64.mul e.attack f.sampleRate) } := by
  simp [envActivate, envActivateOn, hg]

/-- The falling edge: an instant or a ramped release, which cancels a decay (41_envelope.md R174). -/
theorem envActivate_off_of_gate (hg : e.gate = true) :
    envActivate f false e =
      if F64.lt e.release f.negligible = true then { e with gate := false, count := 0, vol := F64.zero, vel := F64.zero }
      else { e with gate := false, count := 0, vel := F64.div F64.minusOne (F64.mul e.release f.sampleRate) } := by
  simp [envActivate, envActivateOff, hg]

theorem envActivate_off_of_not_gate (hg : e.gate = false) : envActivate f false e = e := by
  simp [envActivate, envActivateOff, hg]

/-- The single-trigger guard on one envelope (41_envelope.md R179). -/
theorem envActivate_on_of_counting (hg : e.gate = true) (hcount : 0 < e.count) : envActivate f true e = e := by
  rw [envActivate_on_of_gate hg, decayCheck_of_not_triggered]
  exact fun ⟨_, _, hzero⟩ => hcount.ne' hzero

end

/-- Settles O53, from the lemma of each case. -/
theorem envelopeActivation : Obligations.EnvelopeActivation := fun _ _ =>
  ⟨envActivate_on_of_not_gate,
    fun hg htrigger => (envActivate_on_of_gate hg).trans (decayCheck_of_triggered htrigger),
    fun hg hno => (envActivate_on_of_gate hg).trans (decayCheck_of_not_triggered hno),
    envActivate_off_of_gate, envActivate_off_of_not_gate⟩

/-! The commands that rewrite pipes -/

theorem operandChecks_of_pass {i : Instr} {o : Organ} {s : State}
    (hslot : ∀ k, slotOperand? i = some k → k.toNat < o.filterSlots) (hv : readsF64 i = true → F64.isFinite s.opd = true)
    (body : Result) : operandChecks i o s body = body := by
  have hvalue : valueCheck i s body = body := by
    unfold valueCheck
    split
    · next hreads => exact if_pos (hv hreads)
    · rfl
  unfold operandChecks
  split
  · next k hk => rw [checkSlot, if_pos (hslot k hk), hvalue]
  · exact hvalue

/-- The rewriting reaches the pipes the operand names and nothing else of the organ. -/
theorem Organ.rewrittenBy_apply (o : Organ) (sel : PipeOperand) (g : Pipe → Pipe) :
    o.RewrittenBy (o.apply sel g) fun c p => if sel.names c = true then g p else p := by
  constructor
  · cases sel with
    | every => rfl
    | one c => simp only [Organ.apply, Organ.modifyPipe]; split <;> rfl
  · intro c
    rw [Organ.pipe?_apply]
    cases sel with
    | every => simp [PipeOperand.names]
    | one c' => by_cases hc : c = c' <;> simp [PipeOperand.names, hc, eq_comm]

/-- A command of format P or F that passes its checks rewrites the pipes it names by its rule, and changes nothing else. -/
theorem exec_rewrites {s : State} {o : Organ} {i : Instr} {sel : PipeOperand} {g : Pipe → Pipe} (hphase : s.phase = .run o)
    (hsel : pipeOperand? i = some sel) (ha : o.admits sel = true) (hrule : pipeRule s i = some g)
    (hslot : ∀ k, slotOperand? i = some k → k.toNat < o.filterSlots) (hv : readsF64 i = true → F64.isFinite s.opd = true) :
    ∃ o', exec i s = .next { s with phase := .run o' }
      ∧ o.RewrittenBy o' fun c p => if sel.names c = true then g p else p :=
  ⟨o.apply sel g, (exec_of_admits hphase hsel ha hrule).trans (operandChecks_of_pass hslot hv _), o.rewrittenBy_apply sel g⟩

/-- Settles O45: PACT has the rule EnvActivate, and no check but the one on the pipe operand. -/
theorem pactActivates : Obligations.PactActivates := fun _ _ _ _ _ hphase ha =>
  exec_rewrites hphase rfl ha rfl nofun nofun

/-- Settles O46: each setter has its field's clamped store as its rule. -/
theorem envelopeSettersStore : Obligations.EnvelopeSettersStore := by
  intro s o idx all hphase ha hv
  exact ⟨exec_rewrites hphase rfl ha rfl nofun fun _ => hv, exec_rewrites hphase rfl ha rfl nofun fun _ => hv,
    exec_rewrites hphase rfl ha rfl nofun fun _ => hv, exec_rewrites hphase rfl ha rfl nofun fun _ => hv,
    exec_rewrites hphase rfl ha rfl nofun fun _ => hv⟩

/-! Single trigger -/

/-- Rewriting a pipe by a rule that leaves it as it is. -/
theorem Organ.modifyPipe_eq_self {o : Organ} {c : Int} {p : Pipe} {g : Pipe → Pipe} (hp : o.pipe? c = some p) (hg : g p = p) :
    o.modifyPipe c g = o := by
  have hc := Organ.hasPipe_of_pipe? hp
  rw [Organ.pipe?_eq_some_of_hasPipe hc, Option.some.injEq] at hp
  rw [Organ.modifyPipe, if_pos hc, List.modify_eq_set_get g (Organ.place_lt hc), List.get_eq_getElem, hp, hg, ← hp,
    List.set_getElem_self]

theorem State.setOrgan_eq_self {s : State} {o : Organ} (hphase : s.phase = .run o) : s.setOrgan o = s := by
  rw [State.setOrgan, State.setPhase, ← hphase]

/-- Settles O54: a scheduled decay has its gate set (I4), so the activate meets the single-trigger guard. -/
theorem decayIsNotRestarted : Obligations.DecayIsNotRestarted := by
  intro s o idx p hs hphase hp hcount
  have hgate : p.env.gate = true := ((hs.organ o hphase).pipes p (Organ.mem_of_pipe? hp)).env.gated hcount
  have hself : p.modifyEnv (envActivate s.creg true) = p := by
    rw [Pipe.modifyEnv, envActivate_on_of_counting hgate hcount]
  calc exec (.pact idx false true) s
    _ = .next (s.setOrgan (o.modifyPipe idx.toInt fun p => p.modifyEnv (envActivate s.creg true))) :=
      pipeCommand_admitted _ hphase (Organ.hasPipe_of_pipe? hp)
    _ = .next s := by rw [Organ.modifyPipe_eq_self hp hself, State.setOrgan_eq_self hphase]

/-! The length of a decay -/

/-- A duration above NEGLIGIBLE spans a positive number of samples, of at most `60.0 * 2^32` (41_envelope.md R187). -/
theorem duration_product_bounds {f : CregFile} (hf : CregOk f) {d : F64} (hd : Within F64.zero F64.sixty d)
    (h : F64.lt f.negligible d = true) :
    0 < value (mul d f.sampleRate) ∧ value (mul d f.sampleRate) ≤ 60 * 2 ^ 32 * oneUnits := by
  have hn := hf.negligible
  obtain ⟨-, -, hge, -⟩ := duration_product hf hd
  rw [lt_iff hn.isNaN hd.isNaN] at h
  refine ⟨by have := hn.nonneg; omega, ?_⟩
  have hcap : value F64.sixty * value 0x41F0000000000000#64 = value 0x424E000000000000#64 * oneUnits := by decide +kernel
  have htop : value 0x424E000000000000#64 = 60 * 2 ^ 32 * oneUnits := by decide +kernel
  rw [← htop]
  refine value_mul_le (hd.isFinite (by decide)) hf.finite_sampleRate (by decide) ?_
  rw [← hcap]
  exact mul_le_mul hd.value_le hf.sampleRate.value_le hf.sampleRate_pos.le (hd.nonneg.trans hd.value_le)

/-- Settles O55: the product is positive and at most `60 * 2^32`, so its ceiling lies in 1 .. 60 * 2^32. -/
theorem decayLength : Obligations.DecayLength := by
  intro f e hf he hg hcount hvol hdecay
  obtain ⟨hpos, htop⟩ := duration_product_bounds hf he.decay hdecay
  obtain ⟨hlt, hle⟩ := ceil_bounds (duration_product hf he.decay).1
  have hunit : (0 : Int) < oneUnits := by exact_mod_cast oneUnits_pos
  have hn : (envActivate f true e).count = (F64.ceil (mul e.decay f.sampleRate)).toNat := by
    rw [envActivate_on_of_gate hg, decayCheck_of_triggered ⟨hvol, hdecay, hcount⟩]
  generalize F64.ceil (mul e.decay f.sampleRate) = n at *
  have hn1 : 0 < n := pos_of_mul_pos_left (hpos.trans_le hle) hunit.le
  have hn2 : n - 1 < 60 * 2 ^ 32 := lt_of_mul_lt_mul_right (hlt.trans_le htop) hunit.le
  have hcast : ((n.toNat : Nat) : Int) = n := Int.toNat_of_nonneg hn1.le
  simp only [hn, hcast]
  exact ⟨by omega, by omega, hlt, hle⟩

/-! The sample step of the envelope -/

section
variable {f : CregFile} {e : Envelope}

/-- A sample step writes no parameter and not the gate. -/
theorem envStep_iterate_frame (f : CregFile) (e : Envelope) (n : Nat) :
    ((envStep f)^[n] e).gate = e.gate ∧ ((envStep f)^[n] e).decay = e.decay ∧ ((envStep f)^[n] e).sustain = e.sustain := by
  induction n with
  | zero => exact ⟨rfl, rfl, rfl⟩
  | succ n ih =>
    rw [Function.iterate_succ_apply', envStep_gate, envStep_decay, envStep_sustain]
    exact ih

theorem envStep_iterate_counting {n : Nat} (h : n < e.count) :
    ((envStep f)^[n] e).count = e.count - n ∧ ((envStep f)^[n] e).vel = e.vel := by
  induction n with
  | zero => exact ⟨rfl, rfl⟩
  | succ n ih =>
    obtain ⟨hcount, hvel⟩ := ih (by omega)
    obtain ⟨hcount', hvel'⟩ := envStep_counting (f := f) (e := (envStep f)^[n] e) (by omega)
    rw [Function.iterate_succ_apply']
    exact ⟨by omega, hvel'.trans hvel⟩

/-- The poll finds the decay trigger where no decay is scheduled (41_envelope.md R192). -/
theorem envPoll_of_triggered (hpoll : f.envDecayPoll = 1) (hg : e.gate = true) (h : DecayTriggered f e) :
    (envPoll f e).vel = F64.div (F64.sub e.sustain F64.one) (F64.mul e.decay f.sampleRate)
      ∧ (envPoll f e).count = (F64.ceil (F64.mul e.decay f.sampleRate)).toNat := by
  rw [envPoll, if_pos ⟨hpoll, hg⟩, decayCheck_of_triggered h]
  exact ⟨rfl, rfl⟩

theorem envPoll_of_not_triggered (h : ¬(f.envDecayPoll = 1 ∧ e.gate = true ∧ DecayTriggered f e)) : envPoll f e = e := by
  unfold envPoll
  split
  · next hp =>
    obtain ⟨hpoll, hg⟩ := hp
    exact decayCheck_of_not_triggered fun ht => h ⟨hpoll, hg, ht⟩
  · rfl

/-- The last step of a countdown ends it, and the poll may schedule the next decay. -/
theorem envStep_last (h : e.count = 1) :
    if f.envDecayPoll = 1 ∧ e.gate = true ∧ F64.le (F64.sub F64.one f.negligible) (envStep f e).vol = true
        ∧ F64.lt f.negligible e.decay = true then
      (envStep f e).vel = F64.div (F64.sub e.sustain F64.one) (F64.mul e.decay f.sampleRate)
        ∧ (envStep f e).count = (F64.ceil (F64.mul e.decay f.sampleRate)).toNat
    else (envStep f e).vel = F64.zero ∧ (envStep f e).count = 0 := by
  rw [envStep_vol, envStep_eq, h]
  split
  · next hp =>
    obtain ⟨hpoll, hg, hvol, hdecay⟩ := hp
    exact envPoll_of_triggered hpoll hg ⟨hvol, hdecay, rfl⟩
  · next hno =>
    rw [envPoll_of_not_triggered]
    · exact ⟨rfl, rfl⟩
    · rintro ⟨hpoll, hg, hvol, hdecay, -⟩
      exact hno ⟨hpoll, hg, hvol, hdecay⟩

end

/-- Settles O56: N - 1 steps count down to 1, and the Nth is the last step. -/
theorem countdownLocksTheLevel : Obligations.CountdownLocksTheLevel := by
  intro f e n hle hpos
  refine ⟨envStep_iterate_counting, fun hlast => ?_⟩
  obtain ⟨m, rfl⟩ : ∃ m, n = m + 1 := ⟨n - 1, by omega⟩
  obtain ⟨hcount, -⟩ := envStep_iterate_counting (f := f) (e := e) (n := m) (by omega)
  obtain ⟨hgate, hdecay, hsustain⟩ := envStep_iterate_frame f e m
  have hstep := envStep_last (f := f) (e := (envStep f)^[m] e) (by omega)
  rwa [hgate, hdecay, hsustain, ← Function.iterate_succ_apply' (envStep f)] at hstep

/-- Settles O57: the rounded sum lies on the velocity's side of the level, and saturating keeps it there because the level
lies in [0, 1]. -/
theorem levelIsMonotonic : Obligations.LevelIsMonotonic := by
  intro f e hf he
  have hw := (he.step hf).vol
  have hfin : F64.isFinite e.vol = true := he.vol.isFinite (by decide)
  have hnonneg := he.vol.nonneg
  have htop := he.vol.value_le
  have hvalue : value (envStep f e).vol = max 0 (Min.min (value (add e.vol e.vel)) oneUnits) := by
    rw [envStep_vol, value_sat01 (isNaN_add hfin he.vel)]
  rw [value_one] at htop
  refine ⟨envStep_vol f e, hw, fun hup => ?_, fun hdown => ?_⟩
  · rw [le_iff (by decide) he.vel, value_zero] at hup
    have hsum := le_value_add_of_nonneg hfin he.vel hup
    rw [le_iff he.vol.isNaN hw.isNaN]
    omega
  · rw [le_iff he.vel (by decide), value_zero] at hdown
    have hsum := value_add_le_of_nonpos hfin he.vel hdown
    rw [le_iff hw.isNaN he.vol.isNaN]
    omega

/-! The volume of the oscillator -/

theorem exec_next_run {s : State} {o : Organ} (hphase : s.phase = .run o) :
    exec .next s = .next (nextCommand platform o s) := inRun_run hphase _

/-- Settles O39: every pipe after the step is a good pipe's sample step (`PipeOk.next`), and that bounds the volume. -/
theorem outputVolumeBelowTarget : Obligations.OutputVolumeBelowTarget := by
  intro s t o' hs hrun hexec hphase' p hp
  cases hphase : s.phase with
  | config => rw [hphase] at hrun; cases hrun
  | failed => rw [hphase] at hrun; cases hrun
  | run o =>
    rw [exec_next_run hphase] at hexec
    obtain rfl := Host.Outcome.next.inj hexec
    obtain rfl : o.afterSample platform s.creg = o' := Phase.run.inj hphase'
    obtain ⟨q, hq, rfl⟩ := List.mem_map.1 hp
    obtain ⟨-, -, -, hvol, -⟩ := ((hs.organ o hphase).pipes q hq).next platformOk hs.creg
    exact ⟨hvol.ge, hvol.le⟩

end Sys2Proof.Machine

/-! PROOF. The filter slots (42_filter.md R210 to R222): the commands of format F that store a slot's field, the LFO that runs in
both types, and the chain as a fold over its slots. -/

namespace Sys2Proof.Machine

/-! The commands that store a slot's field -/

/-- A command of format F that passes its checks rewrites one slot of the pipes it names. -/
theorem exec_modifiesSlot {s : State} {o : Organ} {i : Instr} {sel : PipeOperand} {k : BitVec 4} {g : Slot → Slot}
    (hphase : s.phase = .run o) (hsel : pipeOperand? i = some sel) (ha : o.admits sel = true) (hslot : slotOperand? i = some k)
    (hk : k.toNat < o.filterSlots) (hrule : pipeRule s i = some fun p => p.modifySlot k.toNat g)
    (hv : readsF64 i = true → F64.isFinite s.opd = true) :
    ∃ o', exec i s = .next { s with phase := .run o' }
      ∧ o.RewrittenBy o' fun c p => if sel.names c = true then p.modifySlot k.toNat g else p := by
  refine exec_rewrites hphase hsel ha hrule (fun k' hk' => ?_) hv
  obtain rfl : k = k' := Option.some.inj (hslot.symm.trans hk')
  exact hk

/-- Settles O47: each setter has the store of its field as its rule, and only PVRATE and PVINT read the operand. -/
theorem slotSettersStore : Obligations.SlotSettersStore := by
  intro s o idx k all b hphase ha hk
  exact ⟨exec_modifiesSlot hphase rfl ha rfl hk rfl nofun, fun hv =>
    ⟨exec_modifiesSlot hphase rfl ha rfl hk rfl fun _ => hv, exec_modifiesSlot hphase rfl ha rfl hk rfl fun _ => hv⟩⟩

/-! One slot -/

section
variable (pf : Platform) (f : CregFile)

/-- An IDENTITY slot gives the frequency back (42_filter.md R212). -/
theorem filtModF_fst_of_identity {q : Slot} (h : q.type = .identity) (x : F64) : (filtModF pf f q x).1 = x := by
  simp [filtModF, h]

/-- A VIBRATO slot adds its deviation (42_filter.md R212). -/
theorem filtModF_fst_of_vibrato {q : Slot} (h : q.type = .vibrato) (x : F64) :
    (filtModF pf f q x).1 = F64.add x (F64.mul (oscNext pf f q.lfo).1 q.intensity) := by
  simp [filtModF, h]

/-- The LFO runs in both types, and nothing else of the slot changes (42_filter.md R211). -/
theorem filtModF_snd (q : Slot) (x : F64) : (filtModF pf f q x).2 = { q with lfo := (oscNext pf f q.lfo).2 } := by
  unfold filtModF
  cases q.type with
  | identity => rfl
  | vibrato => rfl

/-! The chain -/

/-- The frequency passes through the slots in order (42_filter.md R215). -/
theorem chainModF_fst (slots : List Slot) (x : F64) :
    (chainModF pf f slots x).1 = slots.foldl (fun x q => (filtModF pf f q x).1) x := by
  induction slots generalizing x with
  | nil => rfl
  | cons q rest ih => exact ih _

/-- The slots after a chain do not depend on the frequency that passes through them (42_filter.md R211, R215). -/
theorem chainModF_snd (slots : List Slot) (x : F64) :
    (chainModF pf f slots x).2 = slots.map fun q => { q with lfo := (oscNext pf f q.lfo).2 } := by
  induction slots generalizing x with
  | nil => rfl
  | cons q rest ih => rw [chainModF, List.map_cons, filtModF_snd, ih]

end

/-- Settles O59: the chain folds FiltModF's frequency, which each type gives. -/
theorem chainAddsDeviations : Obligations.ChainAddsDeviations := by
  intro pf f slots x
  rw [chainModF_fst]
  congr 1
  funext x q
  cases h : q.type with
  | identity => exact filtModF_fst_of_identity pf f h x
  | vibrato => exact filtModF_fst_of_vibrato pf f h x

/-! NEXT -/

/-- NEXT replaces each pipe by its sample step (43_mixer.md R255). -/
theorem pipe?_of_exec_next {s t : State} {o o' : Organ} {c : Int} {p : Pipe} (hphase : s.phase = .run o)
    (hexec : exec .next s = .next t) (hphase' : t.phase = .run o') (hp : o.pipe? c = some p) :
    o'.pipe? c = some (pipeNext platform s.creg p).2 := by
  rw [exec_next_run hphase] at hexec
  obtain rfl := Host.Outcome.next.inj hexec
  obtain rfl : o.afterSample platform s.creg = o' := Phase.run.inj hphase'
  rw [Organ.afterSample, Organ.pipe?_mapPipes, hp, Option.map_some]

/-- Settles O58: a pipe's sample step leaves the slots of its chain. -/
theorem lfosAlwaysRun : Obligations.LfosAlwaysRun := fun s _ _ _ _ p hphase hexec hphase' hp =>
  ⟨(pipeNext platform s.creg p).2, pipe?_of_exec_next hphase hexec hphase' hp, chainModF_snd platform s.creg p.slots p.freq0⟩

end Sys2Proof.Machine

/-! PROOF. The key transition and the accounting (43_mixer.md R250 to R253): what SETKEY does to one pipe, that every step keeps
ACC the exact sum of the pressed keys' drawbar volumes, and that a release undoes a press. -/

namespace Sys2Proof.Machine

open F64

/-! The key transition -/

section
variable {f : CregFile} {k : CodeField} {pressed : Bool} {o : Organ}

theorem keyTransition_of_eq (h : o.keyPressed k = pressed) : keyTransition f k pressed o = o := if_pos h

theorem keyTransition_of_ne (h : o.keyPressed k ≠ pressed) :
    keyTransition f k pressed o = drawbarLoop f pressed (codeOf k) (o.drawbars f) (o.setKey k pressed) := if_neg h

/-- Either way the key is in the state asked for, and no other key changes. -/
theorem keyPressed_keyTransition (f : CregFile) (k : CodeField) (pressed : Bool) (o : Organ) (k' : CodeField) :
    (keyTransition f k pressed o).keyPressed k' = if k' = k then pressed else o.keyPressed k' := by
  by_cases h : o.keyPressed k = pressed
  · rw [keyTransition_of_eq h]
    split
    · next hk => rw [hk, h]
    · rfl
  · obtain ⟨hkey, -⟩ := drawbarLoop_frame f pressed (codeOf k) (o.drawbars f) (o.setKey k pressed)
    rw [keyTransition_of_ne h, ← Organ.keyPressed_setKey, Organ.keyPressed, Organ.keyPressed]
    simp only [hkey]

/-- The transition writes KEY and the pipes only. -/
theorem keyTransition_frame (f : CregFile) (k : CodeField) (pressed : Bool) (o : Organ) :
    keyTransition f k pressed o
      = { o with key := (keyTransition f k pressed o).key, pipes := (keyTransition f k pressed o).pipes } := by
  by_cases h : o.keyPressed k = pressed
  · rw [keyTransition_of_eq h]
  · obtain ⟨-, hdv, hcomp, hlo, hslots, -⟩ := drawbarLoop_frame f pressed (codeOf k) (o.drawbars f) (o.setKey k pressed)
    rw [keyTransition_of_ne h]
    generalize drawbarLoop f pressed (codeOf k) (o.drawbars f) (o.setKey k pressed) = o' at *
    cases o'
    simp_all

/-- A pipe is changed by the drawbars whose offset reaches it, in increasing order. -/
theorem pipe?_keyTransition_of_ne (h : o.keyPressed k ≠ pressed) (c : Int) :
    (keyTransition f k pressed o).pipe? c = (o.pipe? c).map fun p =>
      ((o.drawbars f).filter fun d => decide (codeOf k + d.2 = c)).foldl (fun p d => drawbarEffect f pressed d.1 p) p := by
  rw [keyTransition_of_ne h, pipe?_drawbarLoop]
  rfl

end

/-! The accounting (43_mixer.md R252) -/

theorem pressedShare_congr {o o' : Organ} (hkey : ∀ k, o'.keyPressed k = o.keyPressed k) (drawbars : List (F64 × Int)) (c : Int) :
    pressedShare o' drawbars c = pressedShare o drawbars c := by
  simp only [pressedShare, hkey]

/-- The accounting reads the keys, DV and the accumulators only. -/
theorem AccountingOk.congr {f : CregFile} {o o' : Organ} (h : AccountingOk f o) (hkey : o'.key = o.key) (hdv : o'.dv = o.dv)
    (hacc : ∀ c, (o'.pipe? c).map Pipe.acc = (o.pipe? c).map Pipe.acc) : AccountingOk f o' := by
  intro c p hp
  obtain ⟨q, hq, haccq⟩ : ∃ q, o.pipe? c = some q ∧ q.acc = p.acc := by
    simpa [hp, eq_comm] using hacc c
  have hshare : pressedShare o' (o'.drawbars f) c = pressedShare o (o.drawbars f) c := by
    rw [Organ.drawbars, hdv]
    exact pressedShare_congr (fun k => by simp only [Organ.keyPressed, hkey]) _ c
  rw [hshare, ← haccq]
  exact h c q hq

theorem keyPressed_builtOrgan (pf : Platform) (f : CregFile) (k : CodeField) : (builtOrgan pf f).keyPressed k = false :=
  Vector.getElem_replicate _

/-- With no key pressed nothing is owed, and BUILD sets every accumulator to +0.0. -/
theorem AccountingOk.built (pf : Platform) (f : CregFile) : AccountingOk f (builtOrgan pf f) := by
  intro c p hp
  obtain ⟨c', -, rfl⟩ := List.mem_map.1 (Organ.mem_of_pipe? hp)
  have hshare : pressedShare (builtOrgan pf f) ((builtOrgan pf f).drawbars f) c = 0 := by
    rw [pressedShare_eq]
    exact Finset.sum_eq_zero fun n _ => by rw [keyPressed_builtOrgan, if_neg (by decide)]
  exact ⟨by rfl, sign_zero, hshare.symm ▸ value_zero⟩

/-- Rewriting pipes by a rule that keeps their accumulators. -/
theorem Organ.map_acc_apply {g : Pipe → Pipe} (hg : ∀ p, (g p).acc = p.acc) (o : Organ) (sel : PipeOperand) (c : Int) :
    ((o.apply sel g).pipe? c).map Pipe.acc = (o.pipe? c).map Pipe.acc := by
  rw [Organ.pipe?_apply]
  split
  · rw [Option.map_map]
    exact congrArg (Option.map · _) (funext hg)
  · rfl

theorem AccountingOk.apply {f : CregFile} {o : Organ} (h : AccountingOk f o) {g : Pipe → Pipe} (hg : ∀ p, (g p).acc = p.acc)
    (sel : PipeOperand) : AccountingOk f (o.apply sel g) := by
  obtain ⟨hframe, -⟩ := o.rewrittenBy_apply sel g
  exact h.congr (by rw [hframe]) (by rw [hframe]) (o.map_acc_apply hg sel)

/-- No rule of a pipe or slot command writes an accumulator. -/
theorem pipeRule_acc {s : State} {i : Instr} {g : Pipe → Pipe} (hrule : pipeRule s i = some g) (p : Pipe) : (g p).acc = p.acc := by
  cases i with
  | pact | pvol | patk | pdec | psus | prel | pftype | pvrate | pvint => cases hrule; rfl
  | _ => cases hrule

theorem mem_drawbars_eighths {f : CregFile} (hf : CregOk f) {o : Organ} (ho : OrganOk f o) {d : F64 × Int}
    (hd : d ∈ o.drawbars f) : ∃ n : Nat, n ≤ 8 ∧ IsEighths d.1 n := by
  have hdv : d.1 ∈ o.dv := (List.of_mem_zip hd).1
  exact drawbarVolume_eighths hf (ho.dv ▸ hdv)

theorem length_drawbars_le (f : CregFile) (o : Organ) : (o.drawbars f).length ≤ 16 := by
  rw [Organ.drawbars, List.length_zip]
  simp

/-- The drawbars that reach a pipe add or take away their volumes exactly, where the result is not negative. -/
theorem isEighths_foldl_drawbarEffect (f : CregFile) {pressed : Bool} {ds : List (F64 × Int)} {p : Pipe} {n m n' : Nat}
    (hds : ∀ d ∈ ds, ∃ m : Nat, m ≤ 8 ∧ IsEighths d.1 m) (hlen : ds.length ≤ 16) (hacc : IsEighths p.acc n) (hn : n < 2 ^ 52)
    (hm : (ds.map fun d => value d.1).sum = m * eighthUnits) (hn' : (n' : Int) = if pressed then (n : Int) + m else n - m) :
    IsEighths (ds.foldl (fun p d => drawbarEffect f pressed d.1 p) p).acc n' := by
  cases pressed with
  | true =>
    obtain ⟨m', hm', -, hpress⟩ := fold_press f ds p n hds hacc (by omega)
    obtain rfl : m' = m := eighths_inj (hm'.trans hm)
    obtain rfl : n' = n + m' := by rw [if_pos rfl] at hn'; omega
    exact hpress
  | false =>
    rw [if_neg (by simp)] at hn'
    obtain rfl : n' = n - m := by omega
    exact fold_release f ds p n m hds hacc (by omega) hm.symm (by omega)

/-- Turning a key over changes every accumulator by what the key adds. What a release takes away is there, because what the
pressed keys still owe is not negative. -/
theorem AccountingOk.keyTransition {f : CregFile} (hf : CregOk f) {o : Organ} (ho : OrganOk f o) (h : AccountingOk f o)
    (k : CodeField) (pressed : Bool) : AccountingOk f (keyTransition f k pressed o) := by
  by_cases hkey : o.keyPressed k = pressed
  · rwa [keyTransition_of_eq hkey]
  intro c p' hp'
  rw [pipe?_keyTransition_of_ne hkey, Option.map_eq_some_iff] at hp'
  obtain ⟨p, hp, rfl⟩ := hp'
  obtain ⟨hfin, hsign, hvalue⟩ := h c p hp
  obtain ⟨n, hn, hbefore⟩ := pressedShare_eighths hf ho c
  obtain ⟨m, -, hm⟩ := keyShare_eighths hf ho (codeOf k) c
  obtain ⟨n', -, hafter⟩ := pressedShare_eighths hf (ho.keyTransition hf k pressed) c
  have hdrawbars : (Machine.keyTransition f k pressed o).drawbars f = o.drawbars f := by rw [keyTransition_frame]; rfl
  have hn' : (n' : Int) = if pressed then (n : Int) + m else n - m := by
    have hturn := pressedShare_set o _ (o.drawbars f) c k pressed hkey (keyPressed_keyTransition f k pressed o)
    rw [hdrawbars] at hafter
    rw [hafter, hbefore, hm, ← add_mul, ← sub_mul, ← ite_mul] at hturn
    exact mul_right_cancel₀ (by exact_mod_cast eighthUnits_pos.ne') hturn
  have hacc := isEighths_foldl_drawbarEffect f (ds := (o.drawbars f).filter fun d => decide (codeOf k + d.2 = c))
    (fun d hd => mem_drawbars_eighths hf ho (List.mem_of_mem_filter hd))
    ((List.length_filter_le _ _).trans (length_drawbars_le f o)) ⟨hfin, hsign, hvalue.trans hbefore⟩ (by omega)
    ((keyShare_eq _ _ _).symm.trans hm) hn'
  rw [hafter]
  exact hacc

/-- Every effect of a command keeps the accounting: only SETKEY turns a key over or writes an accumulator of an organ that
stands. -/
theorem Effect.accounted {s t : State} {i : Instr} (h : Effect s i t) (hs : StateOk s) (ha : Accounted s) : Accounted t := by
  cases h with
  | nop | failed | clrst | query => exact ha
  | reset | mismatch => exact fun _ ho => nomatch ho
  | built => rintro _ ⟨⟩; exact .built platform s.creg
  | cfgwF64 _ hphase | cfgwInt _ hphase => exact fun _ ho => nomatch hphase.symm.trans ho
  | setkey hphase k b => rintro _ ⟨⟩; exact (ha _ hphase).keyTransition hs.creg (hs.organ _ hphase) k b
  | next hphase => rintro _ ⟨⟩; exact (ha _ hphase).apply (g := fun p => (pipeNext platform s.creg p).2) (fun _ => rfl) .every
  | pipes hphase _ hrule => rintro _ ⟨⟩; exact (ha _ hphase).apply (pipeRule_acc hrule) _

/-- Settles O14: a step is one effect of a command, a reset, or leaves the configuration and the organ alone. -/
theorem stepKeepsAccounting : Obligations.StepKeepsAccounting := by
  intro s t hs ha hstep
  rcases step_cases hstep with ⟨hcreg, -, hphase⟩ | ⟨rest, rfl | rfl | ⟨i, hexec⟩⟩
  · intro o ho
    rw [hcreg]
    exact ha o (hphase ▸ ho)
  · exact fun _ ho => nomatch ho
  · exact ha
  · exact (effect_of_exec hexec).accounted (hs.congr rfl rfl rfl) ha

/-! SETKEY -/

theorem exec_setkey_run {s : State} {o : Organ} (hphase : s.phase = .run o) (k : CodeField) (pressed : Bool) :
    exec (.setkey k pressed) s = .next (s.setOrgan (keyTransition s.creg k pressed o)) := inRun_run hphase _

/-- Settles O34: a pipe is changed by the drawbars that reach it and by no other (`pipe?_keyTransition_of_ne`), each as
`drawbarEffect` says. -/
theorem setkeyTransition : Obligations.SetkeyTransition := by
  intro s o k pressed hphase
  refine ⟨fun hkey => ?_, fun hkey => ⟨keyTransition s.creg k pressed o, exec_setkey_run hphase k pressed,
    keyTransition_frame _ _ _ _, keyPressed_keyTransition _ _ _ _, pipe?_keyTransition_of_ne hkey⟩⟩
  rw [exec_setkey_run hphase, keyTransition_of_eq hkey, State.setOrgan_eq_self hphase]

@[simp] theorem keyTransition_dv (f : CregFile) (k : CodeField) (pressed : Bool) (o : Organ) :
    (keyTransition f k pressed o).dv = o.dv := by rw [keyTransition_frame]

@[simp] theorem isSome_pipe?_keyTransition (f : CregFile) (k : CodeField) (pressed : Bool) (o : Organ) (c : Int) :
    ((keyTransition f k pressed o).pipe? c).isSome = (o.pipe? c).isSome := by
  by_cases hkey : o.keyPressed k = pressed
  · rw [keyTransition_of_eq hkey]
  · rw [pipe?_keyTransition_of_ne hkey, Option.isSome_map]

/-- The keys determine the accumulators: two organs with the same pipes, drawbars and keys that keep the accounting have the same
ones, bit for bit. -/
theorem AccountingOk.map_acc_eq {f : CregFile} {o o' : Organ} (h : AccountingOk f o) (h' : AccountingOk f o')
    (hkey : ∀ k, o'.keyPressed k = o.keyPressed k) (hdv : o'.dv = o.dv)
    (hpipe : ∀ c, (o'.pipe? c).isSome = (o.pipe? c).isSome) (c : Int) :
    (o'.pipe? c).map Pipe.acc = (o.pipe? c).map Pipe.acc := by
  have hc := hpipe c
  cases hp : o.pipe? c with
  | none =>
    rw [hp, Option.isSome_none, Option.isSome_eq_false_iff, Option.isNone_iff_eq_none] at hc
    rw [hc]
  | some p =>
    rw [hp, Option.isSome_some, Option.isSome_iff_exists] at hc
    obtain ⟨p', hp'⟩ := hc
    obtain ⟨-, hsign, hvalue⟩ := h c p hp
    obtain ⟨-, hsign', hvalue'⟩ := h' c p' hp'
    rw [Organ.drawbars, hdv, pressedShare_congr hkey] at hvalue'
    rw [hp', Option.map_some, Option.map_some, eq_of_value (hsign'.trans hsign.symm) (hvalue'.trans hvalue.symm)]

theorem keyPressed_press_release {o : Organ} {k : CodeField} (hup : o.keyPressed k = false) (f : CregFile) (k' : CodeField) :
    (keyTransition f k false (keyTransition f k true o)).keyPressed k' = o.keyPressed k' := by
  rw [keyPressed_keyTransition, keyPressed_keyTransition]
  split
  · next hk => rw [hk, hup]
  · rfl

/-- Settles O35: both transitions keep the accounting, and after them the keys are what they were. -/
theorem pressThenRelease : Obligations.PressThenRelease := by
  intro s o k hs ha hphase hup
  have ho := hs.organ o hphase
  have hpressed := (ha o hphase).keyTransition hs.creg ho k true
  have hreleased := hpressed.keyTransition hs.creg (ho.keyTransition hs.creg k true) k false
  have hkeys := keyPressed_press_release hup s.creg
  exact ⟨_, _, _, exec_setkey_run hphase k true, exec_setkey_run rfl k false, rfl, hkeys,
    (ha o hphase).map_acc_eq hreleased hkeys (by simp) (by simp)⟩

end Sys2Proof.Machine

/-! PROOF. Construction (43_mixer.md R240 to R242): the organ BUILD makes, the mismatches it refuses, and the bound of COMP. COMP
is at most a rounded reciprocal, so its product with the sum is at most half a unit of the last place above 1.0 and rounds
to 1.0. -/

namespace Sys2Proof.F64

/-! A rounded reciprocal times its argument -/

/-- Rounding a normal value raises it by at most half a unit of its last place. -/
theorem unitsOfMag_roundMag_le {p d : Nat} (hd : 0 < d) (hnormal : 2 ^ 52 * d ≤ p) :
    2 ^ 53 * (unitsOfMag (roundMag p d) * d) ≤ (2 ^ 53 + 1) * p := by
  have hbinade : 2 ^ 52 * (d * 2 ^ roundStep p d) ≤ p := by
    have hquot : 2 ^ 52 ≤ p / d := by rwa [Nat.le_div_iff_mul_le hd]
    have hlog : 52 + roundStep p d = Nat.log2 (p / d) := by
      have : 52 ≤ Nat.log2 (p / d) := (Nat.le_log2 (by omega)).2 hquot
      unfold roundStep; omega
    have hpow : 2 ^ (52 + roundStep p d) ≤ p / d := by rw [hlog]; exact Nat.log2_self_le (by omega)
    rw [Nat.le_div_iff_mul_le hd, pow_add] at hpow
    linarith
  have hsteps := unitsOfMag_steps (nearestEven_roundStep_le (p := p) hd) fun h => le_nearestEven_roundStep hd h
  have hround : unitsOfMag (roundMag p d) ≤ nearestEven p (d * 2 ^ roundStep p d) * 2 ^ roundStep p d := by
    rw [← hsteps]
    exact unitsOfMag_strictMono.monotone (Nat.min_le_left _ _)
  obtain ⟨-, hnear⟩ := nearestEven_bounds p (d := d * 2 ^ roundStep p d) (by positivity)
  have hmul := Nat.mul_le_mul_right d hround
  calc 2 ^ 53 * (unitsOfMag (roundMag p d) * d)
    _ ≤ 2 ^ 52 * (2 * nearestEven p (d * 2 ^ roundStep p d) * (d * 2 ^ roundStep p d)) := by linarith
    _ ≤ 2 ^ 52 * (2 * p + d * 2 ^ roundStep p d) := Nat.mul_le_mul_left _ hnear
    _ ≤ (2 ^ 53 + 1) * p := by linarith

/-- A value half a unit of the last place above 1.0 lies between 1.0 and its neighbour, and 1.0 is the even one. -/
theorem roundMag_one_tie : roundMag ((2 ^ 53 + 1) * oneUnits) (2 ^ 53) = mag one := by decide +kernel

theorem unitsOfMag_mag_one : unitsOfMag (mag one) = oneUnits := by
  exact_mod_cast (value_of_sign_false (x := one) (by decide)).symm.trans value_one

/-- A reciprocal times its argument, each rounded, is at most 1.0: the quotient lies at most half a unit of its last place above
the exact one, and the tie at 1.0 goes to 1.0. -/
theorem value_mul_le_one_of_le_reciprocal {c x : F64} (hc : isFinite c = true) (hx : isFinite x = true) (hpos : 0 < value x)
    (hnormal : 2 ^ 52 * units x ≤ oneUnits * oneUnits) (hc0 : 0 ≤ value c) (hle : value c ≤ value (div one x)) :
    value (mul c x) ≤ value one := by
  have hsx := sign_of_value_pos hpos
  have hux : value x = units x := value_of_sign_false hsx
  have hquot : value (div one x) = unitsOfMag (roundMag (oneUnits * oneUnits) (units x)) := by
    rw [div_of_finite (by decide) hx hpos.ne', hsx, rounded, show units one = oneUnits from unitsOfMag_mag_one,
      value_ofMag (roundMag_lt _ _)]
    rfl
  have huc : units c ≤ unitsOfMag (roundMag (oneUnits * oneUnits) (units x)) := by
    rw [← natAbs_value]; omega
  have hrel := unitsOfMag_roundMag_le (p := oneUnits * oneUnits) (d := units x) (by omega) hnormal
  have hmag : roundMag (units c * units x) oneUnits ≤ mag one := by
    rw [← roundMag_one_tie]
    refine roundMag_mono oneUnits_pos (by positivity) ?_
    have := Nat.mul_le_mul_right (units x) huc
    linarith
  have hunits := unitsOfMag_strictMono.monotone hmag
  rw [unitsOfMag_mag_one] at hunits
  rw [mul_of_finite hc hx, rounded, value_ofMag (roundMag_lt _ _), value_one]
  split <;> omega

end Sys2Proof.F64

namespace Sys2Proof.Machine

open F64

/-! The drawbar volumes and COMP (43_mixer.md R242) -/

theorem length_drawbarVolumes {f : CregFile} (hf : CregOk f) : ((drawbarVolumes f).length : Int) = f.ndraw := by
  obtain ⟨hlo, hhi⟩ : 0 ≤ f.ndraw ∧ f.ndraw ≤ 16 := hf.int .ndraw
  rw [drawbarVolumes, List.length_map, List.length_take, Vector.length_toList]
  omega

theorem oneUnits_eq_eighths : oneUnits = 8 * eighthUnits := by rw [eighthUnits_eq]; decide +kernel

/-- Sums of eighths are exact (10_state.md R49). -/
theorem foldl_add_eighths {volumes : List F64} {a : F64} {n : Nat} (hall : ∀ v ∈ volumes, ∃ m : Nat, m ≤ 8 ∧ IsEighths v m)
    (ha : IsEighths a n) (hlen : n + 8 * volumes.length < 2 ^ 53) :
    ∃ m, m ≤ n + 8 * volumes.length ∧ IsEighths (volumes.foldl F64.add a) m := by
  induction volumes generalizing a n with
  | nil => exact ⟨n, le_rfl, ha⟩
  | cons v rest ih =>
    rw [List.length_cons] at hlen ⊢
    obtain ⟨m, hm, hfin, hsign, hvalue⟩ := hall v List.mem_cons_self
    obtain ⟨hafin, hasign, havalue⟩ := ha
    have hsum : IsEighths (F64.add a v) (n + m) :=
      add_eighths hafin hfin (by rw [havalue, hvalue]; push_cast; ring) (by omega) (.inl hasign)
    obtain ⟨m', hm', hrest⟩ := ih (fun v' hv' => hall v' (List.mem_cons_of_mem v hv')) hsum (by omega)
    exact ⟨m', by omega, hrest⟩

/-- The sum of the drawbar volumes is exact, and at most 16.0. -/
theorem drawbarSum_bounds {f : CregFile} (hf : CregOk f) :
    F64.isFinite ((drawbarVolumes f).foldl F64.add F64.zero) = true
      ∧ F64.sign ((drawbarVolumes f).foldl F64.add F64.zero) = false
      ∧ value ((drawbarVolumes f).foldl F64.add F64.zero) ≤ 16 * oneUnits := by
  have hlen := length_drawbarVolumes hf
  obtain ⟨-, hhi⟩ : 0 ≤ f.ndraw ∧ f.ndraw ≤ 16 := hf.int .ndraw
  obtain ⟨n, hn, hfin, hsign, hvalue⟩ := foldl_add_eighths (fun v hv => drawbarVolume_eighths hf hv)
    (a := F64.zero) (n := 0) ⟨by decide, by decide, by rw [value_zero]; simp⟩ (by omega)
  refine ⟨hfin, hsign, ?_⟩
  rw [hvalue, oneUnits_eq_eighths]
  push_cast
  nlinarith [eighthUnits_pos]

/-- CompensationOf as a function of the sum of the volumes. -/
def compensationFor (sigma : F64) : F64 :=
  if F64.eq sigma F64.zero then F64.one else F64.min F64.one (F64.div F64.one sigma)

theorem compensationOf_eq (dv : List F64) : compensationOf dv = compensationFor (dv.foldl F64.add F64.zero) := rfl

/-- 1/16, the reciprocal of the greatest sum: 16 drawbars at 1.0. -/
def sixteenth : F64 := 0x3FB0000000000000#64

theorem value_sixteenth : value sixteenth * 16 = oneUnits := by decide +kernel

section
variable {sigma : F64} (hfin : F64.isFinite sigma = true)
include hfin

theorem compensationFor_of_zero (hzero : value sigma = 0) : compensationFor sigma = F64.one := by
  refine if_pos ?_
  rw [eq_iff (isNaN_of_finite hfin) (by decide), hzero, value_zero]

theorem compensationFor_of_pos (hpos : 0 < value sigma) : compensationFor sigma = F64.min F64.one (F64.div F64.one sigma) := by
  refine if_neg ?_
  rw [eq_iff (isNaN_of_finite hfin) (by decide), value_zero]
  exact hpos.ne'

/-- The reciprocal of a sum of at most 16.0 is at least 1/16. -/
theorem reciprocal_bounds (hpos : 0 < value sigma) (hle : value sigma ≤ 16 * oneUnits) :
    F64.isNaN (F64.div F64.one sigma) = false ∧ F64.sign (F64.div F64.one sigma) = false
      ∧ value sixteenth ≤ value (F64.div F64.one sigma) := by
  refine ⟨isNaN_div_of_finite (by decide) hfin (.inr hpos.ne'), ?_, le_value_div (by decide) hfin (by decide) hpos ?_⟩
  · rw [sign_div_of_finite (by decide) hfin hpos.ne', sign_of_value_pos hpos]; decide
  · have hscaled := mul_le_mul_of_nonneg_left hle (show 0 ≤ value sixteenth by decide +kernel)
    rw [← mul_assoc, value_sixteenth] at hscaled
    rwa [value_one]

/-- COMP lies in [1/16, 1.0] (43_mixer.md R242). -/
theorem within_compensationFor (hsign : F64.sign sigma = false) (hle : value sigma ≤ 16 * oneUnits) :
    Within sixteenth F64.one (compensationFor sigma) := by
  have hone : Within sixteenth F64.one F64.one := ⟨by decide, by decide, by decide⟩
  rcases (value_nonneg_of_sign_false hsign).eq_or_lt with hzero | hpos
  · rwa [compensationFor_of_zero hfin hzero.symm]
  · obtain ⟨hnan, hqsign, hge⟩ := reciprocal_bounds hfin hpos hle
    rw [compensationFor_of_pos hfin hpos, F64.min]
    split
    · exact hone
    · next hlt =>
      rw [le_iff (by decide) hnan, not_le] at hlt
      exact within_of_value (by decide) (by decide) hnan hge hlt.le hqsign

/-- COMP is at most the rounded reciprocal of the sum. -/
theorem value_compensationFor_le (hpos : 0 < value sigma) (hle : value sigma ≤ 16 * oneUnits) :
    value (compensationFor sigma) ≤ value (F64.div F64.one sigma) := by
  obtain ⟨hnan, -, -⟩ := reciprocal_bounds hfin hpos hle
  rw [compensationFor_of_pos hfin hpos, F64.min]
  split
  · next hone => rwa [le_iff (by decide) hnan] at hone
  · exact le_rfl

/-- I7: COMP times the sum is at most 1.0 (10_state.md R50). -/
theorem value_compensationFor_mul_le (hsign : F64.sign sigma = false) (hle : value sigma ≤ 16 * oneUnits) :
    value (F64.mul (compensationFor sigma) sigma) ≤ value F64.one := by
  have hw := within_compensationFor hfin hsign hle
  have hcfin : F64.isFinite (compensationFor sigma) = true := hw.isFinite (by decide)
  rcases (value_nonneg_of_sign_false hsign).eq_or_lt with hzero | hpos
  · refine value_mul_le hcfin hfin (by decide) ?_
    rw [← hzero, mul_zero, value_one]
    exact mul_nonneg (Int.natCast_nonneg _) (Int.natCast_nonneg _)
  · have hunits : (units sigma : Int) = value sigma := (value_of_sign_false hsign).symm
    have hnormal : 2 ^ 52 * units sigma ≤ oneUnits * oneUnits := by
      have h16 : 2 ^ 52 * 16 ≤ oneUnits := by decide +kernel
      calc 2 ^ 52 * units sigma ≤ 2 ^ 52 * (16 * oneUnits) := Nat.mul_le_mul_left _ (by omega)
        _ = 2 ^ 52 * 16 * oneUnits := (Nat.mul_assoc _ _ _).symm
        _ ≤ oneUnits * oneUnits := Nat.mul_le_mul_right _ h16
    exact value_mul_le_one_of_le_reciprocal hcfin hfin hpos hnormal hw.nonneg (value_compensationFor_le hfin hpos hle)

end

theorem OrganOk.comp_eq {f : CregFile} {o : Organ} (ho : OrganOk f o) :
    o.comp = compensationFor ((drawbarVolumes f).foldl F64.add F64.zero) := by
  rw [ho.comp, ho.dv, compensationOf_eq]

theorem OrganOk.within_comp {f : CregFile} (hf : CregOk f) {o : Organ} (ho : OrganOk f o) : Within sixteenth F64.one o.comp := by
  obtain ⟨hfin, hsign, hle⟩ := drawbarSum_bounds hf
  rw [ho.comp_eq]
  exact within_compensationFor hfin hsign hle

/-- Settles O33: the rounded reciprocal of the sum times the sum is at most 1.0, and COMP is at least 1/16. -/
theorem compensationBound : Obligations.CompensationBound := by
  intro s o hs hphase
  have ho := hs.organ o hphase
  obtain ⟨hfin, hsign, hle⟩ := drawbarSum_bounds hs.creg
  have hw := ho.within_comp hs.creg
  rw [ho.dv]
  constructor
  · rw [le_iff (isNaN_mul_of_finite (hw.isFinite (by decide)) hfin) (by decide), ho.comp_eq]
    exact value_compensationFor_mul_le hfin hsign hle
  · rw [lt_iff (by decide) hw.isNaN, value_zero]
    exact lt_of_lt_of_le (by decide +kernel) hw.value_ge

/-! BUILD -/

/-- The pipes in increasing code order. -/
theorem Organ.pipe?_pipeLo_add (o : Organ) (n : Nat) : o.pipe? (o.pipeLo + n) = o.pipes[n]? := by
  have hplace : o.place (o.pipeLo + n) = n := by unfold Organ.place; omega
  rw [Organ.pipe?, hplace]
  split
  · rfl
  · next hno =>
    rw [Organ.hasPipe_iff] at hno
    exact (List.getElem?_eq_none (by omega)).symm

theorem exec_build_config {s : State} (hphase : s.phase = .config) : exec .build s = .next (buildCommand platform s) :=
  inConfig_config hphase _

theorem configMismatch_iff (f : CregFile) : configMismatch f = true ↔ f.ndraw ≠ f.nratio ∨ f.pipeHi < f.pipeLo := by
  simp [configMismatch]

theorem exec_next_failed {s : State} (hphase : s.phase = .failed) : exec .next s = raise .phase s := by
  show inRun s _ = _
  rw [inRun, hphase]

/-- Only RESET leaves FAILED: every other command that writes PHASE is of another phase. -/
theorem Effect.failed_of_failed {s t : State} {i : Instr} (h : Effect s i t) (hphase : s.phase = .failed) (hi : i ≠ .reset) :
    t.phase = .failed := by
  cases h with
  | reset => exact absurd rfl hi
  | mismatch => rfl
  | built hother | setkey hother | next hother | pipes hother => exact nomatch hphase.symm.trans hother
  | _ => exact hphase

/-- Settles O32: BUILD's own check, and the effects of the commands in FAILED. -/
theorem buildMismatchFails : Obligations.BuildMismatchFails := by
  intro s hphase hm
  refine ⟨?_, fun _ => exec_next_failed, fun _ _ _ hfailed hi hexec => (effect_of_exec hexec).failed_of_failed hfailed hi⟩
  rw [exec_build_config hphase, buildCommand, if_pos ((configMismatch_iff _).2 hm)]
  rfl

theorem getElem?_drawbarVolumes {f : CregFile} (i : Fin 16) (hi : (i.val : Int) < f.ndraw) :
    (drawbarVolumes f)[i.val]? = some (F64.div (F64.ofInt f.drawbar[i]) F64.eight) := by
  have hlt : i.val < f.ndraw.toNat := by omega
  rw [drawbarVolumes, List.getElem?_map, List.getElem?_take_of_lt hlt]
  simp

/-- BUILD makes a pipe for every code of the range and for no other. -/
theorem pipe?_builtOrgan (pf : Platform) (f : CregFile) (c : Int) :
    (builtOrgan pf f).pipe? c = if f.pipeLo ≤ c ∧ c ≤ f.pipeHi then some (builtPipe pf f c) else none := by
  have hlen : (builtOrgan pf f).pipes.length = (f.pipeHi - f.pipeLo + 1).toNat := by simp [builtOrgan, pipeCodes]
  split
  · next h =>
    obtain ⟨n, rfl⟩ : ∃ n : Nat, c = f.pipeLo + n := ⟨(c - f.pipeLo).toNat, by omega⟩
    refine (Organ.pipe?_pipeLo_add (builtOrgan pf f) n).trans ?_
    have hn : n < (f.pipeHi - f.pipeLo + 1).toNat := by omega
    simp [builtOrgan, pipeCodes, hn]
  · next h =>
    refine Organ.pipe?_eq_none (Bool.eq_false_iff.2 fun hc => h ?_)
    rw [Organ.hasPipe_iff, hlen] at hc
    have hlo : (builtOrgan pf f).pipeLo = f.pipeLo := rfl
    omega

/-- Settles O31: the organ is `builtOrgan`, and each of its parts is what the rule lists. -/
theorem buildMakesTheOrgan : Obligations.BuildMakesTheOrgan := by
  intro s hf hphase hsizes hrange
  have hm : ¬configMismatch s.creg = true := by rw [configMismatch_iff]; omega
  refine ⟨builtOrgan platform s.creg, ?_, length_drawbarVolumes hf, getElem?_drawbarVolumes, rfl, keyPressed_builtOrgan _ _,
    (OrganOk.built platformOk hf (by simpa using hm)).filterSlots, pipe?_builtOrgan _ _⟩
  rw [exec_build_config hphase, buildCommand, if_neg hm]
  rfl

end Sys2Proof.Machine

/-! PROOF. The sample step (43_mixer.md R255 to R258): the order of a pipe's updates, the ordered sum and its bound, and that
silence lasts until a key or an activate. -/

namespace Sys2Proof.F64

/-! Ordered sums and products -/

theorem ofInt_natCast {n : Nat} (hn : n < 2 ^ 53) :
    isFinite (ofInt n) = true ∧ sign (ofInt n) = false ∧ value (ofInt n) = n * oneUnits := by
  obtain ⟨m, hm⟩ : ∃ m, unitsOfMag m = n * oneUnits := exists_mag 1074 n hn
  have hlt : m < infMag := by
    rw [← unitsOfMag_strictMono.lt_iff_lt, hm]
    exact lt_trans (Nat.mul_lt_mul_of_pos_right hn oneUnits_pos) (by decide +kernel)
  have hround : roundMag (n * oneUnits) 1 = m := by
    rw [← hm, ← Nat.mul_one (unitsOfMag m)]; exact roundMag_exact Nat.one_pos hlt.le
  have hof : ofInt n = ofMag false m := by
    rw [ofInt, Int.natAbs_natCast, hround, decide_eq_false (by omega)]
  have h63 : m < 2 ^ 63 := lt_trans hlt infMag_lt
  rw [hof]
  refine ⟨isFinite_ofMag hlt, sign_ofMag _ h63, ?_⟩
  rw [value_ofMag h63, if_neg (by simp), hm]
  push_cast; rfl

/-- A rounded sum is at most any value that bounds the sum of the magnitudes. -/
theorem abs_value_add_le {a b c : F64} (ha : isFinite a = true) (hb : isFinite b = true) (hc : isFinite c = true)
    (h : |value a| + |value b| ≤ value c) : isFinite (add a b) = true ∧ |value (add a b)| ≤ value c := by
  have habs := (abs_add_le (value a) (value b)).trans h
  rw [abs_le] at habs
  obtain ⟨hlo, hhi⟩ := habs
  have hneg : isFinite (neg c) = true := by rw [isFinite_neg]; exact hc
  have hle := value_add_le ha hb (isNaN_of_finite hc) hhi
  have hge := le_value_add ha hb (isNaN_of_finite hneg) (by rwa [value_neg])
  refine ⟨isFinite_of_bounds hneg hc hge hle, abs_le.2 ⟨?_, hle⟩⟩
  rwa [value_neg] at hge

/-- The ordered rounded sum of samples of magnitude at most 1.0 is at most their number. -/
theorem foldl_add_bounded {samples : List F64} {a : F64} {k : Nat}
    (hall : ∀ x ∈ samples, isFinite x = true ∧ |value x| ≤ oneUnits) (ha : isFinite a = true) (hk : |value a| ≤ k * oneUnits)
    (hlen : k + samples.length < 2 ^ 53) :
    isFinite (samples.foldl add a) = true ∧ |value (samples.foldl add a)| ≤ (k + samples.length : Nat) * oneUnits := by
  induction samples generalizing a k with
  | nil => exact ⟨ha, hk⟩
  | cons x rest ih =>
    rw [List.length_cons] at hlen ⊢
    obtain ⟨hx, hxu⟩ := hall x List.mem_cons_self
    obtain ⟨hc, -, hv⟩ := ofInt_natCast (n := k + 1) (by omega)
    obtain ⟨hfin, hsum⟩ := abs_value_add_le ha hx hc (by rw [hv]; push_cast; linarith)
    rw [hv] at hsum
    have hrest := ih (fun y hy => hall y (List.mem_cons_of_mem x hy)) hfin hsum (by omega)
    rwa [Nat.add_assoc, Nat.add_comm 1] at hrest

theorem units_rounded (b : Bool) (n d : Nat) : units (rounded b n d) = unitsOfMag (roundMag n d) := by
  rw [units, mag_rounded]

/-- The magnitude of a product grows with the magnitudes of the factors. -/
theorem units_mul_le {a b a' b' : F64} (ha : isFinite a = true) (hb : isFinite b = true) (ha' : isFinite a' = true)
    (hb' : isFinite b' = true) (h : units a * units b ≤ units a' * units b') : units (mul a b) ≤ units (mul a' b') := by
  rw [mul_of_finite ha hb, mul_of_finite ha' hb', units_rounded, units_rounded]
  exact unitsOfMag_strictMono.monotone (roundMag_mono oneUnits_pos oneUnits_pos (Nat.mul_le_mul_right _ h))

theorem isFinite_of_units_le {x y : F64} (hy : isFinite y = true) (h : units x ≤ units y) : isFinite x = true := by
  rw [isFinite_iff] at hy ⊢
  exact (unitsOfMag_strictMono.le_iff_le.1 h).trans_lt hy

theorem add_zero_zero : add zero zero = zero := by decide

theorem foldl_add_zero {samples : List F64} (h : ∀ x ∈ samples, x = zero) : samples.foldl add zero = zero := by
  induction samples with
  | nil => rfl
  | cons x rest ih =>
    rw [List.foldl_cons, h x List.mem_cons_self, add_zero_zero]
    exact ih fun y hy => h y (List.mem_cons_of_mem x hy)

/-- Zero times a finite value whose sign bit is 0. -/
theorem zero_mul_of_sign_false {x : F64} (hfin : isFinite x = true) (hsign : sign x = false) : mul zero x = zero := by
  have hunits : units zero = 0 := by decide
  rw [mul_of_finite (by decide) hfin, hsign, hunits, Nat.zero_mul, rounded, roundMag_zero]
  decide

end Sys2Proof.F64

namespace Sys2Proof.Machine

open F64

/-! The ordered sum -/

theorem abs_value_eq_units (x : F64) : |value x| = units x := by rw [← natAbs_value, Int.natCast_natAbs]

/-- The order of nonnegative values is that of their units. -/
theorem le_abs_of_units_le {x y : F64} (hy : isFinite y = true) (hsign : sign y = false) (h : units x ≤ units y) :
    le (F64.abs x) y = true := by
  rw [le_iff ((isNaN_abs x).trans (isNaN_of_finite (isFinite_of_units_le hy h))) (isNaN_of_finite hy), value_abs,
    abs_value_eq_units, value_of_sign_false hsign]
  exact_mod_cast h

/-- A fold over the places of a list is a fold over the list. -/
theorem foldl_range_of_getElem? {α β : Type} {g : β → α → β} (l : List α) {step : β → Nat → β} (b : β)
    (hstep : ∀ b n a, l[n]? = some a → step b n = g b a) : (List.range l.length).foldl step b = l.foldl g b := by
  induction l generalizing step b with
  | nil => rfl
  | cons a l ih =>
    rw [List.length_cons, List.range_succ_eq_map, List.foldl_cons, List.foldl_map, List.foldl_cons, hstep b 0 a rfl]
    exact ih _ fun b n a' ha' => hstep b (n + 1) a' ha'

/-- Settles O36: the samples are folded in the order of the pipes, and a pipe's sample step keeps its accumulator. -/
theorem nextSumsThePipes : Obligations.NextSumsThePipes := by
  intro s o hphase
  refine ⟨o.afterSample platform s.creg, ?_, ⟨rfl, fun c => Organ.pipe?_mapPipes o _ c⟩,
    o.map_acc_apply (g := fun p => (pipeNext platform s.creg p).2) (fun _ => rfl) .every⟩
  rw [exec_next_run hphase, foldl_range_of_getElem? (g := fun sum p => F64.add sum (pipeNext platform s.creg p).1) o.pipes,
    ← List.foldl_map]
  · rfl
  · intro sum n p hp
    rw [Organ.pipe?_pipeLo_add, hp]

/-- The samples of a good organ are finite and of magnitude at most 1.0 (40_oscillator.md R147). -/
theorem OrganOk.sample_bounds {f : CregFile} (hf : CregOk f) {o : Organ} (ho : OrganOk f o) :
    ∀ x ∈ o.pipes.map fun p => (pipeNext platform f p).1, F64.isFinite x = true ∧ |value x| ≤ oneUnits := by
  refine List.forall_mem_map.2 fun p hp => ?_
  obtain ⟨hok, hfin, hle, -⟩ := (ho.pipes p hp).next platformOk hf
  have hvol := hok.osc.vol.value_le
  rw [value_one] at hvol
  exact ⟨hfin, hle.trans hvol⟩

/-- The number of pipes is a binary64 value. -/
theorem OrganOk.ofInt_length {f : CregFile} (hf : CregOk f) {o : Organ} (ho : OrganOk f o) :
    F64.isFinite (F64.ofInt o.pipes.length) = true ∧ F64.sign (F64.ofInt o.pipes.length) = false
      ∧ value (F64.ofInt o.pipes.length) = o.pipes.length * oneUnits := by
  obtain ⟨hlo, hhi, -⟩ := ho.codes_bounds hf
  exact ofInt_natCast (by omega)

/-- The ordered sum of the samples is at most the number of pipes. -/
theorem OrganOk.sum_bounds {f : CregFile} (hf : CregOk f) {o : Organ} (ho : OrganOk f o) :
    F64.isFinite ((o.pipes.map fun p => (pipeNext platform f p).1).foldl F64.add F64.zero) = true
      ∧ units ((o.pipes.map fun p => (pipeNext platform f p).1).foldl F64.add F64.zero) ≤ units (F64.ofInt o.pipes.length) := by
  obtain ⟨hlo, hhi, -⟩ := ho.codes_bounds hf
  obtain ⟨-, hnsign, hn⟩ := ho.ofInt_length hf
  have hzero : |value F64.zero| ≤ (0 : Nat) * oneUnits := by decide
  obtain ⟨hfin, hsum⟩ := foldl_add_bounded (ho.sample_bounds hf) (by decide) hzero (by rw [List.length_map]; omega)
  rw [List.length_map, Nat.zero_add, ← hn, value_of_sign_false hnsign, abs_value_eq_units] at hsum
  exact ⟨hfin, by exact_mod_cast hsum⟩

/-- Settles O38: the sum is at most the number of pipes, and the magnitude of a product grows with those of its factors. -/
theorem sampleIsBounded : Obligations.SampleIsBounded := by
  intro s t o hs hphase hexec
  rw [exec_next_run hphase] at hexec
  obtain rfl := Host.Outcome.next.inj hexec
  have ho := hs.organ o hphase
  have hcomp := ho.within_comp hs.creg
  have hcfin : F64.isFinite o.comp = true := hcomp.isFinite (by decide)
  obtain ⟨hnfin, hnsign, -⟩ := ho.ofInt_length hs.creg
  obtain ⟨hsfin, hsum⟩ := ho.sum_bounds hs.creg
  have htop : F64.isFinite (F64.mul o.comp (F64.ofInt o.pipes.length)) = true :=
    isFinite_mul_unit hcfin (by rw [abs_of_nonneg hcomp.nonneg]; exact hcomp.value_le) hnfin
  have htopsign : F64.sign (F64.mul o.comp (F64.ofInt o.pipes.length)) = false := by
    rw [sign_mul_of_finite hcfin hnfin, hcomp.sign, hnsign]; rfl
  have hunits : units (o.sample platform s.creg) ≤ units (F64.mul o.comp (F64.ofInt o.pipes.length)) :=
    units_mul_le hsfin hcfin hcfin hnfin (Nat.mul_comm _ _ ▸ Nat.mul_le_mul_left _ hsum)
  exact ⟨isFinite_of_units_le htop hunits, le_abs_of_units_le htop htopsign hunits⟩

theorem exec_next_inv {s t : State} (hrun : s.phase.isRun = true) (hexec : exec .next s = .next t) :
    ∃ o, s.phase = .run o ∧ t = nextCommand platform o s := by
  cases hphase : s.phase with
  | config | failed => rw [hphase] at hrun; cases hrun
  | run o => exact ⟨o, rfl, (Host.Outcome.next.inj ((exec_next_run hphase).symm.trans hexec)).symm⟩

/-- Settles O40: NEXT's sample and organ are functions of the configuration and the organ. -/
theorem sampleDependsOnOrganOnly : Obligations.SampleDependsOnOrganOnly := by
  intro s s' t t' hcreg hphase hrun hexec hexec'
  obtain ⟨o, ho, rfl⟩ := exec_next_inv hrun hexec
  obtain ⟨o', ho', rfl⟩ := exec_next_inv (hphase ▸ hrun) hexec'
  obtain rfl : o = o' := Phase.run.inj (ho.symm.trans (hphase.trans ho'))
  have hresult : o.sample platform s.creg = o.sample platform s'.creg := by rw [hcreg]
  have horgan : Phase.run (o.afterSample platform s.creg) = .run (o.afterSample platform s'.creg) := by rw [hcreg]
  exact ⟨hresult, horgan⟩

/-! A pipe's sample step (43_mixer.md R256) -/

/-- The poll, its conditions written out (41_envelope.md R173, R192). -/
theorem envPoll_eq (f : CregFile) (e : Envelope) :
    envPoll f e =
      if f.envDecayPoll = 1 ∧ e.gate = true ∧ F64.le (F64.sub F64.one f.negligible) e.vol = true
          ∧ F64.lt f.negligible e.decay = true ∧ e.count = 0 then
        { e with
          vel := F64.div (F64.sub e.sustain F64.one) (F64.mul e.decay f.sampleRate)
          count := (F64.ceil (F64.mul e.decay f.sampleRate)).toNat }
      else e := by
  split
  · next h =>
    obtain ⟨hpoll, hgate, htriggered⟩ := h
    rw [envPoll, if_pos ⟨hpoll, hgate⟩, decayCheck_of_triggered htriggered]
  · next h => exact envPoll_of_not_triggered h

/-- Settles O37: the envelope's steps at once (`envStep_eq`), the poll written out, and the amplitude hooks, which give the sample
back. -/
theorem pipeStepOrder : Obligations.PipeStepOrder := by
  intro pf f p chain freq stepped e o
  have he : envStep f p.env = e := (envStep_eq f p.env).trans (envPoll_eq f stepped)
  have ho : envDrive f (envStep f p.env) (oscFrequency f chain.1 p.osc) = o := by rw [he]; rfl
  rw [pipeNext, envNext, chainModA_eq, ho, he]

/-! Silence (43_mixer.md R258) -/

/-- A pipe as BUILD makes it is silent (43_mixer.md R240). -/
theorem PipeSilent.built (pf : Platform) (f : CregFile) (c : Int) : PipeSilent (builtPipe pf f c) :=
  ⟨rfl, rfl, rfl, rfl, rfl, rfl, rfl⟩

/-- A level at +0.0 that does not move stays there, and without a gate the poll schedules no decay (41_envelope.md R180). -/
theorem PipeSilent.envStep {p : Pipe} (h : PipeSilent p) (f : CregFile) :
    (envStep f p.env).vol = F64.zero ∧ (envStep f p.env).vel = F64.zero ∧ (envStep f p.env).count = 0 := by
  refine ⟨by rw [envStep_vol, h.vol, h.vel]; decide, ?_⟩
  rw [envStep_eq, envPoll_of_not_triggered (by simp [h.gate])]
  simp [h.count, h.vel]

/-- The sample step of a silent pipe: a level of +0.0 is not above NEGLIGIBLE, so the oscillator stays inactive. -/
theorem PipeSilent.next {p : Pipe} (h : PipeSilent p) (pf : Platform) {f : CregFile} (hf : CregOk f) :
    (pipeNext pf f p).1 = F64.zero ∧ PipeSilent (pipeNext pf f p).2 := by
  obtain ⟨hvol, hvel, hcount⟩ := h.envStep f
  have hinactive : envIsActive f (Machine.envStep f p.env) = false := by
    rw [envIsActive, hvol, Bool.eq_false_iff, Ne, lt_iff hf.negligible.isNaN (by decide), value_zero, not_lt]
    exact hf.negligible.nonneg
  have hosc : oscNext pf f (envDrive f (Machine.envStep f p.env) (oscFrequency f (chainModF pf f p.slots p.freq0).1 p.osc))
      = (F64.zero, envDrive f (Machine.envStep f p.env) (oscFrequency f (chainModF pf f p.slots p.freq0).1 p.osc)) :=
    oscNext_of_silent hinactive h.wasActive h.persist
  simp only [pipeNext, envNext, chainModA_eq, hosc]
  exact ⟨trivial, hvol, hvel, hcount, (envStep_gate f p.env).trans h.gate, hinactive, h.wasActive, h.persist⟩

/-- A release is ignored without a gate (41_envelope.md R174). -/
theorem PipeSilent.modifyEnv_release {p : Pipe} (h : PipeSilent p) (f : CregFile) : p.modifyEnv (envActivate f false) = p := by
  rw [Pipe.modifyEnv, envActivate_off_of_not_gate h.gate]

/-- No command of format P or F but an activating PACT starts a silent pipe. -/
theorem PipeSilent.pipeRule {s : State} {i : Instr} {g : Pipe → Pipe} (hrule : pipeRule s i = some g)
    (hi : ∀ idx all, i ≠ .pact idx all true) {p : Pipe} (h : PipeSilent p) : PipeSilent (g p) := by
  cases i with
  | pact idx all b =>
    cases b with
    | true => exact absurd rfl (hi idx all)
    | false =>
      cases hrule
      show PipeSilent (p.modifyEnv (envActivate s.creg false))
      rwa [h.modifyEnv_release]
  | pvol | patk | pdec | psus | prel | pftype | pvrate | pvint =>
    cases hrule
    exact ⟨h.vol, h.vel, h.count, h.gate, h.active, h.wasActive, h.persist⟩
  | _ => cases hrule

/-- An organ with no key pressed and every pipe silent: what `Silent` asks of the organ there is. -/
def OrganSilent (o : Organ) : Prop := (∀ k, o.keyPressed k = false) ∧ ∀ p ∈ o.pipes, PipeSilent p

theorem silent_setOrgan_iff (s : State) (o : Organ) : Silent (s.setOrgan o) ↔ OrganSilent o :=
  ⟨fun h => h o rfl, fun h _ ho => Phase.run.inj ho ▸ h⟩

theorem OrganSilent.built (pf : Platform) (f : CregFile) : OrganSilent (builtOrgan pf f) := by
  refine ⟨keyPressed_builtOrgan pf f, fun p hp => ?_⟩
  obtain ⟨c, -, rfl⟩ := List.mem_map.1 hp
  exact .built pf f c

theorem OrganSilent.apply {o : Organ} (h : OrganSilent o) {g : Pipe → Pipe} (hg : ∀ p, PipeSilent p → PipeSilent (g p))
    (sel : PipeOperand) : OrganSilent (o.apply sel g) := by
  obtain ⟨hkey, hpipes⟩ := h
  cases sel with
  | every => exact ⟨hkey, List.forall_mem_map.2 fun p hp => hg p (hpipes p hp)⟩
  | one c =>
    refine ⟨fun k => ?_, Organ.forall_modifyPipe hpipes hg⟩
    simpa only [Organ.keyPressed, Organ.apply, Organ.modifyPipe_key] using hkey k

/-- Releasing a key that is up does nothing. -/
theorem OrganSilent.release {o : Organ} (h : OrganSilent o) (f : CregFile) (k : CodeField) :
    keyTransition f k false o = o := keyTransition_of_eq (h.1 k)

/-- Every effect of a command but a press and an activating PACT keeps the silence. -/
theorem Effect.silent {s t : State} {i : Instr} (h : Effect s i t) (hf : CregOk s.creg) (hs : Silent s)
    (hpress : ∀ idx, i ≠ .setkey idx true) (hactivate : ∀ idx all, i ≠ .pact idx all true) : Silent t := by
  cases h with
  | nop | failed | clrst | query => exact hs
  | reset | mismatch => exact fun _ ho => nomatch ho
  | built => exact (silent_setOrgan_iff _ _).2 (.built platform s.creg)
  | cfgwF64 _ hphase | cfgwInt _ hphase => exact fun _ ho => nomatch hphase.symm.trans ho
  | @setkey o hphase k b =>
    cases b with
    | true => exact absurd rfl (hpress k)
    | false =>
      have ho : OrganSilent o := hs o hphase
      rw [ho.release, State.setOrgan_eq_self hphase]
      exact hs
  | @next o hphase =>
    have ho : OrganSilent o := hs o hphase
    exact (silent_setOrgan_iff s _).2
      (ho.apply (g := fun p => (pipeNext platform s.creg p).2) (fun _ hp => (hp.next platform hf).2) .every)
  | @pipes _ o sel g hphase _ hrule =>
    have ho : OrganSilent o := hs o hphase
    exact (silent_setOrgan_iff s _).2 (ho.apply (fun _ hp => hp.pipeRule hrule hactivate) sel)

/-- A silent organ sounds +0.0: the samples are +0.0, and COMP is finite with a sign bit of 0. -/
theorem OrganSilent.sample {f : CregFile} (hf : CregOk f) {o : Organ} (ho : OrganOk f o) (h : OrganSilent o) (pf : Platform) :
    o.sample pf f = F64.zero := by
  obtain ⟨-, hpipes⟩ := h
  have hcomp := ho.within_comp hf
  have hsum : (o.pipes.map fun p => (pipeNext pf f p).1).foldl F64.add F64.zero = F64.zero :=
    foldl_add_zero (List.forall_mem_map.2 fun p hp => ((hpipes p hp).next pf hf).1)
  rw [Organ.sample, mixedSample, hsum, zero_mul_of_sign_false (hcomp.isFinite (by decide)) hcomp.sign]

/-- Settles O16: no effect of the commands left wakes a pipe, and the sum of +0.0 samples is +0.0. -/
theorem silenceIsKept : Obligations.SilenceIsKept := by
  intro i s t hs hsilent hpress hactivate hexec
  refine ⟨(effect_of_exec hexec).silent hs.creg hsilent hpress hactivate, ?_⟩
  rintro rfl hrun
  obtain ⟨o, hphase, rfl⟩ := exec_next_inv hrun hexec
  have ho : OrganSilent o := hsilent o hphase
  exact ho.sample hs.creg (hs.organ o hphase) platform

end Sys2Proof.Machine

/-! PROOF. The control and query commands (44_control.md R280 to R289): the two words with one encoding each, the register file
that CFGW writes and CFGR reads, and the fields that the queries give RESULT. -/

namespace Sys2Proof.Machine

/-! What a query can do (44_control.md R286) -/

theorem pipeRule_of_isQuery {i : Instr} (hi : isQuery i = true) (s : State) : pipeRule s i = none := by
  cases i with
  | cfgr | keyq | pqry | pfq => rfl
  | _ => cases hi

/-- The effect of a query is a value in RESULT or an error. -/
theorem Effect.of_isQuery {i : Instr} {s t : State} (h : Effect s i t) (hi : isQuery i = true) :
    t = s.setResult t.result ∨ ∃ e, t = s.recordError e := by
  cases h with
  | query => exact .inl rfl
  | failed => exact .inr ⟨_, rfl⟩
  | pipes _ _ hrule => rw [pipeRule_of_isQuery hi] at hrule; cases hrule
  | _ => cases hi

/-- Settles O24: CFGR, KEYQ, PQRY and PFQ are the queries, and `Effect` has two forms for them. -/
theorem queriesWriteOnlyResult : Obligations.QueriesWriteOnlyResult := by
  intro i s t hi hexec
  have hquery : isQuery i = true := by
    rw [isQuery_iff]
    rcases hi with h | h | h | h
    exacts [.inr (.inl h), .inr (.inr (.inl h)), .inr (.inr (.inr h)), .inl h]
  exact (effect_of_exec hexec).of_isQuery hquery

/-! The configuration registers (44_control.md R283, R284) -/

theorem exec_cfgw_config {s : State} (hphase : s.phase = .config) (r : Creg) : exec (.cfgw r.number) s = writeCreg s r := by
  rw [exec, execCfgw, Creg.ofNumber_number]
  exact inConfig_config hphase _

theorem writeCreg_f64_of_isFinite {s : State} (hv : F64.isFinite s.opd = true) (r : F64Reg) :
    writeCreg s (.f64 r) = .next (s.setCreg (s.creg.setF64 r (r.stored s.opd))) := by
  rw [writeCreg, checkFinite, if_pos hv]

theorem exec_cfgr (s : State) (r : Creg) : exec (.cfgr r.number) s = .next (s.setResult (s.creg.read64 r)) := by
  rw [exec, execCfgr, Creg.ofNumber_number]

theorem IntReg.lo_le_hi (r : IntReg) : r.lo ≤ r.hi := by
  cases r <;> simp [IntReg.lo, IntReg.hi]

/-- ENV_DECAY_POLL becomes 0 or 1; every other integer register is clamped (10_state.md R41). -/
theorem IntReg.stored_eq (r : IntReg) (n : Int) :
    r.stored n = if r = .envDecayPoll then (if n = 0 then 0 else 1) else max r.lo (min r.hi n) := by
  have h := r.lo_le_hi
  unfold IntReg.stored
  congr 1
  split
  · omega
  · split <;> omega

/-- What a good integer register holds fits int64 by far. -/
theorem CregOk.toInt_ofInt_getInt {f : CregFile} (h : CregOk f) (r : IntReg) :
    (BitVec.ofInt 64 (f.getInt r)).toInt = f.getInt r := by
  obtain ⟨hlo, hhi⟩ := h.int r
  have hrange : -1024 ≤ r.lo ∧ r.hi ≤ 1024 := by cases r <;> simp [IntReg.lo, IntReg.hi]
  exact BitVec.toInt_ofInt_eq_self (by decide) (by omega) (by omega)

/-- Settles O27: the operand passes NONFINITE, and the register file returns the stored value in that register alone. -/
theorem cfgwFloat : Obligations.CfgwFloat := by
  intro s r hphase hv
  refine ⟨s.creg.setF64 r (r.stored s.opd), ?_, ?_, fun r' hr' => ?_, fun r' => CregFile.getInt_setF64 _ _ _ _⟩
  · rw [exec_cfgw_config hphase, writeCreg_f64_of_isFinite hv]; rfl
  · rw [CregFile.getF64_setF64, if_pos rfl, F64Reg.stored]
  · rw [CregFile.getF64_setF64, if_neg hr']

/-- Settles O28: CFGW of an integer register checks only PHASE, and what it stores is the clamp of `IntReg.stored_eq`. -/
theorem cfgwInteger : Obligations.CfgwInteger := by
  intro s r hphase
  refine ⟨s.creg.setInt r (r.stored s.opdInt), ?_, ?_, fun r' hr' => ?_, fun r' => CregFile.getF64_setInt _ _ _ _⟩
  · rw [exec_cfgw_config hphase]; rfl
  · rw [CregFile.getInt_setInt, if_pos rfl, IntReg.stored_eq, State.opdInt]
  · rw [CregFile.getInt_setInt, if_neg hr']

/-- Settles O29: CFGR has no check, and an integer in its stored range survives the conversion to int64. -/
theorem cfgrReads : Obligations.CfgrReads := by
  intro s r hs
  refine ⟨s.creg.read64 r, exec_cfgr s r, ?_, ?_⟩
  · rintro q rfl; rfl
  · rintro q rfl; exact hs.creg.toInt_ofInt_getInt q

/-! The selectors of PQRY and PFQ (44_control.md R287, R289) -/

/-- The pipe fields in the order of the table of 44_control.md R287. -/
def PipeField.table : List PipeField :=
  [.acc, .envVol, .envVel, .smooth, .target, .theta, .dtheta, .oscFreq, .oscVol, .flags, .decayCount, .pipeFreq, .attack, .decay,
    .sustain, .release]

theorem PipeField.table_getElem? : ∀ sel : BitVec 4, PipeField.table[sel.toNat]? = some (PipeField.ofSel sel) := by decide

/-- The slot fields in the order of the table of 44_control.md R289. -/
def SlotField.table : List SlotField := [.type, .rate, .intensity, .lfoTheta, .lfoDtheta, .lfoFlags]

theorem SlotField.table_getElem? : ∀ sub : BitVec 4, SlotField.table[sub.toNat]? = SlotField.ofSub sub := by decide

/-- The value of a field, found by its place in a table of fields. -/
theorem getD_map_of_getElem? {α : Type} {table : List α} {n : Nat} {a : α} (h : table[n]? = some a) (value : α → Word64) :
    (table.map value).getD n 0 = value a := by
  rw [List.getD_eq_getElem?_getD, List.getElem?_map, h, Option.map_some, Option.getD_some]

section
variable {s : State} {o : Organ} (hphase : s.phase = .run o)
include hphase

theorem exec_keyq_run (k : CodeField) : exec (.keyq k) s = .next (s.setResult (if o.keyPressed k then 1 else 0)) :=
  inRun_run hphase _

theorem exec_pqry_run {c : CodeField} {p : Pipe} (hp : o.pipe? c.toInt = some p) (sel : BitVec 4) :
    exec (.pqry c sel) s = .next (s.setResult (p.field (PipeField.ofSel sel))) := by
  rw [exec, execPqry, inRun_run hphase, codeOf, hp]

theorem exec_pfq_run {c : CodeField} {k sub : BitVec 4} {p : Pipe} {q : Slot} {field : SlotField}
    (hp : o.pipe? c.toInt = some p) (hk : k.toNat < o.filterSlots) (hq : p.slots[k.toNat]? = some q)
    (hfield : SlotField.ofSub sub = some field) : exec (.pfq c k sub) s = .next (s.setResult (q.field field)) := by
  simp only [exec, execPfq, hfield, inRun_run hphase, codeOf, hp, checkSlot, if_pos hk, hq]

end

/-- Settles O41: KEYQ checks only PHASE. -/
theorem keyqReads : Obligations.KeyqReads := fun _ _ k hphase => exec_keyq_run hphase k

/-- Settles O42: the selector is a place in the table of fields. -/
theorem pqryReads : Obligations.PqryReads := by
  intro s o c sel p hphase hp
  rw [exec_pqry_run hphase hp, ← getD_map_of_getElem? (PipeField.table_getElem? sel) p.field]
  rfl

/-- Settles O43: a selector up to 5 is a place in the table of fields, and the type's code is 0 or 1. -/
theorem pfqReads : Obligations.PfqReads := by
  intro s o c k sub p q hphase hp hk hq hsub
  have hplace : sub.toNat < SlotField.table.length := Nat.lt_succ_of_le hsub
  have hfield := List.getElem?_eq_getElem hplace
  rw [exec_pfq_run hphase hp hk hq ((SlotField.table_getElem? sub).symm.trans hfield), ← getD_map_of_getElem? hfield q.field]
  obtain ⟨type, intensity, lfo⟩ := q
  cases type <;> rfl

/-! FLAGS (44_control.md R288) -/

theorem Oscillator.mode_code (o : Oscillator) :
    o.mode.code = if o.persist = true then 2 else if o.wasActive = true then 1 else 0 := by
  unfold Oscillator.mode
  split
  · rfl
  · split <;> rfl

theorem OscMode.code_lt (m : OscMode) : m.code < 3 := by cases m <;> decide

/-- FLAGS as a number: no field overflows into the next. -/
theorem flagsWord_toNat (o : Oscillator) (gate : Bool) :
    (flagsWord o gate).toNat = o.mode.code + gate.toNat * 2 ^ 2 + o.active.toNat * 2 ^ 3 + o.wasActive.toNat * 2 ^ 4
      + o.persist.toNat * 2 ^ 5 := by
  have hmode := o.mode.code_lt
  have hgate := gate.toNat_le
  have hactive := o.active.toNat_le
  have hwas := o.wasActive.toNat_le
  have hpersist := o.persist.toNat_le
  simp only [flagsWord, bitAt_eq, BitVec.toNat_ofNat]
  omega

/-- Settles O44: each field is a quotient and a remainder of the number FLAGS is. -/
theorem flagsLayout : Obligations.FlagsLayout := by
  intro o gate
  have hN := flagsWord_toNat o gate
  have hmode := o.mode.code_lt
  have hgate := gate.toNat_le
  have hactive := o.active.toNat_le
  have hwas := o.wasActive.toNat_le
  have hpersist := o.persist.toNat_le
  refine ⟨?_, getLsbD_eq_of_toNat ?_, getLsbD_eq_of_toNat ?_, getLsbD_eq_of_toNat ?_, getLsbD_eq_of_toNat ?_, fun n hn => ?_⟩
  case refine_1 =>
    rw [← Oscillator.mode_code, BitVec.extractLsb'_toNat, Nat.shiftRight_eq_div_pow]
    omega
  case refine_6 =>
    have hlt : (flagsWord o gate).toNat < 2 ^ 6 := by omega
    exact Nat.testBit_lt_two_pow (hlt.trans_le (Nat.pow_le_pow_right (by decide) hn))
  all_goals omega

/-! NOP and CLRST (44_control.md R280, R282) -/

/-- An opcode whose MASK covers every bit has one word; any other word of its OP is illegal (30_encoding.md R122). -/
theorem decode_of_mask_allOnes {op : Opcode} (hmask : op.mask = BitVec.allOnes 32) {w : Word} (hop : opField w = op.number)
    (hw : w ≠ op.matchWord) : decode w = .error .mustBeZero := by
  have htest : ¬ w &&& op.mask = op.matchWord := by rwa [hmask, BitVec.and_allOnes]
  simp only [decode, hop, ofNumber_number, if_neg htest]

/-- CLRST leaves FIRST_ERR naming the one bit it keeps. -/
theorem ErrorRecord.firstErrCode_clearNonFatal (r : ErrorRecord) :
    r.clearNonFatal.firstErrCode = if r.eCfg = true then 5 else 0 := by
  unfold ErrorRecord.firstErrCode ErrorRecord.clearNonFatal
  cases r.eCfg <;> rfl

/-- Settles O25: NOP is the identity, and its MASK covers every bit. -/
theorem nopDoesNothing : Obligations.NopDoesNothing := fun s =>
  ⟨rfl, rfl, fun _ hop hw => executeCommand_of_error (decode_of_mask_allOnes (op := .nop) rfl hop hw) s⟩

/-- Settles O26: CLRST writes only the error record, and its MASK covers every bit. -/
theorem clrstClears : Obligations.ClrstClears := fun s =>
  ⟨⟨s.setErrors s.errors.clearNonFatal, rfl, rfl, s.errors.has_clearNonFatal, s.errors.firstErrCode_clearNonFatal⟩, rfl,
    fun _ hop hw => executeCommand_of_error (decode_of_mask_allOnes (op := .clrst) rfl hop hw) s⟩

end Sys2Proof.Machine

/-! PROOF. Errors in place of exceptions (60_exceptions.md R320 to R326): every command makes its checks in one order and records
the first that fails, an error it newly records is its whole effect, and only resets and CLRST clear a recorded one. -/

namespace Sys2Proof.Machine

/-- Settles O17: shown command by command for the register window, which refuses no admitted access (20_memory.md R86). -/
theorem everyCommandCompletes : Obligations.EveryCommandCompletes := exec_completes

/-! What a command does to the error bits, read off the forms of `Effect` -/

section
variable {i : Instr} {s t : State} {e : ErrorKind}

/-- An error that recording sets anew is the one recorded. -/
theorem ErrorRecord.eq_of_has_record {r : ErrorRecord} {e' : ErrorKind} (hold : r.has e = false)
    (hnew : (r.record e').has e = true) : e = e' := by
  simpa [ErrorRecord.has_record, hold] using hnew

/-- CLRST records nothing. -/
theorem ErrorRecord.has_of_has_clearNonFatal {r : ErrorRecord} (h : r.clearNonFatal.has e = true) : r.has e = true := by
  rw [ErrorRecord.has_clearNonFatal, Bool.and_eq_true, beq_iff_eq] at h
  obtain ⟨rfl, hcfg⟩ := h
  exact hcfg

theorem ErrorRecord.has_empty (e : ErrorKind) : ErrorRecord.empty.has e = false := by cases e <;> rfl

/-- A newly recorded error is the command's whole effect, but for the CFG of a BUILD (60_exceptions.md R322). -/
theorem Effect.newError (h : Effect s i t) (hold : s.errors.has e = false) (hnew : t.errors.has e = true) :
    (e ≠ .cfg ∧ t = s.recordError e) ∨ (e = .cfg ∧ i = .build ∧ t = (s.recordError .cfg).setPhase .failed) := by
  cases h with
  | failed he =>
    obtain rfl := ErrorRecord.eq_of_has_record hold hnew
    exact .inl ⟨he, rfl⟩
  | mismatch =>
    obtain rfl := ErrorRecord.eq_of_has_record hold hnew
    exact .inr ⟨rfl, rfl, rfl⟩
  | reset => simp [ErrorRecord.has_empty] at hnew
  | clrst => exact absurd (hold.symm.trans (ErrorRecord.has_of_has_clearNonFatal hnew)) (by decide)
  | _ => exact absurd (hold.symm.trans hnew) (by decide)

/-- Only RESET and CLRST clear an error bit, and CLRST keeps E_CFG (44_control.md R281, R282). -/
theorem Effect.clearedError (h : Effect s i t) (hold : s.errors.has e = true) (hclear : t.errors.has e = false) :
    i = .reset ∨ (i = .clrst ∧ e ≠ .cfg) := by
  cases h with
  | reset => exact .inl rfl
  | clrst =>
    refine .inr ⟨rfl, ?_⟩
    rintro rfl
    simp [ErrorRecord.has_clearNonFatal, show s.errors.eCfg = true from hold] at hclear
  | failed | mismatch => simp [ErrorRecord.has_record, hold] at hclear
  | _ => exact absurd (hold.symm.trans hclear) (by decide)

end

/-- Settles O20: the two ways to record an error anew are the two forms of `Effect` that record one. -/
theorem errorsArePrecise : Obligations.ErrorsArePrecise := by
  intro i s t e hexec hold hnew
  rcases (effect_of_exec hexec).newError hold hnew with ⟨he, ht⟩ | ⟨he, hi, ht⟩
  · exact ⟨fun _ => ht, fun hcfg => absurd hcfg he⟩
  · exact ⟨fun hcfg => absurd he hcfg, fun _ => ⟨hi, ht⟩⟩

/-! The checks of a command (60_exceptions.md R326) -/

/-- The error the checks after Decode give, in their order: PHASE, RANGE, NONFINITE. -/
def checkError (i : Instr) (s : State) : Option ErrorKind :=
  if admittedIn i s.phase = false then some .phase
  else if outOfRange i s.phase then some .range
  else if readsF64 i && !F64.isFinite s.opd then some .nonfinite
  else none

theorem wordError_of_error {w : Word} {e : DecodeError} (h : decode w = .error e) (s : State) : wordError w s = some .illegal := by
  rw [wordError, h]

theorem wordError_of_decode {w : Word} {i : Instr} (h : decode w = .ok i) (s : State) : wordError w s = checkError i s := by
  rw [wordError, h, checkError]

/-- No error is newly recorded, but for the CFG of a BUILD that ran. -/
def RecordsOnlyCfg (s t : State) : Prop :=
  ∀ e, t.errors.has e = true → s.errors.has e = true ∨ (e = .cfg ∧ t.phase = .failed)

/-- A pipe has fewer slots than FILTER_SLOTS; no run reaches such a state (log entry 13). -/
def LacksSlot (s : State) : Prop := ∃ o p, s.phase = .run o ∧ p ∈ o.pipes ∧ p.slots.length < o.filterSlots

/-- What a command does that passes its checks; PFQ of a slot its pipe lacks records RANGE (log entry 13). -/
inductive Passes (s : State) : Result → Prop
  | completes {t : State} (h : RecordsOnlyCfg s t) : Passes s (.next t)
  | lacksSlot (h : LacksSlot s) : Passes s (.next (s.recordError .range))

/-- `r` is the outcome of a command that makes the checks of `i`: the first that fails ends it. -/
structure MakesChecks (i : Instr) (s : State) (r : Result) : Prop where
  fails : ∀ e, checkError i s = some e → r = raise e s
  passes : checkError i s = none → Passes s r

theorem StateOk.not_lacksSlot {s : State} (hs : StateOk s) : ¬LacksSlot s := by
  rintro ⟨o, p, hphase, hp, hlt⟩
  exact hlt.ne ((hs.organ o hphase).pipes p hp).slotCount

section
variable {i : Instr} {s : State}

theorem checkError_of_not_admitted (h : admittedIn i s.phase = false) : checkError i s = some .phase := if_pos h

theorem checkError_ne_phase (h : admittedIn i s.phase = true) : checkError i s ≠ some .phase := by
  unfold checkError
  rw [if_neg (by simp [h])]
  split
  · decide
  · split <;> decide

/-- A state with the old error record has no new error. -/
theorem Passes.of_errors_eq {t : State} (h : t.errors = s.errors) : Passes s (.next t) :=
  .completes fun _ he => .inl (h ▸ he)

theorem MakesChecks.of_fails {e : ErrorKind} (h : checkError i s = some e) : MakesChecks i s (raise e s) :=
  ⟨fun e' he' => by rw [Option.some.inj (h.symm.trans he')], fun hnone => nomatch h.symm.trans hnone⟩

theorem MakesChecks.of_passes {r : Result} (h : checkError i s = none) (hr : Passes s r) : MakesChecks i s r :=
  ⟨fun _ he => (nomatch h.symm.trans he), fun _ => hr⟩

theorem MakesChecks.of_not_admitted (hadm : admittedIn i s.phase = false) : MakesChecks i s (raise .phase s) :=
  .of_fails (checkError_of_not_admitted hadm)

/-- A command with no check but PHASE, in a phase that admits it. -/
theorem MakesChecks.of_no_check {r : Result} (hadm : admittedIn i s.phase = true) (hrange : outOfRange i s.phase = false)
    (hreads : readsF64 i = false) (h : Passes s r) : MakesChecks i s r :=
  .of_passes (by simp [checkError, hadm, hrange, hreads]) h

/-- A command of phase RUN makes the checks if its body there makes RANGE and NONFINITE in that order. -/
theorem MakesChecks.inRun {body : Organ → Result} (rule : Organ → Result) (hadm : ∀ p, admittedIn i p = p.isRun)
    (hbody : ∀ o, body o = if outOfRange i (.run o) then raise .range s
      else if readsF64 i && !F64.isFinite s.opd then raise .nonfinite s else rule o)
    (hrule : ∀ o, s.phase = .run o → outOfRange i (.run o) = false → Passes s (rule o)) :
    MakesChecks i s (inRun s body) := by
  rcases inRun_cases s body with ⟨o, ho, hrun⟩ | ⟨hphase, hraise⟩
  · have hrunning : admittedIn i (.run o) = true := hadm _
    rw [hrun, hbody]
    cases hrange : outOfRange i (.run o) with
    | true => exact .of_fails (by simp [checkError, ho, hrunning, hrange])
    | false =>
      cases hfinite : readsF64 i && !F64.isFinite s.opd with
      | true => exact .of_fails (by simp [checkError, ho, hrunning, hrange, hfinite])
      | false => exact .of_passes (by simp [checkError, ho, hrunning, hrange, hfinite]) (hrule o ho hrange)
  · rw [hraise]
    exact .of_not_admitted ((hadm _).trans hphase)

/-! The RANGE check, by the operands there are -/

theorem outOfRange_of_pipe {sel : PipeOperand} (hsel : pipeOperand? i = some sel) (hslot : slotOperand? i = none) (o : Organ) :
    outOfRange i (.run o) = !o.admits sel := by
  simp [outOfRange, hsel, hslot]

theorem checkSlot_eq (o : Organ) (k : BitVec 4) (s : State) (body : Result) :
    checkSlot o k s body = if decide (o.filterSlots ≤ k.toNat) then raise .range s else body := by
  simp only [checkSlot, decide_eq_true_eq, ← Nat.not_lt, ite_not]

theorem outOfRange_of_slot {sel : PipeOperand} {k : BitVec 4} (hsel : pipeOperand? i = some sel)
    (hslot : slotOperand? i = some k) (o : Organ) :
    outOfRange i (.run o) = (!o.admits sel || decide (o.filterSlots ≤ k.toNat)) := by
  simp [outOfRange, hsel, hslot]

/-! The commands of format P and F -/

section
variable {idx : CodeField} {k : BitVec 4} {all : Bool} (hadm : ∀ p, admittedIn i p = p.isRun)
  (hsel : pipeOperand? i = some (pipeOperand idx all))
include hadm hsel

theorem MakesChecks.pipeCommand (hslot : slotOperand? i = none) (hreads : readsF64 i = false) (f : Pipe → Pipe) :
    MakesChecks i s (pipeCommand idx all f s) := by
  refine .inRun (fun o => .next (s.setOrgan (o.apply (pipeOperand idx all) f))) hadm (fun o => ?_) fun _ _ _ => .of_errors_eq rfl
  rw [outOfRange_of_pipe hsel hslot, hreads, checkPipe]
  cases o.admits (pipeOperand idx all) <;> rfl

theorem MakesChecks.pipeValueCommand (hslot : slotOperand? i = none) (hreads : readsF64 i = true) (f : F64 → Pipe → Pipe) :
    MakesChecks i s (pipeValueCommand idx all f s) := by
  refine .inRun (fun o => .next (s.setOrgan (o.apply (pipeOperand idx all) (f s.opd)))) hadm (fun o => ?_)
    fun _ _ _ => .of_errors_eq rfl
  rw [outOfRange_of_pipe hsel hslot, hreads, checkPipe, checkFinite]
  cases o.admits (pipeOperand idx all) <;> cases F64.isFinite s.opd <;> rfl

theorem MakesChecks.slotCommand (hslot : slotOperand? i = some k) (hreads : readsF64 i = false) (f : Slot → Slot) :
    MakesChecks i s (slotCommand idx k all f s) := by
  refine .inRun (fun o => .next (s.setOrgan (o.apply (pipeOperand idx all) fun p => p.modifySlot k.toNat f))) hadm (fun o => ?_)
    fun _ _ _ => .of_errors_eq rfl
  rw [outOfRange_of_slot hsel hslot, hreads, checkPipe, checkSlot_eq]
  cases o.admits (pipeOperand idx all) <;> cases decide (o.filterSlots ≤ k.toNat) <;> rfl

theorem MakesChecks.slotValueCommand (hslot : slotOperand? i = some k) (hreads : readsF64 i = true) (f : F64 → Slot → Slot) :
    MakesChecks i s (slotValueCommand idx k all f s) := by
  refine .inRun (fun o => .next (s.setOrgan (o.apply (pipeOperand idx all) fun p => p.modifySlot k.toNat (f s.opd)))) hadm
    (fun o => ?_) fun _ _ _ => .of_errors_eq rfl
  rw [outOfRange_of_slot hsel hslot, hreads, checkPipe, checkSlot_eq, checkFinite]
  cases o.admits (pipeOperand idx all) <;> cases decide (o.filterSlots ≤ k.toNat) <;> cases F64.isFinite s.opd <;> rfl

end

/-! The other commands -/

/-- A command of phase RUN that reads no f64: its body may find RANGE for itself. -/
theorem MakesChecks.inRun_of_range {body : Organ → Result} (hadm : ∀ p, admittedIn i p = p.isRun) (hreads : readsF64 i = false)
    (hrange : ∀ o, outOfRange i (.run o) = true → body o = raise .range s)
    (hrule : ∀ o, s.phase = .run o → outOfRange i (.run o) = false → Passes s (body o)) :
    MakesChecks i s (Machine.inRun s body) := by
  refine .inRun body hadm (fun o => ?_) hrule
  rw [hreads, Bool.false_and, if_neg Bool.false_ne_true]
  split
  · next hout => exact hrange o hout
  · rfl

theorem recordsOnlyCfg_buildCommand (pf : Platform) (s : State) : RecordsOnlyCfg s (buildCommand pf s) := by
  intro e he
  unfold buildCommand at he ⊢
  split
  · next hm =>
    rw [if_pos hm] at he
    simp only [State.setPhase_errors, State.recordError_errors, ErrorRecord.has_record, Bool.or_eq_true, beq_iff_eq] at he
    exact he.imp_right fun hcfg => ⟨hcfg, rfl⟩
  · next hm =>
    rw [if_neg hm] at he
    exact .inl he

theorem makesChecks_build (s : State) : MakesChecks .build s (execBuild s) := by
  rcases inConfig_cases s (.next (buildCommand platform s)) with ⟨hphase, hrun⟩ | ⟨hphase, hraise⟩
  · rw [execBuild, hrun]
    exact .of_no_check (by rw [hphase]; rfl) (by rw [hphase]; rfl) rfl (.completes (recordsOnlyCfg_buildCommand platform s))
  · rw [execBuild, hraise]
    exact .of_not_admitted hphase

theorem readsF64_cfgw_f64 (r : F64Reg) : readsF64 (.cfgw (Creg.f64 r).number) = true := by cases r <;> rfl

theorem readsF64_cfgw_int (r : IntReg) : readsF64 (.cfgw (Creg.int r).number) = false := by
  cases r with
  | drawbar j | offset j => revert j; decide
  | _ => rfl

theorem makesChecks_writeCreg (hphase : s.phase = .config) (r : Creg) : MakesChecks (.cfgw r.number) s (writeCreg s r) := by
  have hadm : admittedIn (.cfgw r.number) s.phase = true := by rw [hphase]; rfl
  have hrange : outOfRange (.cfgw r.number) s.phase = false := by rw [hphase]; rfl
  cases r with
  | int r => exact .of_no_check hadm hrange (readsF64_cfgw_int r) (.of_errors_eq rfl)
  | f64 r =>
    rw [writeCreg, checkFinite]
    cases hv : F64.isFinite s.opd with
    | true => exact .of_passes (by simp [checkError, hadm, hrange, hv]) (.of_errors_eq rfl)
    | false => exact .of_fails (by simp [checkError, hadm, hrange, readsF64_cfgw_f64, hv])

theorem makesChecks_cfgw {n : BitVec 8} (hn : n.toNat < 0x30) (s : State) : MakesChecks (.cfgw n) s (execCfgw n s) := by
  obtain ⟨r, hr, rfl⟩ := (Creg.exists_number_iff n).2 hn
  rw [execCfgw, hr]
  rcases inConfig_cases s (writeCreg s r) with ⟨hphase, hrun⟩ | ⟨hphase, hraise⟩
  · simpa only [hrun] using makesChecks_writeCreg hphase r
  · simpa only [hraise] using MakesChecks.of_not_admitted (i := .cfgw r.number) hphase

theorem makesChecks_cfgr {n : BitVec 8} (hn : n.toNat < 0x30) (s : State) : MakesChecks (.cfgr n) s (execCfgr n s) := by
  obtain ⟨r, hr, rfl⟩ := (Creg.exists_number_iff n).2 hn
  rw [execCfgr, hr]
  exact .of_no_check rfl (by cases s.phase <;> rfl) rfl (.of_errors_eq rfl)

theorem makesChecks_pqry (c : CodeField) (sel : BitVec 4) (s : State) : MakesChecks (.pqry c sel) s (execPqry c sel s) := by
  refine .inRun_of_range (fun _ => rfl) rfl (fun o hrange => ?_) fun o _ hrange => ?_
  all_goals rw [outOfRange_of_pipe (sel := .one (codeOf c)) rfl rfl] at hrange
  · simp only [Organ.pipe?_eq_none (by simpa [Organ.admits] using hrange)]
  · simp only [Organ.pipe?_eq_some_of_hasPipe (by simpa [Organ.admits] using hrange)]
    exact .of_errors_eq rfl

theorem makesChecks_pfq (c : CodeField) (k : BitVec 4) {sub : BitVec 4} (hsub : sub.toNat ≤ 5) (s : State) :
    MakesChecks (.pfq c k sub) s (execPfq c k sub s) := by
  have hplace : sub.toNat < SlotField.table.length := Nat.lt_succ_of_le hsub
  have hfield := (SlotField.table_getElem? sub).symm.trans (List.getElem?_eq_getElem hplace)
  rw [execPfq, hfield]
  refine .inRun_of_range (fun _ => rfl) rfl (fun o hrange => ?_) fun o hphase hrange => ?_
  all_goals rw [outOfRange_of_slot (sel := .one (codeOf c)) rfl rfl] at hrange
  · cases hpipe : o.pipe? (codeOf c) with
    | none => rfl
    | some p =>
      have hk : ¬k.toNat < o.filterSlots := by simpa [Organ.admits, Organ.hasPipe_of_pipe? hpipe] using hrange
      exact if_neg hk
  · simp only [Bool.or_eq_false_iff, Bool.not_eq_false', decide_eq_false_iff_not, Nat.not_le, Organ.admits] at hrange
    obtain ⟨hpipe, hk⟩ := hrange
    simp only [Organ.pipe?_eq_some_of_hasPipe hpipe, checkSlot, if_pos hk]
    split
    · next hslot => exact .lacksSlot ⟨o, _, hphase, List.getElem_mem (Organ.place_lt hpipe),
        (List.getElem?_eq_none_iff.1 hslot).trans_lt hk⟩
    · exact .of_errors_eq rfl

/-- Every command that a word can stand for makes the checks of 60_exceptions.md R326, in that order. -/
theorem exec_makesChecks (hwf : i.wellFormed = true) (s : State) : MakesChecks i s (exec i s) := by
  cases i with
  | nop => exact .of_no_check rfl (by cases s.phase <;> rfl) rfl (.of_errors_eq rfl)
  | reset =>
    exact .of_no_check rfl (by cases s.phase <;> rfl) rfl (.completes fun e he => by simp [ErrorRecord.has_empty] at he)
  | clrst =>
    exact .of_no_check rfl (by cases s.phase <;> rfl) rfl (.completes fun _ he => .inl (ErrorRecord.has_of_has_clearNonFatal he))
  | build => exact makesChecks_build s
  | cfgw n => exact makesChecks_cfgw (of_decide_eq_true hwf) s
  | cfgr n => exact makesChecks_cfgr (of_decide_eq_true hwf) s
  | setkey | next | keyq =>
    exact .inRun_of_range (fun _ => rfl) rfl (fun _ hrange => nomatch hrange) fun _ _ _ => .of_errors_eq rfl
  | pqry c sel => exact makesChecks_pqry c sel s
  | pfq c k sub => exact makesChecks_pfq c k (of_decide_eq_true hwf) s
  | pact => exact .pipeCommand (fun _ => rfl) rfl rfl rfl _
  | pvol | patk | pdec | psus | prel => exact .pipeValueCommand (fun _ => rfl) rfl rfl rfl _
  | pftype => exact .slotCommand (fun _ => rfl) rfl rfl rfl _
  | pvrate | pvint => exact .slotValueCommand (fun _ => rfl) rfl rfl rfl _

/-- An error that a command newly records is the one its checks give. A command that passes them records at most the CFG of a
BUILD, or RANGE for a slot that its pipe lacks (log entry 13). -/
theorem newError_of_exec {t : State} {e : ErrorKind} (hwf : i.wellFormed = true) (hexec : exec i s = .next t)
    (hold : s.errors.has e = false) (hnew : t.errors.has e = true) :
    checkError i s = some e
      ∨ (checkError i s = none ∧ ((e = .cfg ∧ t.phase = .failed) ∨ (e = .range ∧ LacksSlot s))) := by
  obtain ⟨hfails, hpasses⟩ := exec_makesChecks hwf s
  cases hcheck : checkError i s with
  | some e' =>
    obtain rfl := Host.Outcome.next.inj (hexec.symm.trans (hfails e' hcheck))
    exact .inl (congrArg some (ErrorRecord.eq_of_has_record hold hnew).symm)
  | none =>
    refine .inr ⟨rfl, ?_⟩
    have hpassed := hexec ▸ hpasses hcheck
    cases hpassed with
    | completes h => exact .inl ((h e hnew).resolve_left (by simp [hold]))
    | lacksSlot h => exact .inr ⟨ErrorRecord.eq_of_has_record hold hnew, h⟩

end

/-- Settles O18: PHASE is the first check after Decode, and one that an admitted command does not fail. -/
theorem phaseAdmission : Obligations.PhaseAdmission := by
  intro i s hwf
  refine ⟨fun hadm => (exec_makesChecks hwf s).fails _ (checkError_of_not_admitted hadm), fun hadm t hexec hnew => ?_⟩
  by_contra hold
  rw [Bool.not_eq_true] at hold
  rcases newError_of_exec (e := .phase) hwf hexec hold hnew with hcheck | ⟨-, ⟨he, -⟩ | ⟨he, -⟩⟩
  · exact checkError_ne_phase hadm hcheck
  · cases he
  · cases he

/-- Settles O19: ILLEGAL is Decode's, and the command that a word decodes to makes the other checks. -/
theorem checkOrder : Obligations.CheckOrder := by
  intro w s
  cases hdecode : decode w with
  | error err =>
    rw [wordError_of_error hdecode]
    refine ⟨fun e he => ?_, fun _ hnone => nomatch hnone⟩
    obtain rfl := Option.some.inj he
    exact executeCommand_of_error hdecode s
  | ok i =>
    obtain ⟨hwf, -⟩ := encodeDecode w i hdecode
    rw [wordError_of_decode hdecode, executeCommand_of_decode hdecode]
    refine ⟨(exec_makesChecks hwf s).fails, fun hs hnone t hexec e hnew => or_iff_not_imp_left.2 fun hold => ?_⟩
    rw [Bool.not_eq_true] at hold
    rcases newError_of_exec hwf hexec hold hnew with hcheck | ⟨-, hcfg | ⟨-, hlacks⟩⟩
    · simp [hnone] at hcheck
    · exact hcfg
    · exact absurd hlacks hs.not_lacksSlot

/-! Recording in STATUS (60_exceptions.md R323) -/

theorem State.status_getLsbD_statusBit (s : State) (e : ErrorKind) : s.status.getLsbD e.statusBit = s.errors.has e := by
  obtain ⟨-, hillegal, hphase, hrange, hnonfinite, hcfg, -, -⟩ := statusLayout s
  cases e with
  | illegal => exact hillegal
  | phase => exact hphase
  | range => exact hrange
  | nonfinite => exact hnonfinite
  | cfg => exact hcfg

/-- The bits below the error bits are PHASE. -/
theorem State.status_getLsbD_low (s : State) {n : Nat} (hn : n < 8) : s.status.getLsbD n = s.phase.code.testBit n := by
  have hN := s.status_toNat
  have hp := s.phase.code_lt
  have hlow : s.status.toNat % 2 ^ 8 = s.phase.code := by omega
  rw [← hlow, Nat.testBit_mod_two_pow, decide_eq_true hn, Bool.true_and]
  rfl

/-- The bits between the error bits and FIRST_ERR read 0. -/
theorem State.status_getLsbD_gap (s : State) {n : Nat} (hlo : 12 < n) (hhi : n < 16) : s.status.getLsbD n = false := by
  obtain ⟨-, -, -, -, -, -, -, hother⟩ := statusLayout s
  exact hother n (by omega)

theorem ErrorKind.exists_statusBit {n : Nat} (hlo : 8 ≤ n) (hhi : n ≤ 12) : ∃ e : ErrorKind, e.statusBit = n := by
  interval_cases n
  exacts [⟨.illegal, rfl⟩, ⟨.phase, rfl⟩, ⟨.range, rfl⟩, ⟨.nonfinite, rfl⟩, ⟨.cfg, rfl⟩]

theorem State.status_firstErr (s : State) : s.status.extractLsb' 16 8 = BitVec.ofNat 8 s.errors.firstErrCode := by
  have hN := s.status_toNat
  have hp := s.phase.code_lt
  have hf := s.errors.firstErrCode_lt
  have hbits := s.errors.bits_le_one
  apply BitVec.eq_of_toNat_eq
  rw [BitVec.extractLsb'_toNat, Nat.shiftRight_eq_div_pow, BitVec.toNat_ofNat]
  omega

/-- FIRST_ERR keeps the first code; no kind has code 0. -/
theorem ErrorRecord.firstErrCode_record (r : ErrorRecord) (e : ErrorKind) :
    (r.record e).firstErrCode = if r.firstErrCode = 0 then e.code else r.firstErrCode := by
  unfold ErrorRecord.firstErrCode
  rw [ErrorRecord.firstErr_record]
  cases r.firstErr with
  | none => rfl
  | some first => cases first <;> rfl

/-- Recording leaves the bits below FIRST_ERR alone, but for the error's own. -/
theorem State.status_getLsbD_recordError (s : State) (e : ErrorKind) {n : Nat} (hn : n < 16) (hne : n ≠ e.statusBit) :
    (s.recordError e).status.getLsbD n = s.status.getLsbD n := by
  rcases Nat.lt_or_ge n 8 with hlow | hlow
  · rw [State.status_getLsbD_low _ hlow, State.status_getLsbD_low _ hlow, State.recordError_phase]
  · rcases Nat.lt_or_ge 12 n with hgap | hgap
    · rw [State.status_getLsbD_gap _ hgap hn, State.status_getLsbD_gap _ hgap hn]
    · obtain ⟨e', rfl⟩ := ErrorKind.exists_statusBit hlow hgap
      have he : (e' == e) = false := beq_false_of_ne fun h => hne (congrArg _ h)
      rw [State.status_getLsbD_statusBit, State.status_getLsbD_statusBit, State.recordError_errors, ErrorRecord.has_record, he,
        Bool.or_false]

theorem State.status_firstErr_recordError (s : State) (e : ErrorKind) :
    (s.recordError e).status.extractLsb' 16 8
      = if s.status.extractLsb' 16 8 = 0 then BitVec.ofNat 8 e.code else s.status.extractLsb' 16 8 := by
  have hf := s.errors.firstErrCode_lt
  have hzero : BitVec.ofNat 8 s.errors.firstErrCode = 0 ↔ s.errors.firstErrCode = 0 := by
    rw [← BitVec.toNat_inj, BitVec.toNat_ofNat]
    show _ % 2 ^ 8 = 0 ↔ _
    omega
  simp only [State.status_firstErr, State.recordError_errors, ErrorRecord.firstErrCode_record, hzero, apply_ite (BitVec.ofNat 8)]

/-! The bits are sticky (60_exceptions.md R323) -/

theorem State.eq_cmd_of_admitted {s : State} {addr bytes : Nat} (h : s.admitted addr bytes = some .cmd) :
    addr = s.pscBase + 0x08 ∧ bytes = 4 := by
  have hplace : bytes = 4 ∧ ∃ k < 16, addr = s.pscBase + 4 * k := by
    by_contra hno
    rw [(s.admitted_eq_none_iff addr bytes).2 hno] at h
    cases h
  obtain ⟨rfl, k, hk, rfl⟩ := hplace
  have hword : WindowWord.ofIndex k = .cmd := Option.some.inj ((s.admitted_word hk).symm.trans h)
  obtain rfl : k = 2 := by
    revert hword
    interval_cases k <;> decide
  exact ⟨rfl, rfl⟩

/-- The words that clear an error bit are those of RESET and CLRST. -/
theorem clearedError_of_executeCommand {w : Word} {s t : State} {e : ErrorKind} (hexec : executeCommand w s = .next t)
    (hold : s.errors.has e = true) (hclear : t.errors.has e = false) : w = 0x04000000 ∨ (w = 0x0C000000 ∧ e ≠ .cfg) := by
  cases hdecode : decode w with
  | error err =>
    obtain rfl := Host.Outcome.next.inj ((executeCommand_of_error hdecode s).symm.trans hexec)
    simp [ErrorRecord.has_record, hold] at hclear
  | ok i =>
    obtain ⟨-, rfl⟩ := encodeDecode w i hdecode
    rw [executeCommand_of_decode hdecode] at hexec
    rcases (effect_of_exec hexec).clearedError hold hclear with rfl | ⟨rfl, he⟩
    · exact .inl rfl
    · exact .inr ⟨rfl, he⟩

/-- A write that clears an error bit is one of RESET or CLRST to CMD. -/
theorem clearedError_of_windowWrite {word : WindowWord} {data : Word} {s t : State} {e : ErrorKind}
    (hwrite : s.windowWrite word data = .next t) (hold : s.errors.has e = true) (hclear : t.errors.has e = false) :
    word = .cmd ∧ (data = 0x04000000 ∨ (data = 0x0C000000 ∧ e ≠ .cfg)) := by
  cases word with
  | cmd => exact ⟨rfl, clearedError_of_executeCommand hwrite hold hclear⟩
  | _ =>
    obtain rfl := Host.Outcome.next.inj hwrite
    exact absurd (hold.symm.trans hclear) (by decide)

theorem clearedError_of_step {s t : State} {e : ErrorKind} (hstep : step s = .next t) (hold : s.errors.has e = true)
    (hclear : t.errors.has e = false) :
    (∃ rest, s.inputs = .hardwareReset :: rest)
    ∨ ∃ data rest, s.inputs = .write (s.pscBase + 0x08) 4 data :: rest
      ∧ (data % 2 ^ 32 = 0x04000000 ∨ (data % 2 ^ 32 = 0x0C000000 ∧ e ≠ .cfg)) := by
  have hkept : t.errors ≠ s.errors := fun h => by rw [h, hold] at hclear; cases hclear
  match hin : s.inputs with
  | [] =>
    obtain rfl := Host.Outcome.next.inj ((step_of_nil hin).symm.trans hstep)
    exact absurd rfl hkept
  | .hardwareReset :: rest => exact .inl ⟨rest, rfl⟩
  | .read addr bytes :: rest =>
    cases hword : s.admitted addr bytes with
    | none => exact nomatch (step_of_unadmitted_read hin hword).symm.trans hstep
    | some word =>
      obtain rfl := Host.Outcome.next.inj ((step_of_read hin hword).symm.trans hstep)
      exact absurd rfl hkept
  | .write addr bytes data :: rest =>
    cases hword : s.admitted addr bytes with
    | none => exact nomatch (step_of_unadmitted_write hin hword).symm.trans hstep
    | some word =>
      obtain ⟨rfl, hdata⟩ := clearedError_of_windowWrite ((step_of_write hin hword).symm.trans hstep) hold hclear
      obtain ⟨rfl, rfl⟩ := State.eq_cmd_of_admitted hword
      refine .inr ⟨data, rest, rfl, ?_⟩
      simpa [← BitVec.toNat_inj] using hdata

/-- Settles O22: STATUS bit by bit, FIRST_ERR as a number, and the inputs that clear a bit. -/
theorem recordingInStatus : Obligations.RecordingInStatus := by
  intro s e
  refine ⟨?_, fun n hn hne => s.status_getLsbD_recordError e hn hne, s.status_firstErr_recordError e, rfl,
    fun t => clearedError_of_step⟩
  rw [State.status_getLsbD_statusBit, State.recordError_errors, ErrorRecord.has_record, beq_self_eq_true, Bool.or_true]

end Sys2Proof.Machine

/-! PROOF. Reset (70_reset_and_hazards.md R360): RESET and a hardware reset are the one operation `resetState`, which leaves the
platform's and the host's fields as they are (log entry 11). -/

namespace Sys2Proof.Machine

/-- RESET is admitted in every phase (44_control.md R281). -/
theorem exec_reset (s : State) : exec .reset s = .next (resetState s) := rfl

theorem step_of_hardwareReset {s : State} {rest : List HostInput} (h : s.inputs = .hardwareReset :: rest) :
    step s = .next { resetState s with inputs := rest } := by
  rw [step_of_cons h]
  rfl

/-- The reset state of the model is what a reset makes of any state, but for the model's own fields. -/
theorem State.reset_eq (s : State) : State.reset = { resetState s with pscBlock := 0, inputs := [], reply := none } := rfl

/-- STATUS reads 0 in CONFIG with no error recorded (10_state.md R33, R34). -/
theorem State.status_eq_zero {s : State} (hphase : s.phase = .config) (herrors : s.errors = ErrorRecord.empty) :
    s.status = 0 := by
  rw [State.status, hphase, herrors]
  rfl

/-- Settles O11: the values the specification lists are those of the operation `resetState` (which has the obligation's own
name), and the lemmas above say where it is applied and what STATUS reads after it. -/
theorem resetState_holds : Obligations.ResetState := by
  intro s reset
  have hreset : reset = resetState s := rfl
  rw [hreset]
  exact ⟨exec_reset s, fun _ => step_of_hardwareReset, State.reset_eq s,
    State.status_eq_zero (resetState_phase s) (resetState_errors s)⟩

end Sys2Proof.Machine
